-- ==== Sys2Proof/Word.lean ====
section
/-! DEFINITION. The two bit-vector types of the block: the 32-bit word carried by every interface and held by
every register and table entry (00_scope.md R7 `W`, R9), and the 24-bit header field `N` (30_encoding.md R71),
which is also the width of the register `TLEN` (10_state.md R31). -/

namespace Sys2Proof

/-- A 32-bit word, bit 31 the most significant (00_scope.md R9). A word that stands for a number stands for the
IEEE 754 binary32 value of its pattern (00_scope.md R10). -/
abbrev Word := BitVec 32

/-- The unsigned 24-bit integer of a header's bits 23:0 (30_encoding.md R71). -/
abbrev Count := BitVec 24

end Sys2Proof
end

