-- ==== Sys2Proof/Config.lean ====
section
/-! DEFINITION. The OPEN parameters of 00_scope.md R7 as uninterpreted constants. None has a body: nothing in Lean can
evaluate one or prove a value of one. Machine/Params.lean brings each into the range the spec requires of it
(every value the spec allows stays possible), and the rest of the model reads only the names of that file. -/

namespace Sys2Proof

/-- Free choice behind `TABLE_CAP` (00_scope.md R7, decision D5). -/
opaque Config.tableCapFree : Nat

/-- Free choice behind `FREQ_MIN` (00_scope.md R7, decision D12). -/
opaque Config.freqMinFree : Word

/-- Free choice behind `SINTAB` (40_numerics.md R104): the index first, then the table length. -/
opaque Config.sinTabFree : Nat → Nat → Word

/-- Free choice behind `POW10` (40_numerics.md R103). -/
opaque Config.pow10Free : Word → Word

/-- Free choice behind `NANGEN` (40_numerics.md R94): the k-th draw of a NaN. -/
opaque Config.nanGenFree : Nat → Word

end Sys2Proof
end

