-- ==== Sys2Proof/Machine/Binary32.lean ====
section
/-! DEFINITION. IEEE 754 binary32 on words: the format (40_numerics.md R90), the one rounding (R91), the four arithmetic
operations (R92), the comparisons and class tests (R93), and the conversions between numbers and natural numbers
(R98, R99).

Every finite binary32 value is an integer multiple of 2^-149, so exact values are held as integers in that unit
(`magnitude`, `value`). An exact result is a quotient n / d of natural numbers in the same unit, and `roundMag`
rounds it once. An operation whose result is a NaN returns the word `nan` it is given: which NaN that is, the spec
leaves to a draw (R94), which the caller supplies. -/

namespace Sys2Proof.Machine

/-- Sign bit, bit 31 (R90). -/
def signBit (w : Word) : Bool := w.msb

/-- Biased exponent, bits 30:23 (R90). -/
def expField (w : Word) : Nat := w.toNat / 2 ^ 23 % 2 ^ 8

/-- Fraction, bits 22:0 (R90). -/
def fracField (w : Word) : Nat := w.toNat % 2 ^ 23

/-- Bits 30:0: the pattern of the absolute value. -/
def magBits (w : Word) : Nat := w.toNat % 2 ^ 31

/-- `isNaN` (R90, R93): biased exponent 255 and a fraction that is not 0. -/
def isNaN (w : Word) : Bool := expField w == 255 && fracField w != 0

/-- An infinity of either sign (R90). -/
def isInf (w : Word) : Bool := expField w == 255 && fracField w == 0

/-- `isFinite` (R93): bits 30:23 are not all ones. -/
def isFinite (w : Word) : Bool := expField w != 255

/-- The pattern of +infinity, which is also the first magnitude pattern that is not finite (R90). -/
def infBits : Nat := 0x7F800000

/-- The absolute value, in units of 2^-149, of the magnitude pattern `p` (R90): with exponent field 0 it is the fraction
itself, else (2^23 + fraction) × 2^(exponent − 1). For `infBits` the same formula gives 2^277 units = 2^128, above
every finite value, so that comparisons may use it for the infinities too. -/
def patternMag (p : Nat) : Nat :=
  if p / 2 ^ 23 = 0 then p else (2 ^ 23 + p % 2 ^ 23) * 2 ^ (p / 2 ^ 23 - 1)

/-- The absolute value of a word that is not a NaN, in units of 2^-149 (R90). -/
def magnitude (w : Word) : Nat := patternMag (magBits w)

/-- The value of a word that is not a NaN, in units of 2^-149 (R90). Both zeros give 0. -/
def value (w : Word) : Int := if signBit w then -(magnitude w : Int) else magnitude w

/-- n / d to the nearest natural number, a tie to the even one (R91). -/
def roundHalfEven (n d : Nat) : Nat :=
  if 2 * (n % d) < d then n / d
  else if d < 2 * (n % d) then n / d + 1
  else n / d + n / d % 2

/-- How many low bits of the quotient n / d fall away in rounding it to 24 significant bits; 0 in the subnormal range, whose
unit is 2^-149 itself (R90, R91). -/
def dropBits (n d : Nat) : Nat := Nat.log2 (n / d) - 23

/-- The magnitude pattern nearest to n / d units of 2^-149, ties to the even pattern; 2^128 or more becomes infinity
(R91). With `k` bits dropped and significand `m` the pattern is `k * 2^23 + m`, in the subnormal range, in the normal
range and when `m` has rounded up to 2^24. -/
def roundMag (n d : Nat) : Nat :=
  min (dropBits n d * 2 ^ 23 + roundHalfEven n (d * 2 ^ dropBits n d)) infBits

/-- The word with sign `neg` and magnitude pattern `p`. -/
def pack (neg : Bool) (p : Nat) : Word := BitVec.ofNat 32 (if neg then 2 ^ 31 + p else p)

/-- The same number with its sign bit flipped. -/
def negate (w : Word) : Word := pack (!signBit w) (magBits w)

/-- Binary32 sum (R92). -/
def fadd (nan a b : Word) : Word :=
  if isNaN a || isNaN b then nan
  else if isInf a then (if isInf b && signBit a != signBit b then nan else a)
  else if isInf b then b
  else if value a + value b = 0 then pack (signBit a && signBit b) 0
  else pack (decide (value a + value b < 0)) (roundMag (value a + value b).natAbs 1)

/-- Binary32 difference a − b (R92): the sum of `a` and `b` with its sign flipped. -/
def fsub (nan a b : Word) : Word := fadd nan a (negate b)

/-- Binary32 product (R92). -/
def fmul (nan a b : Word) : Word :=
  if isNaN a || isNaN b then nan
  else if isInf a || isInf b then
    if magnitude a = 0 || magnitude b = 0 then nan else pack (signBit a != signBit b) infBits
  else pack (signBit a != signBit b) (roundMag (magnitude a * magnitude b) (2 ^ 149))

/-- Binary32 quotient a / b (R92). A finite number divided by an infinity is a zero, as in IEEE 754 (notes/assumptions/7.md,
PRESUMED, unsafe). -/
def fdiv (nan a b : Word) : Word :=
  if isNaN a || isNaN b then nan
  else if isInf a then (if isInf b then nan else pack (signBit a != signBit b) infBits)
  else if isInf b then pack (signBit a != signBit b) 0
  else if magnitude b = 0 then
    if magnitude a = 0 then nan else pack (signBit a != signBit b) infBits
  else pack (signBit a != signBit b) (roundMag (magnitude a * 2 ^ 149) (magnitude b))

/-- `flt` (R93): a < b; false when either is a NaN. -/
def flt (a b : Word) : Bool := !isNaN a && !isNaN b && decide (value a < value b)

/-- `fle` (R93): a ≤ b; false when either is a NaN. -/
def fle (a b : Word) : Bool := !isNaN a && !isNaN b && decide (value a ≤ value b)

/-- `feq` (R93): a = b as numbers, so the two zeros are equal; false when either is a NaN. -/
def feq (a b : Word) : Bool := !isNaN a && !isNaN b && decide (value a = value b)

/-- `fne` (R93): not `feq`, so true when either is a NaN. -/
def fne (a b : Word) : Bool := !feq a b

/-- `FromNat` (R98): the binary32 value of a natural number, exact up to 2^24. -/
def fromNat (n : Nat) : Word := pack false (roundMag (n * 2 ^ 149) 1)

/-- The domain of `ToIndex` and `Frac` (R98, R99): finite and not below zero, either zero included. -/
def isNonNegFinite (v : Word) : Bool := isFinite v && decide (0 ≤ value v)

/-- `ToIndex` (R98): the floor, exact; no value outside its domain. -/
def toIndex (v : Word) : Option Nat :=
  if isNonNegFinite v then some (magnitude v / 2 ^ 149) else none

/-- `Frac` (R99): the number minus its floor, exact, with sign bit 0; no value outside its domain. -/
def frac (v : Word) : Option Word :=
  if isNonNegFinite v then some (pack false (roundMag (magnitude v % 2 ^ 149) 1)) else none

/-! The constants of 00_scope.md R11 (40_numerics.md R97). -/

/-- +0.0 -/
def cZero : Word := 0x00000000#32
/-- 1.0 -/
def cOne : Word := 0x3F800000#32
/-- −1.0 -/
def cMOne : Word := 0xBF800000#32
/-- 0.5 -/
def cHalf : Word := 0x3F000000#32
/-- 0.1 rounded to binary32, the smoothing fraction -/
def cSmooth : Word := 0x3DCCCCCD#32
/-- −120.0 -/
def cDbMin : Word := 0xC2F00000#32
/-- +0.0, the upper end of the gain clamp -/
def cDbMax : Word := 0x00000000#32
/-- 20.0 -/
def cTwenty : Word := 0x41A00000#32

end Sys2Proof.Machine
end

