-- ==== Sys2Proof/Machine/Params.lean ====
section
/-! DEFINITION. The OPEN parameters of 00_scope.md R7 as the model reads them: each is a free constant of Config.lean brought into
the range the spec requires, so that the required properties hold of it and nothing else is known of it. A free choice
that already has the required properties is taken as it is, so every parameter the spec allows is allowed here
(notes/assumptions/2.md, DESIGN CHOICE, safe; 10.md and 11.md for what is and is not required of them). -/

namespace Sys2Proof.Machine

/-- `TABLE_CAP`: 1 ≤ `TABLE_CAP` ≤ 2^24 − 1 (00_scope.md R7). -/
def tableCap : Nat := Config.tableCapFree % (2 ^ 24 - 1) + 1

/-- The constraint on `FREQ_MIN`: a finite value above 0 (00_scope.md R7). -/
def isPositiveFinite (w : Word) : Bool := isFinite w && flt cZero w

/-- `FREQ_MIN` (00_scope.md R7). A free choice outside its range is replaced by the spec's reference value 2^-23. -/
def freqMin : Word :=
  if isPositiveFinite Config.freqMinFree then Config.freqMinFree else 0x34000000#32

/-- `SINTAB(i, L)` with property `SIN_RANGE`: finite and in [−1, 1] (40_numerics.md R104). A free choice outside that range
is replaced by +0.0. -/
def sinTab (i len : Nat) : Word :=
  if magBits (Config.sinTabFree i len) ≤ cOne.toNat then Config.sinTabFree i len else cZero

/-- `POW10(q)` with properties `POW10_ONE` and `POW10_RANGE` (40_numerics.md R103): 1.0 at either zero, elsewhere a word in
[0, 1] with sign bit 0. A free choice outside that range is replaced by 1.0. -/
def pow10 (q : Word) : Word :=
  if magBits q = 0 then cOne
  else if (Config.pow10Free q).toNat ≤ cOne.toNat then Config.pow10Free q else cOne

/-- `NANGEN`: the k-th drawn NaN, of any sign, quiet bit and payload (40_numerics.md R94). A free choice that is no NaN is
replaced by the pattern the spec's vectors print. -/
def nanAt (k : Nat) : Word :=
  if isNaN (Config.nanGenFree k) then Config.nanGenFree k else 0x7FC00000#32

/-- The draws from the k-th on, for a rule that makes several operations: its j-th operation returns the j-th of them when it
returns a NaN (40_numerics.md R94). -/
def drawsFrom (k : Nat) : Nat → Word := fun j => nanAt (k + j)

end Sys2Proof.Machine
end

