-- ==== Sys2Proof/Machine/Operands.lean ====
section
/-! DEFINITION. What the commands do with an operand word before it reaches a register: the gain conversion (40_numerics.md R101,
R102), the sanitisers (R105, R106), the mode selection (R107), the smoothing step (R108) and the change test (R111).
A definition that computes takes the NaNs its operations would return: one word, or a function that gives the j-th
operation's (R94). -/

namespace Sys2Proof.Machine

/-- Which of the two tables: 0 = Sine, 1 = Square (10_state.md R32). -/
inductive Wave where
  | sine
  | square
  deriving DecidableEq, Repr

/-- `ClampDb(g)`: the gain clamped to [−120, 0] dB (40_numerics.md R101). -/
def clampDb (g : Word) : Word :=
  if flt g cDbMin then cDbMin else if flt cDbMax g then cDbMax else g

/-- `G2L(db)`: 10^(db/20) above −120 dB, else +0.0 (40_numerics.md R102). -/
def g2l (nan db : Word) : Word :=
  if flt cDbMin db then pow10 (fdiv nan db cTwenty) else cZero

/-- `SanF(f, fb)`: the sanitised frequency (40_numerics.md R105). -/
def sanF (f fb : Word) : Word :=
  if !isFinite f then fb else if flt f freqMin then freqMin else f

/-- `SanG(g, fb)`: the sanitised gain (40_numerics.md R106). -/
def sanG (g fb : Word) : Word := if isNaN g then fb else g

/-- `ModeSel(m)`: Sine below 0.5, Square otherwise, a NaN included (40_numerics.md R107). -/
def modeSel (m : Word) : Wave := if flt m cHalf then .sine else .square

/-- `Smooth(cur, tgt)`: one step of 0.1 of the distance, three rounded operations (40_numerics.md R108). -/
def smooth (nan : Nat → Word) (cur tgt : Word) : Word :=
  fadd (nan 2) cur (fmul (nan 1) cSmooth (fsub (nan 0) tgt cur))

/-- "Differs" (40_numerics.md R111): IEEE inequality, so the two zeros do not differ. -/
def differs (new stored : Word) : Bool := fne new stored

/-- The Square entry of a stored Sine entry: +1.0 when it is strictly greater than zero, else −1.0 (41_wavetable.md R121). -/
def squareEntry (sine : Word) : Word := if flt cZero sine then cOne else cMOne

/-- The mix factor 0.5·(1 + coef) + 0.5·(1 − coef)·w, six operations each rounded (44_nco_mixer.md R169). -/
def mixFactor (nan : Nat → Word) (coef w : Word) : Word :=
  fadd (nan 5)
    (fmul (nan 1) cHalf (fadd (nan 0) cOne coef))
    (fmul (nan 4) (fmul (nan 3) cHalf (fsub (nan 2) cOne coef)) w)

/-- The output sample: the input times the mix factor (44_nco_mixer.md R169). -/
def mixSample (nan : Nat → Word) (coef w x : Word) : Word := fmul (nan 6) x (mixFactor nan coef w)

end Sys2Proof.Machine
end

