-- ==== Sys2Proof/Machine/State.lean ====
section
/-! DEFINITION. The state of one instance (10_state.md R20, R41), the reasons a step can stop, and the machine after reset.

A register or table entry that nothing has written since reset or DESTROY holds NO VALUE. That is the spec's own content of
it (10_state.md R38, R39): "it represents 'no value' explicitly and treats a read of it as a fault of the model". `Held` is
that representation; it is not the want of a reset value. No command sequence from reset reads one (R38). -/

namespace Sys2Proof.Machine

/-- What a register holds: no value, or a value (10_state.md R38). -/
inductive Held (α : Type) where
  /-- Not written since hardware reset or since the last DESTROY (10_state.md R38). -/
  | noValue
  /-- The value last written. -/
  | value (v : α)
  deriving DecidableEq, Repr

/-- `LIFE`, a 2-bit register whose fourth code never occurs (10_state.md R21). -/
inductive Life where
  /-- 0: before CONSTRUCT, after DESTROY and after reset. -/
  | unbuilt
  /-- 1: built, not processing. -/
  | inactive
  /-- 2: processing blocks. -/
  | active
  deriving DecidableEq, Repr

/-- The nine 32-bit number registers (10_state.md R20, R22 to R30). -/
inductive NumReg where
  | phase | pinc | gdb | gcur | gtgt | ftgt | flast | fact | srate
  deriving DecidableEq, Repr

/-- The three sticky fault flags (10_state.md R33, 60_exceptions.md R201). -/
inductive FaultFlag where
  /-- Configuration error, raised by CONSTRUCT (60_exceptions.md R191). -/
  | cfgErr
  /-- Lifecycle sequence error, raised by any command (60_exceptions.md R192). -/
  | seqErr
  /-- Illegal command word, raised by the decoder (60_exceptions.md R193). -/
  | illCmd
  deriving DecidableEq, Repr

/-- One wavetable: (entry number, word) pairs, entry numbers strictly rising; an entry not listed holds no value
(20_memory.md R50, 10_state.md R38). -/
abbrev Table := List (Nat × Word)

/-- The two wavetable memories, `TAB[0]` and `TAB[1]` (20_memory.md R50). -/
structure Memory where
  sine : Table
  square : Table
  deriving DecidableEq, Repr

/-- A place whose content is read: a number register, `TLEN`, or a table entry. -/
inductive Place where
  | num (r : NumReg)
  | tlen
  | entry (sel : Wave) (idx : Nat)
  deriving DecidableEq, Repr

/-- A stop the spec asks of a model that has left the states a command sequence can reach. All three are safe: the spec
gives no value there, and no run from reset meets one (10_state.md R38, 44_nco_mixer.md R167, R171). -/
inductive Fault where
  /-- Raised by a read of a register or table entry that holds no value, which the spec forbids (10_state.md R38: "treats a read of
  it as a fault of the model"; 93_implementation_defined.md U9: "must stop, never supply a value"). Safe. -/
  | noValue (p : Place)
  /-- Raised by `TabRead` with an index at or above `TLEN` (20_memory.md R53, 93_implementation_defined.md U15). Safe. -/
  | tableIndex (sel : Wave) (idx : Nat)
  /-- Raised by `ToIndex` of a negative, infinite or NaN value (40_numerics.md R98, 93_implementation_defined.md U15).
  Safe. -/
  | toIndexDomain (v : Word)
  /-- Raised by `Frac` of a negative, infinite or NaN value (40_numerics.md R99, 93_implementation_defined.md U15). Safe. -/
  | fracDomain (v : Word)
  deriving DecidableEq, Repr

/-- A refusal. No command is refused: the constructor exists for an arm without a meaning, and there is none. -/
inductive Refusal where
  /-- Raised by an arm of `exec` whose instruction has no meaning yet; safe. -/
  | notModelled (mnemonic : String)
  deriving DecidableEq, Repr

/-- The state of one instance (10_state.md R20) and, after it, the model's own fields: the two word streams at the block's
ports, the reset input, and the number of NaN draws made. -/
@[ext]
structure State where
  /-- `LIFE` (10_state.md R21). -/
  life : Life
  /-- `PHASE`, the oscillator phase (10_state.md R22). -/
  phase : Held Word
  /-- `PINC`, the phase increment (10_state.md R23). -/
  pinc : Held Word
  /-- `GDB`, the gain in dB as last supplied, stored raw (10_state.md R24). -/
  gdb : Held Word
  /-- `GCUR`, the gain coefficient in use (10_state.md R25). -/
  gcur : Held Word
  /-- `GTGT`, the gain coefficient the smoother moves toward (10_state.md R26). -/
  gtgt : Held Word
  /-- `FTGT`, the frequency the smoother moves toward (10_state.md R27). -/
  ftgt : Held Word
  /-- `FLAST`, the frequency seen at the previous block (10_state.md R28). -/
  flast : Held Word
  /-- `FACT`, the frequency in use (10_state.md R29). -/
  fact : Held Word
  /-- `SRATE`, the sample rate (10_state.md R30). -/
  srate : Held Word
  /-- `TLEN`, the table length, 24 bits (10_state.md R31). -/
  tlen : Held Count
  /-- `MODE_SEL`, 1 bit (10_state.md R32). -/
  modeSel : Wave
  /-- `CFG_ERR`, sticky (10_state.md R33). -/
  cfgErr : Bool
  /-- `SEQ_ERR`, sticky (10_state.md R33). -/
  seqErr : Bool
  /-- `ILL_CMD`, sticky (10_state.md R33). -/
  illCmd : Bool
  /-- The two wavetable memories (20_memory.md R50). -/
  mem : Memory
  /-- MODEL'S OWN (notes/assumptions/4.md, DESIGN CHOICE): the words of `CMD` not yet consumed, the next one first (20_memory.md
  R60, 10_state.md R42). -/
  cmd : List Word
  /-- MODEL'S OWN (notes/assumptions/4.md, DESIGN CHOICE): the words appended to `OUT`, the first one first (20_memory.md R60,
  10_state.md R42). -/
  out : List Word
  /-- MODEL'S OWN (notes/assumptions/4.md, DESIGN CHOICE): the reset input is asserted (70_reset_and_hazards.md R215). -/
  resetIn : Bool
  /-- MODEL'S OWN (notes/assumptions/3.md, DESIGN CHOICE): how many draws of `NANGEN` have been passed (40_numerics.md R94). -/
  nanDraws : Nat
  deriving DecidableEq, Repr

/-- The three outcomes of a step of this machine. -/
abbrev Result := Host.Outcome State Fault Refusal

/-- No entry of either table holds a value (10_state.md R39). -/
def Memory.empty : Memory := { sine := [], square := [] }

/-- The state right after hardware reset (10_state.md R39, 70_reset_and_hazards.md R215): `UNBUILT`, the flags 0, `MODE_SEL`
Sine, and no value in every other register and every table entry. Nothing waits on `CMD`, nothing has been put on `OUT`. -/
def State.reset : State where
  life := .unbuilt
  phase := .noValue
  pinc := .noValue
  gdb := .noValue
  gcur := .noValue
  gtgt := .noValue
  ftgt := .noValue
  flast := .noValue
  fact := .noValue
  srate := .noValue
  tlen := .noValue
  modeSel := .sine
  cfgErr := false
  seqErr := false
  illCmd := false
  mem := Memory.empty
  cmd := []
  out := []
  resetIn := false
  nanDraws := 0

/-- What a number register holds. -/
def State.reg (s : State) (r : NumReg) : Held Word :=
  match r with
  | .phase => s.phase
  | .pinc => s.pinc
  | .gdb => s.gdb
  | .gcur => s.gcur
  | .gtgt => s.gtgt
  | .ftgt => s.ftgt
  | .flast => s.flast
  | .fact => s.fact
  | .srate => s.srate

end Sys2Proof.Machine
end

