-- ==== Sys2Proof/Machine/Flags.lean ====
section
/-! DEFINITION. The sticky fault flags (10_state.md R33, 60_exceptions.md R201) and the read-only view `STATUS` (10_state.md
R34). The block has no arithmetic condition codes and keeps no IEEE exception flag (R33, 40_numerics.md R95). -/

namespace Sys2Proof.Machine

/-- The cause code of a fault, which is its bit number in `STATUS` (60_exceptions.md R201). -/
def causeCode (f : FaultFlag) : Nat :=
  match f with
  | .cfgErr => 4
  | .seqErr => 5
  | .illCmd => 6

/-- The value of a fault flag. -/
def State.flag (s : State) (f : FaultFlag) : Bool :=
  match f with
  | .cfgErr => s.cfgErr
  | .seqErr => s.seqErr
  | .illCmd => s.illCmd

/-- The 2-bit code of `LIFE` (10_state.md R21). -/
def lifeCode (l : Life) : Nat :=
  match l with
  | .unbuilt => 0
  | .inactive => 1
  | .active => 2

/-- The bit of `MODE_SEL` (10_state.md R32). -/
def waveCode (w : Wave) : Nat :=
  match w with
  | .sine => 0
  | .square => 1

/-- A flag as a 32-bit 0 or 1. -/
def bitWord (b : Bool) : Word := if b then 1#32 else 0#32

/-- `STATUS` (10_state.md R34): a view of `LIFE`, `MODE_SEL` and the flags, with no state of its own. -/
def State.status (s : State) : Word :=
  BitVec.ofNat 32 (lifeCode s.life)
    ||| (BitVec.ofNat 32 (waveCode s.modeSel) <<< 2)
    ||| (bitWord s.cfgErr <<< causeCode .cfgErr)
    ||| (bitWord s.seqErr <<< causeCode .seqErr)
    ||| (bitWord s.illCmd <<< causeCode .illCmd)

end Sys2Proof.Machine
end

