-- ==== Sys2Proof/Machine/Ops.lean ====
section
/-! DEFINITION. The named operations over the state: register reads and writes (00_scope.md R11), the two table accesses
(20_memory.md R53, R54), the output append (R60), raising a fault (60_exceptions.md R197), hardware reset
(70_reset_and_hazards.md R215), and what the host can do at the block's ports. -/

namespace Sys2Proof.Machine

/-- Go on with `k` after a step that answered a next state; a stop stays a stop. -/
def andThen (r : Result) (k : State → Result) : Result :=
  match r with
  | .next s => k s
  | .fault e => .fault e
  | .refused e => .refused e

/-! ### Registers -/

/-- What is held, given to `k`; a fault where there is no value (10_state.md R38). -/
def readHeld {α : Type} (p : Place) (h : Held α) (k : α → Result) : Result :=
  match h with
  | .noValue => .fault (.noValue p)
  | .value v => k v

/-- Read of a number register (00_scope.md R11, 10_state.md R38). -/
def readReg (r : NumReg) (s : State) (k : Word → Result) : Result :=
  readHeld (.num r) (s.reg r) k

/-- Read of `TLEN` (10_state.md R31, R38). -/
def readTlen (s : State) (k : Count → Result) : Result := readHeld .tlen s.tlen k

/-- Write of a number register (00_scope.md R11). -/
def State.setReg (s : State) (r : NumReg) (v : Word) : State :=
  match r with
  | .phase => { s with phase := .value v }
  | .pinc => { s with pinc := .value v }
  | .gdb => { s with gdb := .value v }
  | .gcur => { s with gcur := .value v }
  | .gtgt => { s with gtgt := .value v }
  | .ftgt => { s with ftgt := .value v }
  | .flast => { s with flast := .value v }
  | .fact => { s with fact := .value v }
  | .srate => { s with srate := .value v }

/-- `n` draws of `NANGEN` are passed (40_numerics.md R94): the model's counter advances by the number of operations a rule
makes, whether or not one of them returned a NaN. -/
def State.passDraws (s : State) (n : Nat) : State := { s with nanDraws := s.nanDraws + n }

/-! ### The wavetable memories -/

/-- The content of entry `i`; an entry not listed holds no value (10_state.md R38). -/
def tableGet (i : Nat) (t : Table) : Held Word :=
  match t with
  | [] => .noValue
  | (j, w) :: rest => if i = j then .value w else tableGet i rest

/-- Entry `i` holds `v`; every other entry as before. Entry numbers stay strictly rising. -/
def tablePut (i : Nat) (v : Word) (t : Table) : Table :=
  match t with
  | [] => [(i, v)]
  | (j, w) :: rest =>
    if i < j then (i, v) :: (j, w) :: rest
    else if i = j then (i, v) :: rest
    else (j, w) :: tablePut i v rest

/-- One of the two memories; an index into one never reaches the other (20_memory.md R50). -/
def Memory.table (m : Memory) (sel : Wave) : Table :=
  match sel with
  | .sine => m.sine
  | .square => m.square

/-- The content of entry `idx` of `TAB[sel]`. -/
def Memory.read (m : Memory) (sel : Wave) (idx : Nat) : Held Word := tableGet idx (m.table sel)

/-- `TabWrite(sel, idx, v)` (20_memory.md R54). -/
def Memory.write (m : Memory) (sel : Wave) (idx : Nat) (v : Word) : Memory :=
  match sel with
  | .sine => { m with sine := tablePut idx v m.sine }
  | .square => { m with square := tablePut idx v m.square }

/-- The canonical form: in each table the entry numbers strictly rise, so equal memories are equal data. An entry that holds
no value is not listed, and a listed entry always holds one. -/
abbrev Memory.wf (m : Memory) : Prop :=
  m.sine.Pairwise (fun a b => a.1 < b.1) ∧ m.square.Pairwise (fun a b => a.1 < b.1)

/-- `TabRead(sel, idx)` (20_memory.md R53): its precondition idx < `TLEN`, then the word last written to the entry. -/
def tabRead (sel : Wave) (idx : Nat) (s : State) (k : Word → Result) : Result :=
  readTlen s fun len =>
    if idx < len.toNat then readHeld (.entry sel idx) (s.mem.read sel idx) k
    else .fault (.tableIndex sel idx)

/-- Entries 0 to n − 1 of both tables of a build of length `len` (41_wavetable.md R120, R121, R122): the Sine entry from
`SINTAB`, the Square entry from the Sine entry just built. The order of the writes is not observable (R122;
notes/assumptions/6.md, DESIGN CHOICE, safe). -/
def buildTables (len n : Nat) (m : Memory) : Memory :=
  match n with
  | 0 => m
  | i + 1 =>
    buildTables len i
      ((m.write .sine i (sinTab i len)).write .square i (squareEntry (sinTab i len)))

/-! ### The output stream -/

/-- `OUT.push(v)` (00_scope.md R11, 20_memory.md R60). -/
def State.pushOut (s : State) (v : Word) : State := { s with out := s.out ++ [v] }

/-! ### Conversions with a domain -/

/-- `ToIndex(v)` given to `k`; a fault outside its domain (40_numerics.md R98). -/
def withIndex (v : Word) (k : Nat → Result) : Result :=
  match toIndex v with
  | some n => k n
  | none => .fault (.toIndexDomain v)

/-- `Frac(v)` given to `k`; a fault outside its domain (40_numerics.md R99). -/
def withFrac (v : Word) (k : Word → Result) : Result :=
  match frac v with
  | some w => k w
  | none => .fault (.fracDomain v)

/-! ### Raising a fault

This is the block's whole "trap entry" (60_exceptions.md R197): one flag bit is set and the command ends with no other effect.
Nothing is saved and control goes nowhere; there is no return from it (R198). -/

/-- `raise`: set one sticky flag, nothing else (60_exceptions.md R191, R192, R193, R197). -/
def raise (f : FaultFlag) (s : State) : State :=
  match f with
  | .cfgErr => { s with cfgErr := true }
  | .seqErr => { s with seqErr := true }
  | .illCmd => { s with illCmd := true }

/-- The lifecycle check, the first thing every command does (42_lifecycle.md R136): where the command is not legal it sets
`SEQ_ERR` and has no other effect (R141). -/
def ifLegal (legal : Bool) (s : State) (k : Result) : Result :=
  if legal then k else .next (raise .seqErr s)

/-! ### Hardware reset and the host's side of the ports -/

/-- Hardware reset, taken between commands (70_reset_and_hazards.md R215; notes/assumptions/4.md, DESIGN CHOICE, unsafe for a claim
about a reset in mid-command): every piece of the block's state as after reset
and the unconsumed words of `CMD` discarded; the words already on `OUT` are the host's and stay. -/
def hardwareReset (s : State) : State :=
  { State.reset with out := s.out, nanDraws := s.nanDraws }

/-- The host sends words on `CMD` (20_memory.md R60): they arrive after those that wait. -/
def State.receive (s : State) (ws : List Word) : State := { s with cmd := s.cmd ++ ws }

/-- The host asserts the reset input (70_reset_and_hazards.md R215); the next step takes the reset. -/
def State.assertReset (s : State) : State := { s with resetIn := true }

/-- The block has just the words `ws` before it, is not halted and is not being reset, so that its next step takes them. -/
def State.withCommandWords (s : State) (ws : List Word) : State :=
  { s with cmd := ws, illCmd := false, resetIn := false }

end Sys2Proof.Machine
end

