-- ==== Sys2Proof/Syntax.lean ====
section
/-! DEFINITION. The seven commands of the block (00_scope.md R13, 30_encoding.md R74): one constructor for each row of
spec/opcode_table.json, its operands in the packet's order. -/

namespace Sys2Proof

/-- A command with its operands (30_encoding.md R74). -/
inductive Instr where
  /-- CONSTRUCT: the table length L (field `N`) and the sample rate W1 (41_wavetable.md R122). -/
  | construct (len : Count) (sr : Word)
  /-- ACTIVATE: W1 = initialGainDb, W2 = initialFreqHz (42_lifecycle.md R137). -/
  | activate (g f : Word)
  /-- BEGIN_BLOCK: W1 = currentGainDb, W2 = currentFreqHz (43_smoother.md R150). -/
  | beginBlock (g f : Word)
  /-- PROCESS_SAMPLE: W1 = inputSample, W2 = mode (44_nco_mixer.md R165). -/
  | processSample (x m : Word)
  /-- PROCESS_BLOCK: W1 = gainDb, W2 = freqHz, W3 = mode, then the input samples; the field `N` is their number
  (45_block.md R180, 30_encoding.md R81). -/
  | processBlock (g f m : Word) (xs : List Word)
  /-- DEACTIVATE (42_lifecycle.md R138). -/
  | deactivate
  /-- DESTROY (41_wavetable.md R124). -/
  | destroy
  deriving DecidableEq, Repr

end Sys2Proof
end

