-- ==== Sys2Proof/Machine/NcoMixer.lean ====
section
/-! DEFINITION. The per-sample path and PROCESS_SAMPLE (44_nco_mixer.md). -/

namespace Sys2Proof.Machine

/-- Steps 2 and 3 (44_nco_mixer.md R167, R168): the table entry at the floor of the rounded product of the phase and the table
length, from the table `MODE_SEL` selects. One draw. -/
def readWave (s : State) (k : Word → Result) : Result :=
  readReg .phase s fun phase =>
    readTlen s fun len =>
      withIndex (fmul (nanAt s.nanDraws) phase (fromNat len.toNat)) fun idx =>
        tabRead s.modeSel idx s k

/-- Steps 4 and 5 (44_nco_mixer.md R169, R170): the mix of the input with the wave `w`, appended to `OUT`. Seven draws. -/
def mixAndPush (x w : Word) (s : State) : Result :=
  readReg .gcur s fun coef =>
    .next ((s.pushOut (mixSample (drawsFrom s.nanDraws) coef w x)).passDraws 7)

/-- Step 6 (44_nco_mixer.md R171): the phase plus the increment, rounded once, without its integer part. One draw. -/
def advancePhase (s : State) : Result :=
  readReg .phase s fun phase =>
    readReg .pinc s fun pinc =>
      withFrac (fadd (nanAt s.nanDraws) phase pinc) fun next =>
        .next ((s.setReg .phase next).passDraws 1)

/-- `SampleStep(x, m)` (44_nco_mixer.md R165): `MODE_SEL` is written first (R166), the phase advances last. Nine draws. -/
def sampleStep (x m : Word) (s : State) : Result :=
  let s1 := { s with modeSel := modeSel m }
  readWave s1 fun w =>
    andThen (mixAndPush x w (s1.passDraws 1)) advancePhase

/-- PROCESS_SAMPLE (44_nco_mixer.md R165). -/
def execProcessSample (x m : Word) (s : State) : Result :=
  ifLegal (s.life == .active) s (sampleStep x m s)

end Sys2Proof.Machine
end

