-- ==== Sys2Proof/Machine/Smoother.lean ====
section
/-! DEFINITION. The per-block update and BEGIN_BLOCK (43_smoother.md). The four steps are functions of their own, in the order
of 43_smoother.md R155. -/

namespace Sys2Proof.Machine

/-- Step 1, the gain target (43_smoother.md R151): the target only when the sanitised gain differs, the stored gain always.
One draw, in `G2L`. -/
def latchGain (g : Word) (s : State) : Result :=
  readReg .gdb s fun old =>
    let g1 := sanG g old
    .next { s with
      gtgt := if differs g1 old then .value (g2l (nanAt s.nanDraws) (clampDb g1)) else s.gtgt
      gdb := .value g1
      nanDraws := s.nanDraws + 1 }

/-- Step 2, the frequency target (43_smoother.md R152). -/
def latchFreq (f : Word) (s : State) : Result :=
  readReg .flast s fun old =>
    let f1 := sanF f old
    .next { s with
      ftgt := if differs f1 old then .value f1 else s.ftgt
      flast := .value f1 }

/-- One smoothing step of the register `cur` toward the register `tgt` (43_smoother.md R153). Three draws. -/
def smoothReg (cur tgt : NumReg) (s : State) : Result :=
  readReg cur s fun c =>
    readReg tgt s fun t =>
      .next ((s.setReg cur (smooth (drawsFrom s.nanDraws) c t)).passDraws 3)

/-- Step 4, the phase increment (43_smoother.md R154): kept as it was when the quotient is not finite. One draw. -/
def updateInc (s : State) : Result :=
  readReg .fact s fun fact =>
    readReg .srate s fun sr =>
      let inc := fdiv (nanAt s.nanDraws) fact sr
      .next { s with
        pinc := if isFinite inc then .value inc else s.pinc
        nanDraws := s.nanDraws + 1 }

/-- `BlockUpdate(g, f)` (43_smoother.md R150): the four steps in their order (R155). Eight draws. -/
def blockUpdate (g f : Word) (s : State) : Result :=
  andThen (latchGain g s) fun s1 =>
  andThen (latchFreq f s1) fun s2 =>
  andThen (smoothReg .gcur .gtgt s2) fun s3 =>
  andThen (smoothReg .fact .ftgt s3) fun s4 =>
  updateInc s4

/-- BEGIN_BLOCK (43_smoother.md R150). -/
def execBeginBlock (g f : Word) (s : State) : Result :=
  ifLegal (s.life == .active) s (blockUpdate g f s)

end Sys2Proof.Machine
end

