-- ==== Sys2Proof/Machine/Block.lean ====
section
/-! DEFINITION. The block driver, PROCESS_BLOCK (45_block.md). -/

namespace Sys2Proof.Machine

/-- One `SampleStep` for each input sample, in order, all with the same mode operand (45_block.md R180). -/
def sampleSteps (m : Word) (xs : List Word) (s : State) : Result :=
  match xs with
  | [] => .next s
  | x :: rest => andThen (sampleStep x m s) (sampleSteps m rest)

/-- PROCESS_BLOCK (45_block.md R180): the lifecycle check once, one `BlockUpdate`, then every sample. -/
def execProcessBlock (g f m : Word) (xs : List Word) (s : State) : Result :=
  ifLegal (s.life == .active) s (andThen (blockUpdate g f s) (sampleSteps m xs))

end Sys2Proof.Machine
end

