-- ==== Sys2Proof/Machine/Lifecycle.lean ====
section
/-! DEFINITION. ACTIVATE and DEACTIVATE (42_lifecycle.md). -/

namespace Sys2Proof.Machine

/-- ACTIVATE (42_lifecycle.md R137): reset the oscillator and both smoothers. One draw, in `G2L`. -/
def execActivate (g f : Word) (s : State) : Result :=
  ifLegal (s.life != .unbuilt) s <|
    let g1 := sanG g cZero
    let f1 := sanF f freqMin
    let t := g2l (nanAt s.nanDraws) (clampDb g1)
    .next { s with
      phase := .value cZero
      pinc := .value cZero
      gdb := .value g1
      gcur := .value t
      gtgt := .value t
      fact := .value f1
      ftgt := .value f1
      flast := .value f1
      modeSel := .sine
      life := .active
      nanDraws := s.nanDraws + 1 }

/-- DEACTIVATE (42_lifecycle.md R138): `LIFE` alone is written. -/
def execDeactivate (s : State) : Result :=
  ifLegal (s.life == .active) s <| .next { s with life := .inactive }

end Sys2Proof.Machine
end

