-- ==== Sys2Proof/Machine/Wavetable.lean ====
section
/-! DEFINITION. CONSTRUCT and DESTROY (41_wavetable.md). -/

namespace Sys2Proof.Machine

/-- The operands CONSTRUCT accepts: 1 ≤ L ≤ `TABLE_CAP` and a finite sample rate above zero (41_wavetable.md R122, R123). All
three failures have one effect, so their order cannot be told (R123 (d)). -/
def constructOk (len : Count) (sr : Word) : Bool :=
  decide (len.toNat ≠ 0) && isPositiveFinite sr && decide (len.toNat ≤ tableCap)

/-- CONSTRUCT (41_wavetable.md R122, R123). -/
def execConstruct (len : Count) (sr : Word) (s : State) : Result :=
  ifLegal (s.life == .unbuilt) s <|
    if constructOk len sr then
      .next { s with
        mem := buildTables len.toNat len.toNat s.mem
        tlen := .value len
        srate := .value sr
        life := .inactive }
    else .next (raise .cfgErr s)

/-- DESTROY (41_wavetable.md R124): no value in `SRATE`, `TLEN`, every table entry and the eight datapath registers. -/
def execDestroy (s : State) : Result :=
  ifLegal (s.life != .unbuilt) s <|
    .next { s with
      life := .unbuilt
      srate := .noValue
      tlen := .noValue
      mem := Memory.empty
      phase := .noValue
      pinc := .noValue
      gdb := .noValue
      gcur := .noValue
      gtgt := .noValue
      ftgt := .noValue
      flast := .noValue
      fact := .noValue }

end Sys2Proof.Machine
end

