-- ==== Sys2Proof/Machine/Dispatch.lean ====
section
/-! DEFINITION. One arm for each command (30_encoding.md R74). -/

namespace Sys2Proof.Machine

/-- The meaning of a command. -/
def exec (i : Instr) (s : State) : Host.Outcome State Fault Refusal :=
  match i with
  | .construct len sr => Sys2Proof.Machine.execConstruct len sr s
  | .activate g f => Sys2Proof.Machine.execActivate g f s
  | .beginBlock g f => Sys2Proof.Machine.execBeginBlock g f s
  | .processSample x m => Sys2Proof.Machine.execProcessSample x m s
  | .processBlock g f m xs => Sys2Proof.Machine.execProcessBlock g f m xs s
  | .deactivate => Sys2Proof.Machine.execDeactivate s
  | .destroy => Sys2Proof.Machine.execDestroy s

end Sys2Proof.Machine
end

