-- ==== Sys2Proof/WellFormed.lean ====
section
/-! DEFINITION. Which commands have an encoding. Every operand field but one has exactly the width its packet gives it;
the number of samples of a PROCESS_BLOCK must fit the 24-bit field `N` (30_encoding.md R71, R73). -/

namespace Sys2Proof

/-- The command can be encoded: a PROCESS_BLOCK carries at most 2^24 − 1 samples (30_encoding.md R71). -/
def Instr.wellFormed (i : Instr) : Bool :=
  match i with
  | .construct _ _ => true
  | .activate _ _ => true
  | .beginBlock _ _ => true
  | .processSample _ _ => true
  | .processBlock _ _ _ xs => decide (xs.length < 2 ^ 24)
  | .deactivate => true
  | .destroy => true

end Sys2Proof
end

