-- ==== Sys2Proof/Decode.lean ====
section
/-! DEFINITION. The command encoding of 30_encoding.md: header fields (R71), illegal headers (R76), packet lengths (R73), the
decoder over any sequence of words (R77, R78), and after it the encoder of the same table (R74). -/

namespace Sys2Proof

/-- `OP` = h[31:28] (30_encoding.md R71). -/
def opField (h : Word) : Nat := h.toNat / 2 ^ 28

/-- `RSV` = h[27:24] (30_encoding.md R71). -/
def rsvField (h : Word) : Nat := h.toNat / 2 ^ 24 % 2 ^ 4

/-- `N` = h[23:0] (30_encoding.md R71). -/
def nField (h : Word) : Count := h.setWidth 24

/-- Why a header word is illegal: the three cases of 30_encoding.md R76. -/
inductive IllegalHeader where
  /-- R76 (a): `OP` is 0 or 8 to 15. -/
  | reservedOp
  /-- R76 (b): `RSV` is not 0. -/
  | reservedBits
  /-- R76 (c): `N` is not 0 in a command that has no use for it. -/
  | nonzeroN
  deriving DecidableEq, Repr

/-- The first case of 30_encoding.md R76 that makes the header illegal, if one does. -/
def illegalHeader (h : Word) : Option IllegalHeader :=
  if opField h = 0 ∨ 8 ≤ opField h then some .reservedOp
  else if rsvField h ≠ 0 then some .reservedBits
  else if opField h ≠ 1 ∧ opField h ≠ 5 ∧ nField h ≠ 0 then some .nonzeroN
  else none

/-- The number of words of the packet that a header begins, the header included; an illegal header counts 1
(30_encoding.md R73). -/
def packetLength (h : Word) : Nat :=
  if illegalHeader h ≠ none then 1
  else match opField h with
    | 1 => 2
    | 2 => 3
    | 3 => 3
    | 4 => 3
    | 5 => 4 + (nField h).toNat
    | _ => 1

/-- What the words at the head of `CMD` are. -/
inductive Decoded where
  /-- Fewer words have arrived than the packet needs, none at all included: the block waits (30_encoding.md R78). -/
  | incomplete
  /-- The first word is an illegal header; `rest` are the words after it (30_encoding.md R76, R77). -/
  | illegal (why : IllegalHeader) (rest : List Word)
  /-- A whole packet; `rest` are the words after it (30_encoding.md R77). -/
  | packet (i : Instr) (rest : List Word)
  deriving DecidableEq, Repr

/-- The packet of a legal header `h` with the words `ws` after it (30_encoding.md R74, R77, R78). -/
def decodeLegal (h : Word) (ws : List Word) : Decoded :=
  match opField h, ws with
  | 1, sr :: rest => .packet (.construct (nField h) sr) rest
  | 2, g :: f :: rest => .packet (.activate g f) rest
  | 3, g :: f :: rest => .packet (.beginBlock g f) rest
  | 4, x :: m :: rest => .packet (.processSample x m) rest
  | 5, g :: f :: m :: rest =>
    if (nField h).toNat ≤ rest.length then
      .packet (.processBlock g f m (rest.take (nField h).toNat)) (rest.drop (nField h).toNat)
    else .incomplete
  | 6, rest => .packet .deactivate rest
  | 7, rest => .packet .destroy rest
  | _, _ => .incomplete

/-- The decoder, total on any sequence of words (30_encoding.md R77). The `ILL_CMD` halt comes before it
(Machine/Fetch.lean). -/
def decode (ws : List Word) : Decoded :=
  match ws with
  | [] => .incomplete
  | h :: rest =>
    match illegalHeader h with
    | some why => .illegal why rest
    | none => decodeLegal h rest

/-- The header word with operation code `op` and field `n` (30_encoding.md R71, R74). -/
def header (op n : Nat) : Word := BitVec.ofNat 32 (op * 2 ^ 28 + n)

/-- The words of a command's packet (30_encoding.md R74). -/
def encode (i : Instr) : List Word :=
  match i with
  | .construct len sr => [header 1 len.toNat, sr]
  | .activate g f => [header 2 0, g, f]
  | .beginBlock g f => [header 3 0, g, f]
  | .processSample x m => [header 4 0, x, m]
  | .processBlock g f m xs => header 5 xs.length :: g :: f :: m :: xs
  | .deactivate => [header 6 0]
  | .destroy => [header 7 0]

/-- The words of the instruction whose bits are `w`, of which the opcode table gives the lowest `nbits`: bit 0 is the least
significant bit of the header, a later word's bits count on from it, and every bit above `nbits` is 0. There are as
many words as the header calls for. -/
def tableWords (nbits w : Nat) : List Word :=
  (List.range (packetLength (BitVec.ofNat 32 (w % 2 ^ nbits)))).map
    fun k => BitVec.ofNat 32 (w % 2 ^ nbits / 2 ^ (32 * k))

/-- The command the decoder reads from `tableWords nbits w`. -/
def decodeTableWord (nbits w : Nat) : Option Instr :=
  match decode (tableWords nbits w) with
  | .packet i _ => some i
  | .illegal _ _ => none
  | .incomplete => none

end Sys2Proof
end

