-- ==== Sys2Proof/Machine/Fetch.lean ====
section
/-! DEFINITION. What the block does next: the order of 60_exceptions.md R196, before a command's own checks. -/

namespace Sys2Proof.Machine

/-- What the next step is. -/
inductive Fetched where
  /-- No command is executed, and the next state is `s`. -/
  | idle (s : State)
  /-- The command `i` is executed in the state `s`, its packet consumed. -/
  | run (i : Instr) (s : State)
  deriving DecidableEq, Repr

/-- Hardware reset before all else (70_reset_and_hazards.md R215); then, with `ILL_CMD` set, nothing is examined at all; then
the decoder: it waits for a packet to be whole, or consumes an illegal header and raises `ILL_CMD`, or consumes a packet
for execution (30_encoding.md R77, R78, 60_exceptions.md R193, R196). A step that executes nothing is a next state
(notes/assumptions/5.md, DESIGN CHOICE, safe). -/
def fetch (s : State) : Fetched :=
  if s.resetIn then .idle (hardwareReset s)
  else if s.illCmd then .idle s
  else match decode s.cmd with
    | .incomplete => .idle s
    | .illegal _ rest => .idle (raise .illCmd { s with cmd := rest })
    | .packet i rest => .run i { s with cmd := rest }

end Sys2Proof.Machine
end

