-- ==== Sys2Proof/Machine/Step.lean ====
section
/-! DEFINITION. One step: "execute the next complete command packet" (00_scope.md R14). -/

namespace Sys2Proof.Machine

/-- One step of the block (00_scope.md R14, 30_encoding.md R77). -/
def step (s : State) : Host.Outcome State Fault Refusal :=
  match fetch s with
  | .idle s' => .next s'
  | .run i s' => exec i s'

/-- The words of the instruction whose bits are `w` (the lowest `nbits` of them, the rest 0) stand at the head of `CMD`, and the
block is neither halted nor being reset, so that the next step decodes and runs exactly that instruction
(notes/assumptions/8.md, DESIGN CHOICE, safe). -/
def State.withFetchWord (s : State) (nbits w : Nat) : State :=
  s.withCommandWords (tableWords nbits w)

end Sys2Proof.Machine
end

