-- ==== Sys2Proof/Safety.lean ====
section
/-! DEFINITION. What counts as a safe state, in the terms the claims use: the invariants of 10_state.md (R22 to R31, R36, R38) and of
43_smoother.md R157, and the named properties of the configuration functions (40_numerics.md R103, R104). -/

namespace Sys2Proof.Machine

/-! ### Ranges of the registers -/

/-- `PHASE` in [0, 1) with sign bit 0: `0x00000000` to `0x3F7FFFFF` (10_state.md R22). -/
def phaseInRange (w : Word) : Prop := w.toNat ≤ 0x3F7FFFFF

/-- `PINC` finite and not negative, sign bit 0: `0x00000000` to `0x7F7FFFFF` (10_state.md R23). -/
def incInRange (w : Word) : Prop := w.toNat ≤ 0x7F7FFFFF

/-- A gain coefficient in [0, 1] with sign bit 0 (10_state.md R25, R26). -/
def coefInRange (w : Word) : Prop := w.toNat ≤ 0x3F800000

/-- A gain in dB: any word that is no NaN (10_state.md R24). -/
def gainInRange (w : Word) : Prop := isNaN w = false

/-- A frequency: finite and at least `FREQ_MIN` (10_state.md R27, R28). -/
def freqInRange (w : Word) : Prop := isFinite w = true ∧ fle freqMin w = true

/-- A sample rate: finite and above 0 (10_state.md R30). -/
def rateInRange (w : Word) : Prop := isPositiveFinite w = true

/-- A table entry: finite and in [−1, 1] (20_memory.md R50). -/
def waveInRange (w : Word) : Prop := magBits w ≤ 0x3F800000

/-- If a value is held, it satisfies `P`. -/
def Held.Every {α : Type} (h : Held α) (P : α → Prop) : Prop := ∀ v, h = .value v → P v

/-- A value is held, and it satisfies `P`. -/
def Held.Some {α : Type} (h : Held α) (P : α → Prop) : Prop := ∃ v, h = .value v ∧ P v

/-! ### The invariant of every reachable state -/

/-- What each register that holds a value holds (10_state.md R22 to R31). -/
structure RegistersInRange (s : State) : Prop where
  phase : s.phase.Every phaseInRange
  pinc : s.pinc.Every incInRange
  gdb : s.gdb.Every gainInRange
  gcur : s.gcur.Every coefInRange
  gtgt : s.gtgt.Every coefInRange
  ftgt : s.ftgt.Every freqInRange
  flast : s.flast.Every freqInRange
  fact : s.fact.Every freqInRange
  srate : s.srate.Every rateInRange
  tlen : s.tlen.Every fun len => 1 ≤ len.toNat ∧ len.toNat ≤ tableCap

/-- The tables as CONSTRUCT builds them: each entry below `TLEN` from `SINTAB`, each Square entry from its Sine entry, and no
value at or above `TLEN` (20_memory.md R50, 41_wavetable.md R120, R121). -/
structure TablesBuilt (s : State) : Prop where
  built : s.tlen.Some fun len =>
    (∀ i < len.toNat, s.mem.read .sine i = .value (sinTab i len.toNat)) ∧
    (∀ i < len.toNat, s.mem.read .square i = .value (squareEntry (sinTab i len.toNat))) ∧
    (∀ sel i, len.toNat ≤ i → s.mem.read sel i = .noValue)
  rate : s.srate.Some rateInRange

/-- The invariant: which registers hold a value in which `LIFE` state (10_state.md R38, R39), each in its range. -/
structure Invariant (s : State) : Prop where
  memWf : s.mem.wf
  ranges : RegistersInRange s
  unbuilt : s.life = .unbuilt → (∀ r, s.reg r = .noValue) ∧ s.tlen = .noValue ∧ s.mem = Memory.empty
  built : s.life ≠ .unbuilt → TablesBuilt s
  active : s.life = .active → ∀ r, ∃ v, s.reg r = .value v

/-- The two relations of 43_smoother.md R157: `GTGT` = `G2L`(`ClampDb`(`GDB`)), whatever NaN is drawn, and `FTGT` =
`FLAST`. -/
structure TargetsFollow (s : State) : Prop where
  gain : ∀ g t, s.gdb = .value g → s.gtgt = .value t → ∀ nan, g2l nan (clampDb g) = t
  freq : s.ftgt = s.flast

/-- No register and no table entry holds a NaN (40_numerics.md R94). -/
def NoNaN (s : State) : Prop :=
  (∀ r w, s.reg r = .value w → isNaN w = false) ∧
  (∀ sel i w, s.mem.read sel i = .value w → isNaN w = false)

/-! ### The commands as a whole -/

/-- The `LIFE` states in which a command is legal (42_lifecycle.md R136). -/
def legalIn (i : Instr) (l : Life) : Bool :=
  match i, l with
  | .construct _ _, .unbuilt => true
  | .construct _ _, .inactive => false
  | .construct _ _, .active => false
  | .activate _ _, .unbuilt => false
  | .activate _ _, .inactive => true
  | .activate _ _, .active => true
  | .beginBlock _ _, .unbuilt => false
  | .beginBlock _ _, .inactive => false
  | .beginBlock _ _, .active => true
  | .processSample _ _, .unbuilt => false
  | .processSample _ _, .inactive => false
  | .processSample _ _, .active => true
  | .processBlock _ _ _ _, .unbuilt => false
  | .processBlock _ _ _ _, .inactive => false
  | .processBlock _ _ _ _, .active => true
  | .deactivate, .unbuilt => false
  | .deactivate, .inactive => false
  | .deactivate, .active => true
  | .destroy, .unbuilt => false
  | .destroy, .inactive => true
  | .destroy, .active => true

/-- How many words an executed command appends to `OUT` (30_encoding.md R74). -/
def outWords (i : Instr) : Nat :=
  match i with
  | .construct _ _ => 0
  | .activate _ _ => 0
  | .beginBlock _ _ => 0
  | .processSample _ _ => 1
  | .processBlock _ _ _ xs => xs.length
  | .deactivate => 0
  | .destroy => 0

/-- The commands that process (60_exceptions.md R195). -/
def isProcessing (i : Instr) : Bool :=
  match i with
  | .construct _ _ => false
  | .activate _ _ => false
  | .beginBlock _ _ => true
  | .processSample _ _ => true
  | .processBlock _ _ _ _ => true
  | .deactivate => false
  | .destroy => false

/-- The audio samples among a command's operands (30_encoding.md R74). -/
def samplesOf (i : Instr) : List Word :=
  match i with
  | .construct _ _ => []
  | .activate _ _ => []
  | .beginBlock _ _ => []
  | .processSample x _ => [x]
  | .processBlock _ _ _ xs => xs
  | .deactivate => []
  | .destroy => []

/-- Commands executed one after the other (20_memory.md R61). -/
def execAll (is : List Instr) (s : State) : Result :=
  match is with
  | [] => .next s
  | i :: rest => andThen (exec i s) (execAll rest)

/-- Two output words that agree up to the NaN drawn (40_numerics.md R94, 70_reset_and_hazards.md R219). -/
def sameOutput (a b : Word) : Prop := a = b ∨ isNaN a = true ∧ isNaN b = true

/-- Two states that agree up to the NaNs drawn: every field but the draw counter, the output words as `sameOutput` says
(70_reset_and_hazards.md R219). -/
def sameUpToDraws (s t : State) : Prop :=
  { s with out := [], nanDraws := 0 } = { t with out := [], nanDraws := 0 } ∧ List.Forall₂ sameOutput s.out t.out

/-- `cur'` is `cur` moved by one smoothing step toward `tgt`, with whatever NaNs an operation would draw (43_smoother.md R153). -/
def SmoothedToward (cur tgt cur' : Held Word) : Prop :=
  ∃ c v nan, (∀ j, isNaN (nan j) = true) ∧ cur = .value c ∧ tgt = .value v ∧ cur' = .value (smooth nan c v)

/-- The phase `p` advanced n times by the increment `inc` (44_nco_mixer.md R171); none where `Frac` has no value. -/
def advances (nan inc : Word) (n : Nat) (p : Word) : Option Word :=
  match n with
  | 0 => some p
  | n + 1 =>
    match frac (fadd nan p inc) with
    | some q => advances nan inc n q
    | none => none

/-- `phase'` is `phase` advanced n times by `pinc`, and no draw enters it (44_nco_mixer.md R171). -/
def AdvancedBy (n : Nat) (phase pinc phase' : Held Word) : Prop :=
  ∃ p inc q, phase = .value p ∧ pinc = .value inc ∧ phase' = .value q ∧ ∀ nan, advances nan inc n p = some q

/-! ### Named properties of the configuration functions

The required properties but the two tolerances hold of the model's parameters by their construction (Machine/Params.lean).
A claim that rests on a tolerance or on an optional property names it as a hypothesis (40_numerics.md R103, R104). -/

/-- The number a finite word stands for (40_numerics.md R90). -/
def ratValue (w : Word) : ℚ := (value w : ℚ) / 2 ^ 149

/-- Where `POW10` is evaluated: finite, −6 < q ≤ 0 (40_numerics.md R103). -/
def pow10Domain (q : Word) : Prop := isFinite q = true ∧ -6 < ratValue q ∧ ratValue q ≤ 0

/-- `POW10_ONE` (40_numerics.md R103). -/
def Pow10One : Prop := pow10 0x00000000#32 = cOne ∧ pow10 0x80000000#32 = cOne

/-- `POW10_RANGE` (40_numerics.md R103). -/
def Pow10Range : Prop := ∀ q, pow10Domain q → coefInRange (pow10 q)

/-- `POW10_TOL` for the open tolerance `POW_TOL` (40_numerics.md R103). -/
def Pow10Tol (powTol : ℝ) : Prop :=
  ∀ q, pow10Domain q → |(ratValue (pow10 q) : ℝ) - (10 : ℝ) ^ (ratValue q : ℝ)| ≤ powTol

/-- `POW10_MONO`, optional (40_numerics.md R103). -/
def Pow10Mono : Prop :=
  ∀ q₁ q₂, pow10Domain q₁ → pow10Domain q₂ → fle q₁ q₂ = true → fle (pow10 q₁) (pow10 q₂) = true

/-- `SIN_RANGE` (40_numerics.md R104). -/
def SinRange : Prop := ∀ len i, 1 ≤ len → len ≤ tableCap → i < len → waveInRange (sinTab i len)

/-- `SIN_TOL` for the open tolerance `SIN_TOL_VALUE` (40_numerics.md R104). -/
def SinTol (sinTol : ℝ) : Prop :=
  ∀ len i : ℕ, 1 ≤ len → len ≤ tableCap → i < len →
    |(ratValue (sinTab i len) : ℝ) - Real.sin (2 * Real.pi * i / len)| ≤ sinTol

/-- `SIN_ZERO0`, optional (40_numerics.md R104). -/
def SinZero0 : Prop := ∀ len, 1 ≤ len → len ≤ tableCap → sinTab 0 len = cZero

/-- `SIN_QUADRANT`, optional (40_numerics.md R104). -/
def SinQuadrant : Prop :=
  ∀ len i q : ℕ, 1 ≤ len → len ≤ tableCap → i < len → 4 * i = q * len →
    sinTab i len = if q = 1 then cOne else if q = 3 then cMOne else cZero

end Sys2Proof.Machine
end

