-- ==== Sys2Proof/Certificates/Slice0/Obligations.lean ====
section
/-! DEFINITION. The statements for the provers. Each docstring names the rule it formalises; OBLIGATIONS.json holds the rest. A
statement about a result that an operation may draw (40_numerics.md R94) holds for every draw: it quantifies over `nan`. -/

open Sys2Proof Sys2Proof.Machine

/-! ### Encoding -/

/-- Decoding reads back what the encoder writes, whatever words follow (30_encoding.md R71 to R74, R77). -/
def Obligations.DecodeReadsBackEncode : Prop :=
  ∀ (i : Instr) (rest : List Word), i.wellFormed = true → decode (encode i ++ rest) = .packet i rest

/-- A decoded command is well formed and its encoding is the words consumed: each packet has one meaning (30_encoding.md R71 to
R74, R77). -/
def Obligations.EncodeWritesBackDecode : Prop :=
  ∀ (ws rest : List Word) (i : Instr), decode ws = .packet i rest → i.wellFormed = true ∧ encode i ++ rest = ws

/-- 30_encoding.md R76: the illegal headers are exactly the three cases, read off the header's bit fields; such a header raises
`ILL_CMD` and is consumed; any other header never does. -/
def Obligations.HeaderIsIllegalExactlyInThreeCases : Prop :=
  ∀ (s : State) (h : Word) (rest : List Word), s.resetIn = false → s.illCmd = false → s.cmd = h :: rest →
    let op := (h.extractLsb' 28 4).toNat
    let rsv := (h.extractLsb' 24 4).toNat
    let n := (h.extractLsb' 0 24).toNat
    let bad := (op = 0 ∨ 8 ≤ op) ∨ rsv ≠ 0 ∨ ((op = 2 ∨ op = 3 ∨ op = 4 ∨ op = 6 ∨ op = 7) ∧ n ≠ 0)
    (bad → (∃ why, decode s.cmd = .illegal why rest) ∧ step s = .next { s with cmd := rest, illCmd := true }) ∧
    (¬bad → ∀ why ws, decode s.cmd ≠ .illegal why ws)

/-- 30_encoding.md R73: the packet lengths of the seven commands, PROCESS_BLOCK's being 4 + `N` with `N` the header's field; an
illegal header consumes one word; and the length is a function of the header alone. -/
def Obligations.PacketLengthsAreThoseOfTheTable : Prop :=
  ∀ (h : Word) (ws rest : List Word) (i : Instr),
    (decode (h :: ws) = .packet i rest →
      (h :: ws).length = packetLength h + rest.length ∧
      packetLength h =
        match i with
        | .construct _ _ => 2
        | .activate _ _ => 3
        | .beginBlock _ _ => 3
        | .processSample _ _ => 3
        | .processBlock _ _ _ xs => 4 + xs.length
        | .deactivate => 1
        | .destroy => 1) ∧
    (∀ g f m xs, i = .processBlock g f m xs → decode (h :: ws) = .packet i rest →
      xs.length = (h.extractLsb' 0 24).toNat) ∧
    (∀ why, decode (h :: ws) = .illegal why rest → packetLength h = 1 ∧ rest = ws) ∧
    packetLength h ≤ 4 + 16777215

/-- 30_encoding.md R77, R78: while fewer words have arrived than a legal header calls for, nothing has changed; a complete packet never
waits; and words that arrive later leave a complete packet's reading as it is. That a waiting step answers the state unchanged is
the model's choice (notes/assumptions/5.md). -/
def Obligations.IncompletePacketHasNoEffect : Prop :=
  ∀ (s : State) (h : Word) (ws more : List Word), illegalHeader h = none → s.resetIn = false → s.illCmd = false →
    s.cmd = h :: ws →
      (s.cmd.length < packetLength h → step s = .next s) ∧
      (packetLength h ≤ s.cmd.length →
        ∃ i rest, decode s.cmd = .packet i rest ∧ decode (s.cmd ++ more) = .packet i (rest ++ more))

/-- The worked encodings of 30_encoding.md R82, word for word, decode to the commands they stand for. -/
def Obligations.WorkedEncodingsDecode : Prop :=
  decode [0x10000004#32, 0x473B8000#32] = .packet (.construct 4#24 0x473B8000#32) [] ∧
  decode [0x20000000#32, 0x00000000#32, 0x40A00000#32] = .packet (.activate 0x00000000#32 0x40A00000#32) [] ∧
  decode [0x30000000#32, 0xC1A00000#32, 0x40000000#32] = .packet (.beginBlock 0xC1A00000#32 0x40000000#32) [] ∧
  decode [0x40000000#32, 0x3F800000#32, 0x00000000#32] = .packet (.processSample 0x3F800000#32 0x00000000#32) [] ∧
  decode [0x50000002#32, 0x00000000#32, 0x40A00000#32, 0x00000000#32, 0x3F800000#32, 0xBF000000#32] =
    .packet (.processBlock 0x00000000#32 0x40A00000#32 0x00000000#32 [0x3F800000#32, 0xBF000000#32]) [] ∧
  decode [0x60000000#32] = .packet .deactivate [] ∧
  decode [0x70000000#32] = .packet .destroy []

/-! ### The step -/

/-- A step runs the decoded command, its packet consumed, when the block is neither halted nor being reset (30_encoding.md
R77). -/
def Obligations.StepRunsTheDecodedCommand : Prop :=
  ∀ (s : State) (i : Instr) (rest : List Word), s.resetIn = false → s.illCmd = false → decode s.cmd = .packet i rest →
    step s = exec i { s with cmd := rest }

/-- 60_exceptions.md R193: an illegal header sets `ILL_CMD`, is consumed and changes nothing else; from then on no word is decoded,
whatever the host sends, until hardware reset (70_reset_and_hazards.md R215), which ends the halt. That a halted step answers the
state unchanged is the model's choice (notes/assumptions/5.md), and so is that the next step takes an asserted reset
(notes/assumptions/4.md). -/
def Obligations.IllegalCommandHaltsUntilReset : Prop :=
  ∀ (s : State) (why : IllegalHeader) (rest : List Word), s.resetIn = false → s.illCmd = false →
    decode s.cmd = .illegal why rest →
      step s = .next { s with cmd := rest, illCmd := true } ∧
      { s with cmd := rest, illCmd := true }.status = s.status ||| (1#32 <<< causeCode .illCmd) ∧ causeCode .illCmd = 6 ∧
      (∀ (n : Nat) (ws : List Word),
        Host.Core.run core n ({ s with cmd := rest, illCmd := true }.receive ws) =
          .next ({ s with cmd := rest, illCmd := true }.receive ws)) ∧
      (∃ t, step { s with cmd := rest, illCmd := true }.assertReset = .next t ∧ t.illCmd = false)

/-- Hardware reset (70_reset_and_hazards.md R215, 10_state.md R39): from any state, every piece of the block's state is as after
reset, the unconsumed words are discarded, and the words on `OUT` stay. That a reset is taken between commands, and that the
step that takes it releases the input, are the model's choices (notes/assumptions/4.md). -/
def Obligations.HardwareResetRestoresTheResetState : Prop :=
  ∀ s : State, s.resetIn = true →
    ∃ t, step s = .next t ∧ t.life = .unbuilt ∧ t.modeSel = .sine ∧ (∀ f, t.flag f = false) ∧
      (∀ r, t.reg r = .noValue) ∧ t.tlen = .noValue ∧ (∀ sel idx, t.mem.read sel idx = .noValue) ∧
      t.cmd = [] ∧ t.status = 0x00000000#32 ∧ t.out = s.out ∧ t.resetIn = false

/-! ### Faults, flags and STATUS -/

/-- 10_state.md R34: `STATUS` bit by bit, and its value at reset. -/
def Obligations.StatusShowsLifeModeAndFlags : Prop :=
  State.reset.status = 0x00000000#32 ∧
  ∀ s : State,
    (s.status.extractLsb' 0 2).toNat = (match s.life with | .unbuilt => 0 | .inactive => 1 | .active => 2) ∧
    s.status.getLsbD 2 = decide (s.modeSel = .square) ∧
    s.status.getLsbD 3 = false ∧
    s.status.getLsbD 4 = s.cfgErr ∧
    s.status.getLsbD 5 = s.seqErr ∧
    s.status.getLsbD 6 = s.illCmd ∧
    ∀ k, 7 ≤ k → s.status.getLsbD k = false

/-- 42_lifecycle.md R136, R141: a command in a `LIFE` state where it is not legal sets `SEQ_ERR` and has no other effect, its
whole packet consumed; where it is legal it leaves `SEQ_ERR` alone. -/
def Obligations.MisplacedCommandOnlySetsSeqErr : Prop :=
  ∀ (s : State) (i : Instr) (rest : List Word), s.resetIn = false → s.illCmd = false → decode s.cmd = .packet i rest →
    (legalIn i s.life = false → step s = .next { s with cmd := rest, seqErr := true }) ∧
    (legalIn i s.life = true → ∀ t, step s = .next t → t.seqErr = s.seqErr)

/-- 60_exceptions.md R191: exactly a CONSTRUCT in `UNBUILT` with a bad length or a bad sample rate sets `CFG_ERR`, and then nothing
else changes. -/
def Obligations.BadConstructOnlySetsCfgErr : Prop :=
  (∀ (s : State) (len : Count) (sr : Word), s.life = .unbuilt →
    (len.toNat = 0 ∨ tableCap < len.toNat ∨ isFinite sr = false ∨ fle sr cZero = true) →
      exec (.construct len sr) s = .next { s with cfgErr := true }) ∧
  (∀ (s t : State) (i : Instr), exec i s = .next t → t.cfgErr ≠ s.cfgErr →
    s.life = .unbuilt ∧ t = { s with cfgErr := true } ∧
      ∃ len sr, i = .construct len sr ∧
        (len.toNat = 0 ∨ tableCap < len.toNat ∨ isFinite sr = false ∨ fle sr cZero = true))

/-- A flag that is set stays set through every step but hardware reset, and one step sets at most one flag (60_exceptions.md R196,
R198, 10_state.md R33). -/
def Obligations.FlagsAreStickyAndRaisedSingly : Prop :=
  ∀ s t : State, s.resetIn = false → step s = .next t →
    (∀ f, s.flag f = true → t.flag f = true) ∧
    (∀ f g, s.flag f = false → t.flag f = true → s.flag g = false → t.flag g = true → f = g)

/-- No command reads `CFG_ERR` or `SEQ_ERR` (10_state.md R33, 60_exceptions.md R198): with any other values of them a command makes
the same changes everywhere else. -/
def Obligations.NoCommandReadsCfgErrOrSeqErr : Prop :=
  ∀ (s t : State) (i : Instr) (c q : Bool), exec i s = .next t →
    ∃ t', exec i { s with cfgErr := c, seqErr := q } = .next t' ∧
      { t' with cfgErr := false, seqErr := false } = { t with cfgErr := false, seqErr := false }

/-- `LIFE` moves along the edges of 42_lifecycle.md R135 and no others. -/
def Obligations.LifeMovesOnlyAlongItsEdges : Prop :=
  ∀ (s t : State) (i : Instr), exec i s = .next t → t.life ≠ s.life →
    (s.life = .unbuilt ∧ t.life = .inactive ∧ ∃ len sr, i = .construct len sr) ∨
    (s.life = .inactive ∧ t.life = .active ∧ ∃ g f, i = .activate g f) ∨
    (s.life = .active ∧ t.life = .inactive ∧ i = .deactivate) ∨
    (s.life ≠ .unbuilt ∧ t.life = .unbuilt ∧ i = .destroy)

/-- A command appends its number of words to `OUT` when it is legal and none when it is refused; what was appended before stays
(20_memory.md R60, 30_encoding.md R79). -/
def Obligations.OutGrowsByTheCommandsWords : Prop :=
  ∀ (s t : State) (i : Instr), exec i s = .next t →
    ∃ ys, t.out = s.out ++ ys ∧ ys.length = if legalIn i s.life then outWords i else 0

/-! ### CONSTRUCT and DESTROY -/

/-- 41_wavetable.md R122: CONSTRUCT in `UNBUILT` with a valid length and sample rate fills the entries below L of both tables, stores
`TLEN` and `SRATE`, goes to `INACTIVE`, and changes nothing else. -/
def Obligations.ConstructBuildsBothTables : Prop :=
  ∀ (s : State) (len : Count) (sr : Word),
    encode (.construct len sr) = [BitVec.ofNat 32 (0x10000000 + len.toNat), sr] ∧
    (s.life ≠ .unbuilt → exec (.construct len sr) s = .next { s with seqErr := true }) ∧
    (s.life = .unbuilt → 1 ≤ len.toNat → len.toNat ≤ tableCap → isFinite sr = true → flt cZero sr = true →
      ∃ m, exec (.construct len sr) s =
          .next { s with mem := m, tlen := .value len, srate := .value sr, life := .inactive } ∧
        (∀ i, i < len.toNat → m.read .sine i = .value (sinTab i len.toNat)) ∧
        (∀ i, i < len.toNat →
          m.read .square i = .value (if flt cZero (sinTab i len.toNat) = true then cOne else cMOne)) ∧
        (∀ sel i, len.toNat ≤ i → m.read sel i = s.mem.read sel i))

/-- 41_wavetable.md R124: DESTROY leaves no value in `SRATE`, `TLEN`, every table entry and every datapath register, goes to `UNBUILT`,
and changes nothing else. -/
def Obligations.DestroyLeavesNoValue : Prop :=
  ∀ s : State,
    encode .destroy = [0x70000000#32] ∧
    (s.life = .unbuilt → exec .destroy s = .next { s with seqErr := true }) ∧
    (s.life ≠ .unbuilt →
      ∃ t, exec .destroy s = .next t ∧ t.life = .unbuilt ∧ (∀ r, t.reg r = .noValue) ∧ t.tlen = .noValue ∧
        (∀ sel idx, t.mem.read sel idx = .noValue) ∧ t.modeSel = s.modeSel ∧ (∀ f, t.flag f = s.flag f) ∧
        t.cmd = s.cmd ∧ t.out = s.out ∧ t.resetIn = s.resetIn ∧ t.nanDraws = s.nanDraws)

/-- 41_wavetable.md R125: what CONSTRUCT builds depends on the length alone, whatever the entries below it held before; and from a
built block to a built block no step changes a table entry, `TLEN` or `SRATE`. -/
def Obligations.TablesAreAPureFunctionAndImmutable : Prop :=
  (∀ (s s' t t' : State) (len : Count) (sr sr' : Word), s.life = .unbuilt → s'.life = .unbuilt →
    exec (.construct len sr) s = .next t → exec (.construct len sr') s' = .next t' →
    t.life = .inactive → t'.life = .inactive →
    ∀ sel i, i < len.toNat → t.mem.read sel i = t'.mem.read sel i) ∧
  (∀ (s t : State), step s = .next t → s.life ≠ .unbuilt → t.life ≠ .unbuilt →
    t.mem = s.mem ∧ t.tlen = s.tlen ∧ t.srate = s.srate)

/-- 41_wavetable.md R121: in a built block every Square entry is +1.0 or −1.0, and +1.0 exactly when the stored Sine entry is
strictly greater than zero. -/
def Obligations.SquareFollowsTheStoredSine : Prop :=
  ∀ (s : State) (len : Count) (i : Nat), Invariant s → s.life ≠ .unbuilt → s.tlen = .value len → i < len.toNat →
    ∃ a q, s.mem.read .sine i = .value a ∧ s.mem.read .square i = .value q ∧
      (q = 0x3F800000#32 ∨ q = 0xBF800000#32) ∧ (q = 0x3F800000#32 ↔ 0 < ratValue a)

/-- The canonical form makes the memories what their reads say they are: two memories in it that read alike are the same data, and
so the order in which CONSTRUCT fills two entries cannot be observed (20_memory.md R50, 41_wavetable.md R122; the form is the
model's choice, notes/assumptions/6.md). -/
def Obligations.MemoryIsWhatItsReadsSay : Prop :=
  (∀ m m' : Memory, m.wf → m'.wf → (∀ sel idx, m.read sel idx = m'.read sel idx) → m = m') ∧
  (∀ (m : Memory) (sel sel' : Wave) (i i' : Nat) (v v' : Word), m.wf → (sel ≠ sel' ∨ i ≠ i') →
    (m.write sel i v).write sel' i' v' = (m.write sel' i' v').write sel i v)

/-! ### ACTIVATE and DEACTIVATE -/

/-- 42_lifecycle.md R137: ACTIVATE writes its nine registers and `LIFE`, and nothing else; no draw enters a register (`nanDraws` is
the model's own counter, notes/assumptions/3.md). -/
def Obligations.ActivateResetsOscillatorAndSmoothers : Prop :=
  ∀ (s : State) (g f nan : Word),
    encode (.activate g f) = [0x20000000#32, g, f] ∧
    (s.life = .unbuilt → exec (.activate g f) s = .next { s with seqErr := true }) ∧
    (s.life ≠ .unbuilt →
      let g1 := if isNaN g then 0x00000000#32 else g
      let f1 := if isFinite f && fle freqMin f then f else freqMin
      let t := g2l nan (clampDb g1)
      ∃ k, exec (.activate g f) s =
        .next { s with
          phase := .value 0x00000000#32, pinc := .value 0x00000000#32
          gdb := .value g1, gcur := .value t, gtgt := .value t
          fact := .value f1, ftgt := .value f1, flast := .value f1
          modeSel := .sine, life := .active, nanDraws := k })

/-- 42_lifecycle.md R139 (a): what ACTIVATE leaves in the registers it writes depends on nothing that went before. -/
def Obligations.ActivateForgetsTheHistory : Prop :=
  ∀ (s s' : State) (g f : Word), s.life ≠ .unbuilt → s'.life ≠ .unbuilt →
    ∃ t t', exec (.activate g f) s = .next t ∧ exec (.activate g f) s' = .next t' ∧
      (∀ r, r ≠ .srate → t.reg r = t'.reg r) ∧ t.modeSel = t'.modeSel ∧ t.life = t'.life

/-- 42_lifecycle.md R139 (b), (c): the corner operands. A gain of either zero or above 0 dB, +Inf included, and a NaN give the
coefficient 1.0; a gain at or below −120 dB, −Inf included, gives +0.0; a frequency that is not finite or is below
`FREQ_MIN` reads as `FREQ_MIN`. -/
def Obligations.ActivateCornerOperands : Prop :=
  ∀ (s t : State) (g f : Word), s.life ≠ .unbuilt → exec (.activate g f) s = .next t →
    (isNaN g = true → t.gdb = .value 0x00000000#32 ∧ t.gcur = .value 0x3F800000#32) ∧
    (fle 0x00000000#32 g = true → t.gdb = .value g ∧ t.gcur = .value 0x3F800000#32) ∧
    (fle g 0xC2F00000#32 = true → t.gdb = .value g ∧ t.gcur = .value 0x00000000#32) ∧
    t.gtgt = t.gcur ∧
    (isFinite f = false ∨ flt f freqMin = true → t.fact = .value freqMin ∧ t.ftgt = .value freqMin ∧ t.flast = .value freqMin)

/-- 42_lifecycle.md R139 (d), (e): right after ACTIVATE, a BEGIN_BLOCK with the same operands changes no target and leaves `GCUR`
and `FACT` bit for bit unchanged; a PROCESS_SAMPLE reads entry 0 and leaves `PHASE` at +0.0. -/
def Obligations.FirstCommandsAfterActivate : Prop :=
  ∀ (s t : State) (g f : Word), Invariant s → s.life ≠ .unbuilt → exec (.activate g f) s = .next t →
    (∃ u, exec (.beginBlock g f) t = .next u ∧ u.gtgt = t.gtgt ∧ u.ftgt = t.ftgt ∧ u.gcur = t.gcur ∧ u.fact = t.fact) ∧
    (∀ x m, ∃ u w y, exec (.processSample x m) t = .next u ∧ t.mem.read (modeSel m) 0 = .value w ∧
      u.phase = .value 0x00000000#32 ∧ u.out = t.out ++ [y] ∧
      ∀ nan : Nat → Word, (∀ j, isNaN (nan j) = true) → ∀ c, t.gcur = .value c → sameOutput y (mixSample nan c w x))

/-- 42_lifecycle.md R138: DEACTIVATE writes `LIFE` and nothing else. -/
def Obligations.DeactivateOnlyLeavesActive : Prop :=
  ∀ s : State,
    encode .deactivate = [0x60000000#32] ∧
    (s.life ≠ .active → exec .deactivate s = .next { s with seqErr := true }) ∧
    (s.life = .active → exec .deactivate s = .next { s with life := .inactive })

/-! ### BEGIN_BLOCK -/

/-- 43_smoother.md R150: in `ACTIVE`, with every register it reads in its range, BEGIN_BLOCK takes the four steps and changes nothing
else. No draw enters a register: the equation holds for every `nan`. (`nanDraws` is the model's own counter,
notes/assumptions/3.md.) -/
def Obligations.BeginBlockTakesItsFourSteps : Prop :=
  ∀ (s : State) (g f : Word),
    encode (.beginBlock g f) = [0x30000000#32, g, f] ∧
    (s.life ≠ .active → exec (.beginBlock g f) s = .next { s with seqErr := true }) ∧
    (∀ gdb gcur gtgt ftgt flast fact sr, s.life = .active →
      s.gdb = .value gdb → s.gcur = .value gcur → s.gtgt = .value gtgt → s.ftgt = .value ftgt →
      s.flast = .value flast → s.fact = .value fact → s.srate = .value sr →
      gainInRange gdb → coefInRange gcur → coefInRange gtgt → freqInRange ftgt → freqInRange flast →
      freqInRange fact → rateInRange sr →
      ∀ nan : Nat → Word,
        let g1 := sanG g gdb
        let gt := if fne g1 gdb then g2l (nan 0) (clampDb g1) else gtgt
        let f1 := sanF f flast
        let ft := if fne f1 flast then f1 else ftgt
        let fa := fadd (nan 2) fact (fmul (nan 1) cSmooth (fsub (nan 0) ft fact))
        let inc := fdiv (nan 0) fa sr
        ∃ k, exec (.beginBlock g f) s =
          .next { s with
            gdb := .value g1, gtgt := .value gt, flast := .value f1, ftgt := .value ft
            gcur := .value (fadd (nan 2) gcur (fmul (nan 1) cSmooth (fsub (nan 0) gt gcur)))
            fact := .value fa
            pinc := if isFinite inc then .value inc else s.pinc
            nanDraws := k })

/-- 43_smoother.md R157: `GTGT` = `G2L`(`ClampDb`(`GDB`)) and `FTGT` = `FLAST` are kept by every step, and so the edge-triggered
latching writes exactly what an unconditional one would. -/
def Obligations.TargetsFollowTheStoredOperands : Prop :=
  (∀ s t : State, Invariant s → TargetsFollow s → step s = .next t → TargetsFollow t) ∧
  (∀ (s t : State) (g f gdb flast nan : Word), Invariant s → TargetsFollow s → s.life = .active →
    s.gdb = .value gdb → s.flast = .value flast → exec (.beginBlock g f) s = .next t →
      t.gtgt = .value (g2l nan (clampDb (sanG g gdb))) ∧ t.ftgt = .value (sanF f flast))

/-- 43_smoother.md R156 (c), (d): one per-block update moves `GCUR` and `FACT` toward the targets it leaves and never past them, and
a smoother that sits on its target does not move. -/
def Obligations.BlockUpdateApproachesItsTargets : Prop :=
  ∀ (s t : State) (g f : Word), Invariant s → s.life = .active → exec (.beginBlock g f) s = .next t →
    ∃ c c' ct a a' at', s.gcur = .value c ∧ t.gcur = .value c' ∧ t.gtgt = .value ct ∧
      s.fact = .value a ∧ t.fact = .value a' ∧ t.ftgt = .value at' ∧
      (fle c ct = true → fle c c' = true ∧ fle c' ct = true) ∧
      (fle ct c = true → fle ct c' = true ∧ fle c' c = true) ∧
      (fle a at' = true → fle a a' = true ∧ fle a' at' = true) ∧
      (fle at' a = true → fle at' a' = true ∧ fle a' a = true) ∧
      (c = ct → c' = c) ∧ (a = at' → a' = a)

/-! ### PROCESS_SAMPLE -/

/-- 44_nco_mixer.md R165: in `ACTIVE`, with the registers it reads in their ranges and the selected table filled, PROCESS_SAMPLE reads
the entry at the floor of the rounded product, appends the mixed sample, advances the phase, and changes nothing else
(`nanDraws` is the model's own counter, notes/assumptions/3.md). -/
def Obligations.ProcessSampleReadsMixesAdvances : Prop :=
  ∀ (s : State) (x m : Word),
    encode (.processSample x m) = [0x40000000#32, x, m] ∧
    (s.life ≠ .active → exec (.processSample x m) s = .next { s with seqErr := true }) ∧
    (∀ phase pinc coef (len : Count), s.life = .active →
      s.phase = .value phase → s.pinc = .value pinc → s.gcur = .value coef → s.tlen = .value len →
      phaseInRange phase → incInRange pinc → coefInRange coef → 1 ≤ len.toNat →
      (∀ i, i < len.toNat → ∃ w, s.mem.read (modeSel m) i = .value w ∧ waveInRange w) →
      ∀ nan : Nat → Word, (∀ j, isNaN (nan j) = true) →
        ∃ idx w y next k,
          toIndex (fmul (nan 0) phase (fromNat len.toNat)) = some idx ∧ idx < len.toNat ∧
          s.mem.read (modeSel m) idx = .value w ∧
          frac (fadd (nan 0) phase pinc) = some next ∧
          (let a := fmul (nan 1) cHalf (fadd (nan 0) cOne coef)
           let b := fmul (nan 3) cHalf (fsub (nan 2) cOne coef)
           sameOutput y (fmul (nan 6) x (fadd (nan 5) a (fmul (nan 4) b w)))) ∧
          exec (.processSample x m) s =
            .next { s with modeSel := modeSel m, out := s.out ++ [y], phase := .value next, nanDraws := k })

/-- 44_nco_mixer.md R167: with `PHASE` below 1 and any table length, the floor of the rounded product is an index of the table, with
no clamp and no modulo. -/
def Obligations.TableIndexIsAlwaysInBounds : Prop :=
  ∀ (phase nan : Word) (len : Nat), phaseInRange phase → 1 ≤ len → len < 2 ^ 24 →
    ∃ idx, toIndex (fmul nan phase (fromNat len)) = some idx ∧ idx < len

/-- 44_nco_mixer.md R171: the phase advance stays in [0, 1), is the sum itself below 1, and is +0.0 from 2^23 on; an increment of +0.0
keeps the phase. -/
def Obligations.PhaseAdvanceWrapsIntoRange : Prop :=
  ∀ phase pinc nan : Word, phaseInRange phase → incInRange pinc →
    isFinite (fadd nan phase pinc) = true ∧
    (∃ next, frac (fadd nan phase pinc) = some next ∧ phaseInRange next ∧
      (flt (fadd nan phase pinc) cOne = true → next = fadd nan phase pinc) ∧
      (fle 0x4B000000#32 (fadd nan phase pinc) = true → next = 0x00000000#32) ∧
      (pinc = 0x00000000#32 → next = phase))

/-- 44_nco_mixer.md R172: the exact cases of the mix. -/
def Obligations.MixHasItsExactCases : Prop :=
  ∀ (nan : Nat → Word) (coef w x : Word), coefInRange coef → waveInRange w →
    (coef = 0x3F800000#32 →
      mixFactor nan coef w = 0x3F800000#32 ∧ (isNaN x = false → mixSample nan coef w x = x) ∧
      ((∀ j, isNaN (nan j) = true) → isNaN x = true → isNaN (mixSample nan coef w x) = true)) ∧
    (coef = 0x00000000#32 → w = 0xBF800000#32 →
      mixFactor nan coef w = 0x00000000#32 ∧
      (isFinite x = true → mixSample nan coef w x = if signBit x then 0x80000000#32 else 0x00000000#32)) ∧
    (w = 0x3F800000#32 →
      mixFactor nan coef w = 0x3F800000#32 ∧ (isNaN x = false → mixSample nan coef w x = x)) ∧
    (w = 0xBF800000#32 →
      mixFactor nan coef w =
        fadd (nan 5) (fmul (nan 1) cHalf (fadd (nan 0) cOne coef))
          (negate (fmul (nan 3) cHalf (fsub (nan 2) cOne coef))) ∧
      (coef = 0x3DCCCCCD#32 → mixFactor nan coef w = 0x3DCCCCD0#32) ∧
      (coef = 0x3F68F5C3#32 → mixFactor nan coef w = 0x3F68F5C4#32)) ∧
    (magBits w = 0 → mixFactor nan coef w = fmul (nan 1) cHalf (fadd (nan 0) cOne coef))

/-- 44_nco_mixer.md R175: the ranges of a, b, c and of the mix factor, which is +0.0 exactly when w = −1.0 and coef ≤ 2^-25. -/
def Obligations.MixFactorStaysInUnitRange : Prop :=
  ∀ (nan : Nat → Word) (coef w : Word), coefInRange coef → waveInRange w →
    let a := fmul (nan 1) cHalf (fadd (nan 0) cOne coef)
    let b := fmul (nan 3) cHalf (fsub (nan 2) cOne coef)
    let c := fmul (nan 4) b w
    (fle cHalf a = true ∧ fle a cOne = true) ∧
    (fle cZero b = true ∧ fle b cHalf = true) ∧
    magnitude c ≤ magnitude b ∧
    (mixFactor nan coef w).toNat ≤ 0x3F800000 ∧
    (mixFactor nan coef w = 0x00000000#32 ↔ w = 0xBF800000#32 ∧ coef.toNat ≤ 0x33000000)

/-- 44_nco_mixer.md R173: what becomes of a NaN, an infinite, a zero and a finite input sample. -/
def Obligations.SpecialSamplesMixAsStated : Prop :=
  ∀ (nan : Nat → Word) (coef w x : Word), coefInRange coef → waveInRange w → (∀ j, isNaN (nan j) = true) →
    (isNaN x = true → isNaN (mixSample nan coef w x) = true) ∧
    (isInf x = true → flt cZero (mixFactor nan coef w) = true → mixSample nan coef w x = x) ∧
    (isInf x = true → mixFactor nan coef w = 0x00000000#32 → isNaN (mixSample nan coef w x) = true) ∧
    (magBits x = 0 → mixSample nan coef w x = x) ∧
    (isFinite x = true → isFinite (mixSample nan coef w x) = true ∧
      signBit (mixSample nan coef w x) = signBit x ∧ magnitude (mixSample nan coef w x) ≤ magnitude x)

/-- 44_nco_mixer.md R174: the audio path is memoryless. Two blocks of samples of one length leave states that differ in `OUT` alone;
the model's own draw counter agrees too, because it advances by a fixed number for each sample (the model's choice,
notes/assumptions/3.md). -/
def Obligations.AudioNeverEntersTheState : Prop :=
  ∀ (s t t' : State) (g f m : Word) (xs xs' : List Word), xs.length = xs'.length →
    exec (.processBlock g f m xs) s = .next t → exec (.processBlock g f m xs') s = .next t' →
      { t with out := [] } = { t' with out := [] } ∧ t.out.length = t'.out.length

/-! ### PROCESS_BLOCK -/

/-- 45_block.md R180: in a safe `ACTIVE` state PROCESS_BLOCK makes one per-block update and then every sample, with one coefficient
and one increment throughout, and appends exactly n words. -/
def Obligations.ProcessBlockUpdatesThenProcessesEverySample : Prop :=
  ∀ (s : State) (g f m : Word) (xs : List Word),
    (xs.length < 2 ^ 24 →
      encode (.processBlock g f m xs) = BitVec.ofNat 32 (0x50000000 + xs.length) :: g :: f :: m :: xs) ∧
    (s.life ≠ .active → exec (.processBlock g f m xs) s = .next { s with seqErr := true }) ∧
    (Invariant s → s.life = .active →
      ∃ u t ys, exec (.beginBlock g f) s = .next u ∧ execAll (xs.map fun x => .processSample x m) u = .next t ∧
        exec (.processBlock g f m xs) s = .next t ∧ t.out = s.out ++ ys ∧ ys.length = xs.length ∧
        t.gcur = u.gcur ∧ t.pinc = u.pinc ∧ t.gdb = u.gdb ∧ t.gtgt = u.gtgt ∧ t.ftgt = u.ftgt ∧ t.flast = u.flast ∧
        t.fact = u.fact ∧ t.srate = s.srate ∧ t.tlen = s.tlen ∧ t.mem = s.mem ∧ t.life = s.life ∧
        (∀ fl, t.flag fl = s.flag fl) ∧ t.cmd = s.cmd ∧ t.resetIn = s.resetIn)

/-- 45_block.md R181: PROCESS_BLOCK with n = 0 is exactly BEGIN_BLOCK: a packet of four words, nothing appended, `PHASE` and
`MODE_SEL` unchanged. -/
def Obligations.EmptyBlockIsBeginBlock : Prop :=
  ∀ (s : State) (g f m : Word),
    (encode (.processBlock g f m [])).length = 4 ∧
    exec (.processBlock g f m []) s = exec (.beginBlock g f) s ∧
    ∀ t, exec (.processBlock g f m []) s = .next t → t.out = s.out ∧ t.phase = s.phase ∧ t.modeSel = s.modeSel

/-- 45_block.md R182: PROCESS_BLOCK is BEGIN_BLOCK followed by one PROCESS_SAMPLE for each sample, in every state; outside `ACTIVE`
both forms set `SEQ_ERR` and do nothing else. (The model's own draw counter agrees too, notes/assumptions/3.md.) -/
def Obligations.ProcessBlockEqualsItsParts : Prop :=
  ∀ (s : State) (g f m : Word) (xs : List Word),
    exec (.processBlock g f m xs) s = execAll (.beginBlock g f :: xs.map fun x => .processSample x m) s ∧
    (s.life ≠ .active →
      execAll (.beginBlock g f :: xs.map fun x => .processSample x m) s = .next { s with seqErr := true })

/-- 45_block.md R183: with both smoothers on their targets and the operands held, a block cannot be told from its two parts, up to
the NaNs drawn. -/
def Obligations.SplittingIsInvisibleOnTarget : Prop :=
  ∀ (s t : State) (g f m : Word) (xs ys : List Word), Invariant s → s.life = .active →
    s.gdb = .value g → s.flast = .value f → s.gcur = s.gtgt → s.fact = s.ftgt →
    exec (.processBlock g f m (xs ++ ys)) s = .next t →
      ∃ u, execAll [.processBlock g f m xs, .processBlock g f m ys] s = .next u ∧ sameUpToDraws t u

/-! ### Numbers -/

/-- 40_numerics.md R91: of all magnitude patterns, `roundMag n d` is a nearest to the exact quotient; of two equally near it is the
one with an even last fraction bit; and exactly from half a unit below 2^128 on it is infinity. -/
def Obligations.RoundingIsToNearestEven : Prop :=
  ∀ n d : Nat, 0 < d →
    (roundMag n d = infBits ↔ (2 ^ 25 - 1) * 2 ^ 253 * d ≤ 2 * n) ∧
    (roundMag n d < infBits → ∀ p, p < infBits →
      let err := fun q => ((patternMag q * d : ℕ) : ℤ) - n
      |err (roundMag n d)| ≤ |err p| ∧ (|err (roundMag n d)| = |err p| → p ≠ roundMag n d → roundMag n d % 2 = 0))

/-- 40_numerics.md R91, R92: the sum and the product of finite operands are the exact results rounded once, with the sign of the exact
result; a zero sum is +0.0 unless both operands have sign bit 1, a product has the exclusive-or of the signs; and the operands
whose result is a NaN. (The difference and the quotient: DifferenceAndQuotientRoundTheExactResult.) -/
def Obligations.SumAndProductRoundTheExactResult : Prop :=
  ∀ a b nan : Word,
    (isFinite a = true → isFinite b = true →
      (magBits (fadd nan a b) = roundMag (value a + value b).natAbs 1 ∧
        (value a + value b ≠ 0 → (signBit (fadd nan a b) = true ↔ value a + value b < 0)) ∧
        (value a + value b = 0 → (signBit (fadd nan a b) = true ↔ signBit a = true ∧ signBit b = true))) ∧
      (magBits (fmul nan a b) = roundMag (value a * value b).natAbs (2 ^ 149) ∧
        (signBit (fmul nan a b) = true ↔ signBit a ≠ signBit b))) ∧
    (isNaN a = true ∨ isNaN b = true → fadd nan a b = nan ∧ fmul nan a b = nan) ∧
    (isInf a = true → isInf b = true → signBit a ≠ signBit b → fadd nan a b = nan) ∧
    (isInf a = true → magBits b = 0 → fmul nan a b = nan ∧ fmul nan b a = nan)

/-- 40_numerics.md R99: `Frac` of a finite number that is not negative is exact, in [0, 1), with sign bit 0; the number itself when
it is below 1 with sign bit 0; and it has no value elsewhere. -/
def Obligations.FracIsExactAndBelowOne : Prop :=
  ∀ v : Word,
    (isFinite v = true → 0 ≤ value v →
      ∃ r, frac v = some r ∧ signBit r = false ∧ isFinite r = true ∧
        ratValue r = ratValue v - ⌊ratValue v⌋ ∧ 0 ≤ ratValue r ∧ ratValue r < 1 ∧
        (ratValue v < 1 → signBit v = false → r = v) ∧
        (8388608 ≤ ratValue v → r = 0x00000000#32)) ∧
    (isFinite v = false ∨ value v < 0 → frac v = none)

/-- 40_numerics.md R98: `FromNat` is exact up to 2^24, and `ToIndex` is the floor of a finite number that is not negative and has no
value elsewhere. -/
def Obligations.IntegerConversionsAreExact : Prop :=
  (∀ n : Nat, n ≤ 2 ^ 24 → isFinite (fromNat n) = true ∧ ratValue (fromNat n) = n) ∧
  (∀ v : Word, isFinite v = true → 0 ≤ value v → toIndex v = some ⌊ratValue v⌋₊) ∧
  (∀ v : Word, isFinite v = false ∨ value v < 0 → toIndex v = none)

/-- 40_numerics.md R110 (a), (b), (d): one smoothing step of finite words with a finite difference never passes its target, never
moves away from it, stays put on it, and keeps sign bit 0. -/
def Obligations.SmoothNeverOvershoots : Prop :=
  ∀ (nan : Nat → Word) (cur tgt : Word), isFinite cur = true → isFinite tgt = true →
    isFinite (fsub (nan 0) tgt cur) = true →
      (fle cur tgt = true → fle cur (smooth nan cur tgt) = true ∧ fle (smooth nan cur tgt) tgt = true) ∧
      (fle tgt cur = true → fle tgt (smooth nan cur tgt) = true ∧ fle (smooth nan cur tgt) cur = true) ∧
      (cur = tgt → signBit tgt = false → smooth nan cur tgt = tgt) ∧
      (signBit cur = false → signBit tgt = false → signBit (smooth nan cur tgt) = false)

/-- 40_numerics.md R101: the clamp of a gain that is no NaN, and that the sanitiser before it removes every NaN. -/
def Obligations.ClampDbKeepsItsRange : Prop :=
  (∀ g : Word, isNaN g = false →
    (flt g 0xC2F00000#32 = true → clampDb g = 0xC2F00000#32) ∧
    (flt 0x00000000#32 g = true → clampDb g = 0x00000000#32) ∧
    (fle 0xC2F00000#32 g = true → fle g 0x00000000#32 = true → clampDb g = g) ∧
    fle 0xC2F00000#32 (clampDb g) = true ∧ fle (clampDb g) 0x00000000#32 = true) ∧
  (∀ g fb : Word, isNaN fb = false → isNaN (sanG g fb) = false)

/-- 40_numerics.md R102: the gain conversion of a clamped gain: +0.0 at −120 dB exactly, `POW10` of the rounded quotient above it, 1.0
at either zero, and always in [0, 1]; the quotient lies in the domain of `POW10`. -/
def Obligations.GainConversionStaysInUnitRange : Prop :=
  ∀ db nan : Word, fle 0xC2F00000#32 db = true → fle db 0x00000000#32 = true →
    coefInRange (g2l nan db) ∧
    (db = 0xC2F00000#32 → g2l nan db = 0x00000000#32) ∧
    (db ≠ 0xC2F00000#32 → g2l nan db = pow10 (fdiv nan db 0x41A00000#32) ∧ pow10Domain (fdiv nan db 0x41A00000#32)) ∧
    (magBits db = 0 → g2l nan db = 0x3F800000#32)

/-- 40_numerics.md R105, R106: the sanitisers. A frequency that is not finite becomes the fallback, one below `FREQ_MIN` becomes
`FREQ_MIN`, any other stays; a NaN gain becomes the fallback, any other stays. -/
def Obligations.SanitisersRepairExactlyTheAnomalies : Prop :=
  ∀ f g fb gb : Word, freqInRange fb → gainInRange gb →
    freqInRange (sanF f fb) ∧
    (isFinite f = false → sanF f fb = fb) ∧
    (isFinite f = true → flt f freqMin = true → sanF f fb = freqMin) ∧
    (freqInRange f → sanF f fb = f) ∧
    gainInRange (sanG g gb) ∧
    (isNaN g = true → sanG g gb = gb) ∧
    (isNaN g = false → sanG g gb = g)

/-- 40_numerics.md R107: Sine exactly for a word that is no NaN and stands for a number below 0.5; `value` puts an infinity beyond
every finite number (notes/assumptions/7.md). -/
def Obligations.ModeSelectsByRoundingAwayFromZero : Prop :=
  ∀ m : Word, modeSel m = .sine ↔ isNaN m = false ∧ ratValue m < 1 / 2

/-- The parameters have the required properties of 40_numerics.md R103, R104 and 00_scope.md R7 that name no tolerance; the model
brings them into these ranges (notes/assumptions/2.md). -/
def Obligations.ParametersHaveTheirRequiredProperties : Prop :=
  (1 ≤ tableCap ∧ tableCap ≤ 2 ^ 24 - 1) ∧ (isFinite freqMin = true ∧ 0 < ratValue freqMin) ∧
  Pow10One ∧ Pow10Range ∧ SinRange ∧ ∀ k, isNaN (nanAt k) = true

/-! ### Whole-machine rules -/

/-- The state after reset (10_state.md R39, 70_reset_and_hazards.md R215) and that it meets the invariants. -/
def Obligations.ResetStateIsSafe : Prop :=
  State.reset.life = .unbuilt ∧ (∀ r, State.reset.reg r = .noValue) ∧ State.reset.tlen = .noValue ∧
  (∀ sel idx, State.reset.mem.read sel idx = .noValue) ∧ State.reset.status = 0x00000000#32 ∧
  Invariant State.reset ∧ TargetsFollow State.reset

/-- Every step keeps the invariant: the ranges of the registers, which of them hold a value, the tables as built, and the canonical
form of the memory, which is the model's choice (notes/assumptions/6.md) (10_state.md R22 to R31, R36, R38, 43_smoother.md R156,
44_nco_mixer.md R171). -/
def Obligations.EveryStepKeepsTheInvariant : Prop :=
  ∀ s t : State, Invariant s → step s = .next t → Invariant t

/-- From a safe state a step always answers a next state: no read of a register or entry that holds no value, no index outside the
table, no conversion outside its domain, no refusal (10_state.md R38, 44_nco_mixer.md R167). That a waiting or halted step answers
a next state is the model's choice (notes/assumptions/5.md). -/
def Obligations.SafeStatesNeverStop : Prop :=
  ∀ s : State, Invariant s → ∃ t, step s = .next t

/-- 10_state.md R38: no command stream whatever, however long it is run from reset, reaches a fault of the model: none reads a register
or entry that holds no value. (An illegal header halts the block, 60_exceptions.md R193; such a step is a next state by the
model's choice, notes/assumptions/5.md. That nothing waits on `CMD` and the reset input is released at reset is its choice too,
notes/assumptions/4.md.) -/
def Obligations.NoCommandStreamStopsTheBlock : Prop :=
  ∀ (ws : List Word) (n : Nat), ∃ t, Host.Core.run core n (State.reset.receive ws) = .next t ∧ Invariant t

/-- Every step keeps the canonical form of the memory, in every state (20_memory.md R50; the form is the model's choice,
notes/assumptions/6.md). -/
def Obligations.EveryStepKeepsTheMemoryForm : Prop :=
  ∀ s t : State, s.mem.wf → step s = .next t → t.mem.wf

/-- 60_exceptions.md R195: in a safe `ACTIVE` state the processing commands complete for every operand, raise no flag, keep the
invariant, and append exactly one word for each sample, a finite one for a finite sample. -/
def Obligations.ProcessingPathIsTotal : Prop :=
  ∀ (s : State) (i : Instr), Invariant s → s.life = .active → isProcessing i = true →
    ∃ t ys, exec i s = .next t ∧ (∀ f, t.flag f = s.flag f) ∧ Invariant t ∧ t.life = .active ∧
      t.out = s.out ++ ys ∧ ys.length = outWords i ∧
      List.Forall₂ (fun x y => isFinite x = true → isFinite y = true) (samplesOf i) ys

/-- 40_numerics.md R94: no register and no table entry of a safe state holds a NaN. -/
def Obligations.NoRegisterEverHoldsANaN : Prop :=
  ∀ s : State, Invariant s → NoNaN s

/-- 40_numerics.md R94, 70_reset_and_hazards.md R219: a draw reaches an output word that is a NaN and nothing else. Two runs of a
command that differ in the draws agree up to them. The draw counter is the model's own (notes/assumptions/3.md). -/
def Obligations.DrawsReachOnlyNaNOutputs : Prop :=
  ∀ (s t : State) (i : Instr) (k : Nat), Invariant s → exec i s = .next t →
    ∃ t', exec i { s with nanDraws := k } = .next t' ∧ sameUpToDraws t t'

/-- 10_state.md R40: what each command does to the smoothing state. ACTIVATE alone resets it. A per-block update takes one smoothing
step of `GCUR` and of `FACT` toward the targets it leaves, in BEGIN_BLOCK and in PROCESS_BLOCK alike. `PHASE` moves only by the
advance of 44_nco_mixer.md R171, once for each sample, with the `PINC` in force. DESTROY leaves no value. Every other command, and
every refused one, leaves all three alone. -/
def Obligations.OnlyActivateResetsTheSmoothing : Prop :=
  ∀ (s t : State) (i : Instr), exec i s = .next t →
    (legalIn i s.life = false → t.phase = s.phase ∧ t.gcur = s.gcur ∧ t.fact = s.fact) ∧
    (legalIn i s.life = true →
      match i with
      | .construct _ _ => t.phase = s.phase ∧ t.gcur = s.gcur ∧ t.fact = s.fact
      | .activate _ _ => t.phase = .value 0x00000000#32 ∧ t.gcur = t.gtgt ∧ t.fact = t.ftgt
      | .beginBlock _ _ =>
        t.phase = s.phase ∧ SmoothedToward s.gcur t.gtgt t.gcur ∧ SmoothedToward s.fact t.ftgt t.fact
      | .processSample _ _ => AdvancedBy 1 s.phase s.pinc t.phase ∧ t.gcur = s.gcur ∧ t.fact = s.fact
      | .processBlock _ _ _ xs =>
        (xs = [] → t.phase = s.phase) ∧ (xs ≠ [] → AdvancedBy xs.length s.phase t.pinc t.phase) ∧
        SmoothedToward s.gcur t.gtgt t.gcur ∧ SmoothedToward s.fact t.ftgt t.fact
      | .deactivate => t.phase = s.phase ∧ t.gcur = s.gcur ∧ t.fact = s.fact
      | .destroy => t.phase = .noValue ∧ t.gcur = .noValue ∧ t.fact = .noValue)

/-! ### Numbers: difference and quotient -/

/-- 40_numerics.md R91, R92: the difference and the quotient of finite operands are the exact results rounded once, with the sign of
the exact difference and the exclusive-or of the signs of the quotient; a zero difference is +0.0 unless it is −0.0 minus +0.0; a
finite number divided by zero is an infinity, 0 / 0 is a NaN; and the other operands whose result is a NaN. -/
def Obligations.DifferenceAndQuotientRoundTheExactResult : Prop :=
  ∀ a b nan : Word,
    (isFinite a = true → isFinite b = true →
      (magBits (fsub nan a b) = roundMag (value a - value b).natAbs 1 ∧
        (value a ≠ value b → (signBit (fsub nan a b) = true ↔ value a < value b)) ∧
        (value a = value b → (signBit (fsub nan a b) = true ↔ signBit a = true ∧ signBit b = false))) ∧
      (value b ≠ 0 →
        magBits (fdiv nan a b) = roundMag ((value a).natAbs * 2 ^ 149) (value b).natAbs ∧
        (signBit (fdiv nan a b) = true ↔ signBit a ≠ signBit b)) ∧
      (value b = 0 → value a ≠ 0 →
        magBits (fdiv nan a b) = infBits ∧ (signBit (fdiv nan a b) = true ↔ signBit a ≠ signBit b)) ∧
      (value b = 0 → value a = 0 → fdiv nan a b = nan)) ∧
    (isNaN a = true ∨ isNaN b = true → fsub nan a b = nan ∧ fdiv nan a b = nan) ∧
    (isInf a = true → isInf b = true → fdiv nan a b = nan ∧ (signBit a = signBit b → fsub nan a b = nan))
end

