-- ==== Sys2Proof/Laws/Rounding.lean ====
section
/-! SUPPORT. The one rounding of 40_numerics.md R91, once for all: what `patternMag`, `roundHalfEven` and `roundMag` are, that
they are monotone, that rounding keeps a value that has a pattern, and how far it moves one that has not. -/

namespace Sys2Proof.Machine

/-! ### Patterns and their magnitudes -/

/-- A pattern `k * 2^23 + m` whose significand `m` is normal (or `k = 0`) stands for `m * 2^k` units; `m` may be 2^24. -/
theorem patternMag_eq {k m : Nat} (hk : k = 0 ∨ 2 ^ 23 ≤ m) (hm : m ≤ 2 ^ 24) :
    patternMag (k * 2 ^ 23 + m) = m * 2 ^ k := by
  unfold patternMag
  rcases Nat.lt_or_ge m (2 ^ 23) with h1 | h1
  · have hk0 : k = 0 := by omega
    subst hk0
    have : (0 * 2 ^ 23 + m) / 2 ^ 23 = 0 := by omega
    rw [if_pos this]; simp
  · rcases Nat.lt_or_ge m (2 ^ 24) with h2 | h2
    · have hd : (k * 2 ^ 23 + m) / 2 ^ 23 = k + 1 := by omega
      have hr : (k * 2 ^ 23 + m) % 2 ^ 23 = m - 2 ^ 23 := by omega
      rw [hd, hr, if_neg (by omega), Nat.add_sub_cancel, Nat.add_sub_cancel' h1]
    · have hm' : m = 2 ^ 24 := by omega
      have hd : (k * 2 ^ 23 + m) / 2 ^ 23 = k + 2 := by omega
      have hr : (k * 2 ^ 23 + m) % 2 ^ 23 = 0 := by omega
      rw [hd, hr, if_neg (by omega), hm', show k + 2 - 1 = k + 1 by omega, Nat.pow_succ]
      ring

/-- Every pattern has such a form, with a significand below 2^24. -/
theorem pattern_split (p : Nat) :
    ∃ k m, p = k * 2 ^ 23 + m ∧ (k = 0 ∨ 2 ^ 23 ≤ m) ∧ m < 2 ^ 24 := by
  rcases Nat.lt_or_ge p (2 ^ 23) with h | h
  · exact ⟨0, p, by omega, .inl rfl, by omega⟩
  · exact ⟨p / 2 ^ 23 - 1, 2 ^ 23 + p % 2 ^ 23, by omega, .inr (by omega), by omega⟩

theorem patternMag_lt_succ (p : Nat) : patternMag p < patternMag (p + 1) := by
  obtain ⟨k, m, rfl, hk, hm⟩ := pattern_split p
  rw [patternMag_eq hk hm.le, Nat.add_assoc, patternMag_eq (hk.imp_right (by omega)) (by omega)]
  exact Nat.mul_lt_mul_of_pos_right (Nat.lt_succ_self m) (by positivity)

theorem patternMag_strictMono : StrictMono patternMag := strictMono_nat_of_lt_succ patternMag_lt_succ

theorem patternMag_lt {p q : Nat} : patternMag p < patternMag q ↔ p < q := patternMag_strictMono.lt_iff_lt

theorem patternMag_le {p q : Nat} : patternMag p ≤ patternMag q ↔ p ≤ q := patternMag_strictMono.le_iff_le

theorem patternMag_inj {p q : Nat} : patternMag p = patternMag q ↔ p = q := patternMag_strictMono.injective.eq_iff

@[simp] theorem patternMag_zero : patternMag 0 = 0 := rfl

@[simp] theorem patternMag_eq_zero {p : Nat} : patternMag p = 0 ↔ p = 0 := by
  constructor
  · intro h; exact patternMag_inj.1 (h.trans patternMag_zero.symm)
  · rintro rfl; rfl

theorem patternMag_one : patternMag cOne.toNat = 2 ^ 149 := by decide

/-! ### Rounding a quotient to a natural number -/

theorem roundHalfEven_ge (n d : Nat) : n / d ≤ roundHalfEven n d := by
  unfold roundHalfEven; split_ifs <;> omega

theorem roundHalfEven_le (n d : Nat) : roundHalfEven n d ≤ n / d + 1 := by
  unfold roundHalfEven; split_ifs <;> omega

/-- At most half a unit too high; and where exactly half, the result is even. -/
theorem roundHalfEven_upper (n d : Nat) :
    2 * (roundHalfEven n d * d) ≤ 2 * n + d ∧
      (2 * (roundHalfEven n d * d) = 2 * n + d → 0 < d → roundHalfEven n d % 2 = 0) := by
  have h := Nat.div_add_mod n d
  have hc : d * (n / d) = n / d * d := Nat.mul_comm _ _
  unfold roundHalfEven
  split_ifs with h1 h2
  · constructor
    · omega
    · intro he hd; omega
  · rw [Nat.add_mul]
    constructor
    · omega
    · intro he hd; omega
  · have hb : n / d % 2 = 0 ∨ n / d % 2 = 1 := by omega
    rcases hb with hb | hb <;> rw [hb]
    · constructor
      · simp only [Nat.add_zero]; omega
      · intro _ _; omega
    · rw [Nat.add_mul]
      constructor
      · omega
      · intro _ _; omega

/-- At most half a unit too low; and where exactly half, the result is even. -/
theorem roundHalfEven_lower {n d : Nat} (hd : 0 < d) :
    2 * n ≤ 2 * (roundHalfEven n d * d) + d ∧
      (2 * n = 2 * (roundHalfEven n d * d) + d → roundHalfEven n d % 2 = 0) := by
  have h := Nat.div_add_mod n d
  have hlt := Nat.mod_lt n hd
  have hc : d * (n / d) = n / d * d := Nat.mul_comm _ _
  unfold roundHalfEven
  split_ifs with h1 h2
  · exact ⟨by omega, fun he => by omega⟩
  · rw [Nat.add_mul]
    exact ⟨by omega, fun he => by omega⟩
  · have hb : n / d % 2 = 0 ∨ n / d % 2 = 1 := by omega
    rcases hb with hb | hb <;> rw [hb]
    · exact ⟨by simp only [Nat.add_zero]; omega, fun _ => by omega⟩
    · rw [Nat.add_mul]
      exact ⟨by omega, fun _ => by omega⟩

theorem roundHalfEven_exact (m : Nat) {d : Nat} (hd : 0 < d) : roundHalfEven (m * d) d = m := by
  unfold roundHalfEven
  rw [Nat.mul_mod_left, Nat.mul_div_cancel m hd, if_pos (by omega)]

/-- A larger quotient never rounds lower. -/
theorem roundHalfEven_mono {n₁ d₁ n₂ d₂ : Nat} (h₁ : 0 < d₁) (h₂ : 0 < d₂) (h : n₁ * d₂ ≤ n₂ * d₁) :
    roundHalfEven n₁ d₁ ≤ roundHalfEven n₂ d₂ := by
  by_contra hlt
  rw [Nat.not_le] at hlt
  obtain ⟨hu, hue⟩ := roundHalfEven_upper n₁ d₁
  obtain ⟨hl, hle⟩ := roundHalfEven_lower (n := n₂) h₂
  generalize roundHalfEven n₁ d₁ = a at *
  generalize roundHalfEven n₂ d₂ = b at *
  -- scale both bounds to the common denominator
  have hu' := Nat.mul_le_mul_right d₂ hu
  have hl' := Nat.mul_le_mul_right d₁ hl
  have hab : (b + 1) * (d₁ * d₂) ≤ a * (d₁ * d₂) := Nat.mul_le_mul_right _ hlt
  have hpos : 0 < d₁ * d₂ := Nat.mul_pos h₁ h₂
  have e1 : 2 * (a * d₁) * d₂ = 2 * (a * (d₁ * d₂)) := by ring
  have e2 : (2 * n₁ + d₁) * d₂ = 2 * (n₁ * d₂) + d₁ * d₂ := by ring
  have e3 : 2 * n₂ * d₁ = 2 * (n₂ * d₁) := by ring
  have e4 : (2 * (b * d₂) + d₂) * d₁ = 2 * (b * (d₁ * d₂)) + d₁ * d₂ := by ring
  have e5 : (b + 1) * (d₁ * d₂) = b * (d₁ * d₂) + d₁ * d₂ := by ring
  rw [e1, e2] at hu'
  rw [e3, e4] at hl'
  rw [e5] at hab
  have hA : a * (d₁ * d₂) = b * (d₁ * d₂) + d₁ * d₂ := by omega
  have hAB : a = b + 1 := by
    have : a * (d₁ * d₂) = (b + 1) * (d₁ * d₂) := by rw [e5]; exact hA
    exact Nat.eq_of_mul_eq_mul_right hpos this
  have t1 : 2 * (a * d₁) = 2 * n₁ + d₁ := by
    apply Nat.eq_of_mul_eq_mul_right h₂; rw [e1, e2]; omega
  have t2 : 2 * n₂ = 2 * (b * d₂) + d₂ := by
    apply Nat.eq_of_mul_eq_mul_right h₁; rw [e3, e4]; omega
  have := hue t1 h₁
  have := hle t2
  omega

/-! ### Rounding a quotient to a pattern -/

/-- The significand that goes with `dropBits`. -/
def significand (n d : Nat) : Nat := roundHalfEven n (d * 2 ^ dropBits n d)

theorem roundMag_def (n d : Nat) :
    roundMag n d = min (dropBits n d * 2 ^ 23 + significand n d) infBits := rfl

theorem quotient_lt (n d : Nat) : n / d < 2 ^ (dropBits n d + 24) := by
  rcases Nat.eq_zero_or_pos (n / d) with h | h
  · rw [h]; positivity
  · have : n / d < 2 ^ (Nat.log2 (n / d) + 1) := Nat.lt_log2_self
    exact this.trans_le (Nat.pow_le_pow_right (by omega) (by unfold dropBits; omega))

theorem quotient_ge {n d : Nat} (h : dropBits n d ≠ 0) : 2 ^ (dropBits n d + 23) ≤ n / d := by
  have hl : 23 < Nat.log2 (n / d) := by unfold dropBits at h; omega
  have hne : n / d ≠ 0 := by rintro h0; simp [h0] at hl
  have := Nat.log2_self_le hne
  rwa [show dropBits n d + 23 = Nat.log2 (n / d) by unfold dropBits; omega]

theorem significand_le (n d : Nat) : significand n d ≤ 2 ^ 24 := by
  refine (roundHalfEven_le _ _).trans ?_
  rw [← Nat.div_div_eq_div_mul]
  have h := quotient_lt n d
  rw [Nat.pow_add, Nat.mul_comm] at h
  have := Nat.div_lt_of_lt_mul (by rwa [Nat.mul_comm] at h : n / d < 2 ^ dropBits n d * 2 ^ 24)
  omega

theorem significand_ge {n d : Nat} (h : dropBits n d ≠ 0) : 2 ^ 23 ≤ significand n d := by
  refine le_trans ?_ (roundHalfEven_ge _ _)
  rw [← Nat.div_div_eq_div_mul]
  have hq := quotient_ge h
  rw [Nat.pow_add, Nat.mul_comm] at hq
  exact (Nat.le_div_iff_mul_le (by positivity)).2 hq

/-- The magnitude of the rounded pattern before it is cut off at infinity. -/
theorem patternMag_unclamped (n d : Nat) :
    patternMag (dropBits n d * 2 ^ 23 + significand n d) = significand n d * 2 ^ dropBits n d :=
  patternMag_eq (by by_cases h : dropBits n d = 0; exact .inl h; exact .inr (significand_ge h)) (significand_le n d)

theorem roundMag_le_inf (n d : Nat) : roundMag n d ≤ infBits := Nat.min_le_right _ _

theorem roundMag_lt (n d : Nat) : roundMag n d < 2 ^ 31 :=
  (roundMag_le_inf n d).trans_lt (by decide)

/-- A result below infinity is its dropped bits and its significand, unclamped. -/
theorem roundMag_of_lt {n d : Nat} (h : roundMag n d < infBits) :
    roundMag n d = dropBits n d * 2 ^ 23 + significand n d := by
  rw [roundMag_def] at h ⊢
  exact min_eq_left (by omega)

/-- A result below infinity has the magnitude of its significand. -/
theorem patternMag_roundMag {n d : Nat} (h : roundMag n d < infBits) :
    patternMag (roundMag n d) = significand n d * 2 ^ dropBits n d := by
  rw [roundMag_def] at h ⊢
  rw [min_eq_left (by omega), patternMag_unclamped]

theorem dropBits_mono {n₁ d₁ n₂ d₂ : Nat} (h₁ : 0 < d₁) (h₂ : 0 < d₂) (h : n₁ * d₂ ≤ n₂ * d₁) :
    dropBits n₁ d₁ ≤ dropBits n₂ d₂ := by
  have hq : n₁ / d₁ ≤ n₂ / d₂ := by
    rw [Nat.le_div_iff_mul_le h₂]
    have : n₁ / d₁ * d₁ * d₂ ≤ n₂ * d₁ := (Nat.mul_le_mul_right d₂ (Nat.div_mul_le_self n₁ d₁)).trans h
    exact Nat.le_of_mul_le_mul_right (by rw [Nat.mul_right_comm]; exact this) h₁
  unfold dropBits
  rw [Nat.log2_eq_log_two, Nat.log2_eq_log_two]
  exact Nat.sub_le_sub_right (Nat.log_mono_right hq) 23

/-- A larger quotient never rounds to a lower pattern. -/
theorem roundMag_mono {n₁ d₁ n₂ d₂ : Nat} (h₁ : 0 < d₁) (h₂ : 0 < d₂) (h : n₁ * d₂ ≤ n₂ * d₁) :
    roundMag n₁ d₁ ≤ roundMag n₂ d₂ := by
  rw [roundMag_def, roundMag_def]
  apply min_le_min_right
  rcases Nat.eq_or_lt_of_le (dropBits_mono h₁ h₂ h) with he | hlt
  · unfold significand
    rw [he]
    refine Nat.add_le_add_left (roundHalfEven_mono (by positivity) (by positivity) ?_) _
    calc n₁ * (d₂ * 2 ^ dropBits n₂ d₂) = n₁ * d₂ * 2 ^ dropBits n₂ d₂ := by ring
      _ ≤ n₂ * d₁ * 2 ^ dropBits n₂ d₂ := Nat.mul_le_mul_right _ h
      _ = n₂ * (d₁ * 2 ^ dropBits n₂ d₂) := by ring
  · have h1 := significand_le n₁ d₁
    have h2 := significand_ge (n := n₂) (d := d₂) (by omega)
    omega

/-- A quotient that equals the magnitude of a pattern rounds to that pattern. -/
theorem roundMag_exact {p d : Nat} (hp : p ≤ infBits) (hd : 0 < d) : roundMag (patternMag p * d) d = p := by
  obtain ⟨k, m, rfl, hk, hm⟩ := pattern_split p
  rw [patternMag_eq hk hm.le]
  have hdrop : dropBits (m * 2 ^ k * d) d = k := by
    unfold dropBits
    rw [Nat.mul_div_cancel _ hd]
    rcases Nat.lt_or_ge m (2 ^ 23) with h1 | h1
    · have hk0 : k = 0 := by omega
      subst hk0
      rw [Nat.pow_zero, Nat.mul_one]
      rcases Nat.eq_zero_or_pos m with h0 | h0
      · simp [h0]
      · have := (Nat.log2_lt (by omega)).2 h1
        omega
    · have : Nat.log2 (m * 2 ^ k) = k + 23 := by
        have hne : m * 2 ^ k ≠ 0 := by positivity
        rw [Nat.log2_eq_iff hne]
        constructor
        · rw [Nat.pow_add, Nat.mul_comm]; exact Nat.mul_le_mul_right _ h1
        · rw [show k + 23 + 1 = k + 24 by omega, Nat.pow_add, Nat.mul_comm m]
          exact Nat.mul_lt_mul_of_pos_left hm (by positivity)
      omega
  rw [roundMag_def]
  have hs : significand (m * 2 ^ k * d) d = m := by
    unfold significand
    rw [hdrop, show m * 2 ^ k * d = m * (d * 2 ^ k) by ring]
    exact roundHalfEven_exact m (by positivity)
  rw [hdrop, hs]
  exact min_eq_left hp

theorem roundMag_exact_one {p : Nat} (hp : p ≤ infBits) : roundMag (patternMag p) 1 = p := by
  simpa using roundMag_exact hp Nat.one_pos

@[simp] theorem roundMag_zero (d : Nat) : roundMag 0 d = 0 := by
  simp [roundMag, roundHalfEven, dropBits, infBits]

/-- Rounding does not pass a magnitude that has a pattern, from below. -/
theorem roundMag_le_of_le {n d p : Nat} (hd : 0 < d) (hp : p ≤ infBits) (h : n ≤ patternMag p * d) :
    roundMag n d ≤ p := by
  have := roundMag_mono hd hd (Nat.mul_le_mul_right d h)
  rwa [roundMag_exact hp hd] at this

/-- Rounding does not pass a magnitude that has a pattern, from above. -/
theorem le_roundMag_of_le {n d p : Nat} (hd : 0 < d) (hp : p ≤ infBits) (h : patternMag p * d ≤ n) :
    p ≤ roundMag n d := by
  have := roundMag_mono hd hd (Nat.mul_le_mul_right d h)
  rwa [roundMag_exact hp hd] at this

/-- Rounding moves a quotient up by at most half of the unit it drops to. -/
theorem roundMag_upper (n d : Nat) (h : roundMag n d < infBits) :
    2 * (patternMag (roundMag n d) * d) ≤ 2 * n + d * 2 ^ dropBits n d := by
  rw [patternMag_roundMag h]
  have := (roundHalfEven_upper n (d * 2 ^ dropBits n d)).1
  unfold significand
  calc 2 * (roundHalfEven n (d * 2 ^ dropBits n d) * 2 ^ dropBits n d * d)
      = 2 * (roundHalfEven n (d * 2 ^ dropBits n d) * (d * 2 ^ dropBits n d)) := by ring
    _ ≤ _ := this

/-- Rounding moves a quotient down by at most half of the unit it drops to. -/
theorem roundMag_lower {n d : Nat} (hd : 0 < d) (h : roundMag n d < infBits) :
    2 * n ≤ 2 * (patternMag (roundMag n d) * d) + d * 2 ^ dropBits n d := by
  rw [patternMag_roundMag h]
  have := (roundHalfEven_lower (n := n) (d := d * 2 ^ dropBits n d) (by positivity)).1
  unfold significand
  calc 2 * n ≤ 2 * (roundHalfEven n (d * 2 ^ dropBits n d) * (d * 2 ^ dropBits n d)) + d * 2 ^ dropBits n d := this
    _ = _ := by ring

/-- The unit a quotient drops to is 1 or at most 2^-23 of the quotient. -/
theorem dropBits_unit (n d : Nat) : dropBits n d = 0 ∨ 2 ^ 23 * (d * 2 ^ dropBits n d) ≤ n := by
  by_cases h : dropBits n d = 0
  · exact .inl h
  · right
    calc 2 ^ 23 * (d * 2 ^ dropBits n d) = 2 ^ (dropBits n d + 23) * d := by rw [Nat.pow_add]; ring
      _ ≤ n / d * d := Nat.mul_le_mul_right d (quotient_ge h)
      _ ≤ n := Nat.div_mul_le_self n d

/-- What is at most the largest finite magnitude does not round to infinity. -/
theorem roundMag_lt_inf {n : Nat} (h : n ≤ (2 ^ 24 - 1) * 2 ^ 253) : roundMag n 1 < infBits := by
  have hmax : patternMag (infBits - 1) = (2 ^ 24 - 1) * 2 ^ 253 := by decide
  have := roundMag_le_of_le (n := n) (d := 1) (p := infBits - 1) Nat.one_pos (by decide) (by rw [hmax]; omega)
  have hlt : infBits - 1 < infBits := by decide
  omega

end Sys2Proof.Machine
end

