-- ==== Sys2Proof/Laws/Binary32.lean ====
section
/-! SUPPORT. The small lemmas of Machine/Binary32.lean: the class tests and comparisons in terms of the magnitude pattern and
the value (40_numerics.md R90, R93), the four operations on finite operands (R92), and the exact conversions (R98,
R99). -/

namespace Sys2Proof.Machine

/-! ### Fields and classes -/

theorem signBit_eq (w : Word) : signBit w = decide (2 ^ 31 ≤ w.toNat) := BitVec.msb_eq_decide w

theorem magBits_lt (w : Word) : magBits w < 2 ^ 31 := Nat.mod_lt _ (by decide)

theorem toNat_eq (w : Word) : w.toNat = (if signBit w then 2 ^ 31 else 0) + magBits w := by
  have := w.isLt
  rw [signBit_eq, magBits]
  split_ifs with h <;> simp only [decide_eq_true_eq] at h <;> omega

theorem magBits_of_lt {w : Word} (h : w.toNat < 2 ^ 31) : magBits w = w.toNat := Nat.mod_eq_of_lt h

theorem signBit_of_lt {w : Word} (h : w.toNat < 2 ^ 31) : signBit w = false := by
  rw [signBit_eq]; simpa using h

theorem lt_of_signBit {w : Word} (h : signBit w = false) : w.toNat < 2 ^ 31 := by
  rw [signBit_eq] at h; simpa using h

theorem isNaN_iff {w : Word} : isNaN w = true ↔ infBits < magBits w := by
  unfold isNaN expField fracField magBits infBits
  simp only [Bool.and_eq_true, beq_iff_eq, bne_iff_ne]
  omega

theorem isInf_iff {w : Word} : isInf w = true ↔ magBits w = infBits := by
  unfold isInf expField fracField magBits infBits
  simp only [Bool.and_eq_true, beq_iff_eq]
  omega

theorem isFinite_iff {w : Word} : isFinite w = true ↔ magBits w < infBits := by
  unfold isFinite expField magBits infBits
  simp only [bne_iff_ne]
  omega

theorem isNaN_eq_false {w : Word} : isNaN w = false ↔ magBits w ≤ infBits := by
  rw [← Bool.not_eq_true, isNaN_iff, Nat.not_lt]

theorem isInf_eq_false {w : Word} : isInf w = false ↔ magBits w ≠ infBits := by
  rw [← Bool.not_eq_true, isInf_iff]

theorem isNaN_of_isFinite {w : Word} (h : isFinite w = true) : isNaN w = false :=
  isNaN_eq_false.2 (isFinite_iff.1 h).le

theorem isInf_of_isFinite {w : Word} (h : isFinite w = true) : isInf w = false :=
  isInf_eq_false.2 (isFinite_iff.1 h).ne

theorem isFinite_of_lt {w : Word} (h : w.toNat < infBits) : isFinite w = true :=
  isFinite_iff.2 (by rw [magBits_of_lt (h.trans (by decide))]; exact h)

/-! ### Packing -/

theorem toNat_pack {s : Bool} {p : Nat} (h : p < 2 ^ 31) :
    (pack s p).toNat = (if s then 2 ^ 31 else 0) + p := by
  unfold pack
  rw [BitVec.toNat_ofNat]
  cases s
  · simp; omega
  · simp; omega

theorem signBit_pack {s : Bool} {p : Nat} (h : p < 2 ^ 31) : signBit (pack s p) = s := by
  rw [signBit_eq, toNat_pack h]
  cases s
  · simp; omega
  · simp

theorem magBits_pack {s : Bool} {p : Nat} (h : p < 2 ^ 31) : magBits (pack s p) = p := by
  unfold magBits
  rw [toNat_pack h]
  cases s <;> simp <;> omega

theorem pack_eta (w : Word) : pack (signBit w) (magBits w) = w := by
  apply BitVec.eq_of_toNat_eq
  rw [toNat_pack (magBits_lt w), ← toNat_eq]

theorem magnitude_pack {s : Bool} {p : Nat} (h : p < 2 ^ 31) : magnitude (pack s p) = patternMag p := by
  rw [magnitude, magBits_pack h]

theorem value_pack {s : Bool} {p : Nat} (h : p < 2 ^ 31) :
    value (pack s p) = if s then -(patternMag p : Int) else patternMag p := by
  rw [value, signBit_pack h, magnitude_pack h]

/-- Two words with the same sign and the same magnitude pattern are the same word. -/
theorem word_ext {a b : Word} (hs : signBit a = signBit b) (hm : magBits a = magBits b) : a = b := by
  rw [← pack_eta a, ← pack_eta b, hs, hm]

theorem magnitude_of_lt {w : Word} (h : w.toNat < 2 ^ 31) : magnitude w = patternMag w.toNat := by
  rw [magnitude, magBits_of_lt h]

theorem value_of_lt {w : Word} (h : w.toNat < 2 ^ 31) : value w = patternMag w.toNat := by
  rw [value, signBit_of_lt h, magnitude_of_lt h]; simp

theorem value_nonneg_of_lt {w : Word} (h : w.toNat < 2 ^ 31) : 0 ≤ value w := by
  rw [value_of_lt h]; positivity

@[simp] theorem magnitude_eq_zero {w : Word} : magnitude w = 0 ↔ magBits w = 0 := patternMag_eq_zero

theorem value_natAbs (w : Word) : (value w).natAbs = magnitude w := by
  unfold value; split_ifs <;> simp

/-! ### Flipping the sign -/

theorem signBit_negate (w : Word) : signBit (negate w) = !signBit w := signBit_pack (magBits_lt w)

theorem magBits_negate (w : Word) : magBits (negate w) = magBits w := magBits_pack (magBits_lt w)

theorem magnitude_negate (w : Word) : magnitude (negate w) = magnitude w := by
  rw [magnitude, magBits_negate, magnitude]

theorem value_negate (w : Word) : value (negate w) = -value w := by
  rw [value, value, signBit_negate, magnitude_negate]
  cases signBit w <;> simp

theorem isFinite_negate (w : Word) : isFinite (negate w) = isFinite w := by
  rw [Bool.eq_iff_iff, isFinite_iff, isFinite_iff, magBits_negate]

theorem isNaN_negate (w : Word) : isNaN (negate w) = isNaN w := by
  rw [Bool.eq_iff_iff, isNaN_iff, isNaN_iff, magBits_negate]

theorem isInf_negate (w : Word) : isInf (negate w) = isInf w := by
  rw [Bool.eq_iff_iff, isInf_iff, isInf_iff, magBits_negate]

/-! ### Comparisons -/

theorem flt_iff {a b : Word} (ha : isNaN a = false) (hb : isNaN b = false) : flt a b = true ↔ value a < value b := by
  simp [flt, ha, hb]

theorem fle_iff {a b : Word} (ha : isNaN a = false) (hb : isNaN b = false) : fle a b = true ↔ value a ≤ value b := by
  simp [fle, ha, hb]

theorem feq_iff {a b : Word} (ha : isNaN a = false) (hb : isNaN b = false) : feq a b = true ↔ value a = value b := by
  simp [feq, ha, hb]

theorem fne_iff {a b : Word} (ha : isNaN a = false) (hb : isNaN b = false) : fne a b = true ↔ value a ≠ value b := by
  simp [fne, feq, ha, hb]

theorem flt_nan_left {a b : Word} (h : isNaN a = true) : flt a b = false := by simp [flt, h]

theorem flt_nan_right {a b : Word} (h : isNaN b = true) : flt a b = false := by simp [flt, h]

/-- For words with sign bit 0 that are no NaN, the order of the numbers is the order of the patterns. -/
theorem flt_of_nonneg {a b : Word} (ha : a.toNat ≤ infBits) (hb : b.toNat ≤ infBits) :
    flt a b = true ↔ a.toNat < b.toNat := by
  have ha' : a.toNat < 2 ^ 31 := ha.trans_lt (by decide)
  have hb' : b.toNat < 2 ^ 31 := hb.trans_lt (by decide)
  rw [flt_iff (isNaN_eq_false.2 (by rwa [magBits_of_lt ha'])) (isNaN_eq_false.2 (by rwa [magBits_of_lt hb'])),
    value_of_lt ha', value_of_lt hb', Nat.cast_lt, patternMag_lt]

theorem fle_of_nonneg {a b : Word} (ha : a.toNat ≤ infBits) (hb : b.toNat ≤ infBits) :
    fle a b = true ↔ a.toNat ≤ b.toNat := by
  have ha' : a.toNat < 2 ^ 31 := ha.trans_lt (by decide)
  have hb' : b.toNat < 2 ^ 31 := hb.trans_lt (by decide)
  rw [fle_iff (isNaN_eq_false.2 (by rwa [magBits_of_lt ha'])) (isNaN_eq_false.2 (by rwa [magBits_of_lt hb'])),
    value_of_lt ha', value_of_lt hb', Nat.cast_le, patternMag_le]

/-- A finite number above zero is a word between the smallest subnormal and the largest finite number. -/
theorem isPositive_iff {w : Word} : (isFinite w && flt cZero w) = true ↔ 0 < w.toNat ∧ w.toNat < infBits := by
  rw [Bool.and_eq_true, isFinite_iff]
  have hz : value cZero = 0 := by decide
  have hzn : isNaN cZero = false := by decide
  constructor
  · rintro ⟨hf, hl⟩
    have hn : isNaN w = false := isNaN_eq_false.2 hf.le
    rw [flt_iff hzn hn, hz] at hl
    have hs : signBit w = false := by
      by_contra hs
      rw [Bool.not_eq_false] at hs
      rw [value, hs] at hl
      simp at hl
      omega
    have hlt := lt_of_signBit hs
    rw [magBits_of_lt hlt] at hf
    refine ⟨?_, hf⟩
    rw [value_of_lt hlt] at hl
    by_contra h0
    rw [Nat.not_lt, Nat.le_zero] at h0
    simp [h0] at hl
  · rintro ⟨h0, hi⟩
    have hlt : w.toNat < 2 ^ 31 := hi.trans (by decide)
    refine ⟨by rwa [magBits_of_lt hlt], ?_⟩
    rw [flt_of_nonneg (by decide) hi.le]
    exact h0

/-! ### Arithmetic on finite operands -/

theorem fadd_of_finite {a b : Word} (nan : Word) (ha : isFinite a = true) (hb : isFinite b = true) :
    fadd nan a b =
      if value a + value b = 0 then pack (signBit a && signBit b) 0
      else pack (decide (value a + value b < 0)) (roundMag (value a + value b).natAbs 1) := by
  simp [fadd, isNaN_of_isFinite ha, isNaN_of_isFinite hb, isInf_of_isFinite ha, isInf_of_isFinite hb]

/-- The sum of two finite words with sign bit 0. -/
theorem fadd_nonneg {a b : Word} (nan : Word) (ha : a.toNat < infBits) (hb : b.toNat < infBits) :
    fadd nan a b = pack false (roundMag (patternMag a.toNat + patternMag b.toNat) 1) := by
  have ha' : a.toNat < 2 ^ 31 := ha.trans (by decide)
  have hb' : b.toNat < 2 ^ 31 := hb.trans (by decide)
  rw [fadd_of_finite nan (isFinite_of_lt ha) (isFinite_of_lt hb), value_of_lt ha', value_of_lt hb',
    signBit_of_lt ha', ← Nat.cast_add]
  split_ifs with h
  · rw [Nat.cast_eq_zero.1 h, roundMag_zero]; rfl
  · rw [Int.natAbs_natCast]
    have : ¬((patternMag a.toNat + patternMag b.toNat : ℕ) : Int) < 0 := by omega
    rw [decide_eq_false this]

/-- The difference of two finite words with sign bit 0, the first the larger. -/
theorem fsub_nonneg {a b : Word} (nan : Word) (ha : a.toNat < infBits) (hb : b.toNat < infBits)
    (h : b.toNat ≤ a.toNat) :
    fsub nan a b = pack false (roundMag (patternMag a.toNat - patternMag b.toNat) 1) := by
  have ha' : a.toNat < 2 ^ 31 := ha.trans (by decide)
  have hb' : b.toNat < 2 ^ 31 := hb.trans (by decide)
  have hle := patternMag_le.2 h
  rw [fsub, fadd_of_finite nan (isFinite_of_lt ha) (by rw [isFinite_negate]; exact isFinite_of_lt hb), value_negate,
    value_of_lt ha', value_of_lt hb', signBit_of_lt ha', ← sub_eq_add_neg, ← Nat.cast_sub hle]
  split_ifs with h0
  · rw [Nat.cast_eq_zero.1 h0, roundMag_zero]; rfl
  · rw [Int.natAbs_natCast, decide_eq_false (by omega)]

/-- The difference of two finite words with sign bit 0, the first the smaller. -/
theorem fsub_neg {a b : Word} (nan : Word) (ha : a.toNat < infBits) (hb : b.toNat < infBits)
    (h : a.toNat < b.toNat) :
    fsub nan a b = pack true (roundMag (patternMag b.toNat - patternMag a.toNat) 1) := by
  have ha' : a.toNat < 2 ^ 31 := ha.trans (by decide)
  have hb' : b.toNat < 2 ^ 31 := hb.trans (by decide)
  have hlt := patternMag_lt.2 h
  rw [fsub, fadd_of_finite nan (isFinite_of_lt ha) (by rw [isFinite_negate]; exact isFinite_of_lt hb), value_negate,
    value_of_lt ha', value_of_lt hb', signBit_of_lt ha', ← sub_eq_add_neg, if_neg (by omega),
    decide_eq_true (by omega)]
  congr 2
  omega

theorem fmul_of_finite {a b : Word} (nan : Word) (ha : isFinite a = true) (hb : isFinite b = true) :
    fmul nan a b = pack (signBit a != signBit b) (roundMag (magnitude a * magnitude b) (2 ^ 149)) := by
  simp [fmul, isNaN_of_isFinite ha, isNaN_of_isFinite hb, isInf_of_isFinite ha, isInf_of_isFinite hb]

theorem fdiv_of_finite {a b : Word} (nan : Word) (ha : isFinite a = true) (hb : isFinite b = true)
    (h0 : magBits b ≠ 0) :
    fdiv nan a b = pack (signBit a != signBit b) (roundMag (magnitude a * 2 ^ 149) (magnitude b)) := by
  have h0' : ¬magnitude b = 0 := by rwa [magnitude_eq_zero]
  unfold fdiv
  rw [isNaN_of_isFinite ha, isNaN_of_isFinite hb, isInf_of_isFinite ha, isInf_of_isFinite hb, if_neg h0']
  rfl

/-- A NaN operand gives the drawn NaN. -/
theorem toNat_pack_false {p : Nat} (h : p < 2 ^ 31) : (pack false p).toNat = p := by
  simpa using toNat_pack (s := false) h

/-- The product of two finite words with sign bit 0. -/
theorem fmul_nonneg {a b : Word} (nan : Word) (ha : a.toNat < infBits) (hb : b.toNat < infBits) :
    fmul nan a b = pack false (roundMag (patternMag a.toNat * patternMag b.toNat) (2 ^ 149)) := by
  have ha' : a.toNat < 2 ^ 31 := ha.trans (by decide)
  have hb' : b.toNat < 2 ^ 31 := hb.trans (by decide)
  rw [fmul_of_finite nan (isFinite_of_lt ha) (isFinite_of_lt hb), signBit_of_lt ha', signBit_of_lt hb',
    magnitude_of_lt ha', magnitude_of_lt hb']
  rfl

/-- The difference of two finite words with sign bit 0 is finite. -/
theorem fsub_finite (nan : Word) {a b : Word} (ha : a.toNat < infBits) (hb : b.toNat < infBits) :
    isFinite (fsub nan a b) = true := by
  have hmax : ∀ {c : Word}, c.toNat < infBits → patternMag c.toNat ≤ (2 ^ 24 - 1) * 2 ^ 253 := by
    intro c hc
    have h : c.toNat ≤ infBits - 1 := by omega
    have := patternMag_le.2 h
    rwa [show patternMag (infBits - 1) = (2 ^ 24 - 1) * 2 ^ 253 by decide] at this
  rcases Nat.lt_or_ge a.toNat b.toNat with h | h
  · rw [fsub_neg nan ha hb h, isFinite_iff, magBits_pack (roundMag_lt _ _)]
    exact roundMag_lt_inf (by have := hmax hb; omega)
  · rw [fsub_nonneg nan ha hb h, isFinite_iff, magBits_pack (roundMag_lt _ _)]
    exact roundMag_lt_inf (by have := hmax ha; omega)

theorem fmul_nan_left {a : Word} (nan b : Word) (h : isNaN a = true) : fmul nan a b = nan := by
  simp [fmul, h]

/-! ### Signed results of a sum -/

theorem value_nonneg_of_sign {w : Word} (h : signBit w = false) : value w = magnitude w := by simp [value, h]
theorem value_neg_of_sign {w : Word} (h : signBit w = true) : value w = -(magnitude w : Int) := by simp [value, h]

/-- The value of a sum of finite words is the exact sum with its absolute value rounded. -/
theorem value_fadd {a b : Word} (nan : Word) (ha : isFinite a = true) (hb : isFinite b = true) :
    value (fadd nan a b) =
      if value a + value b < 0 then -(patternMag (roundMag (value a + value b).natAbs 1) : Int)
      else patternMag (roundMag (value a + value b).natAbs 1) := by
  rw [fadd_of_finite nan ha hb]
  by_cases h : value a + value b = 0
  · rw [if_pos h, value_pack (by decide), h]; simp
  · rw [if_neg h, value_pack (roundMag_lt _ _)]; simp

/-- A sum does not pass a word that the exact sum does not pass, from below. -/
theorem fadd_le {a b c : Word} (nan : Word) (ha : isFinite a = true) (hb : isFinite b = true) (hc : isNaN c = false)
    (h : value a + value b ≤ value c) : value (fadd nan a b) ≤ value c := by
  rw [value_fadd nan ha hb]
  generalize value a + value b = z at h
  have hcm := isNaN_eq_false.1 hc
  have e1 : value c = magnitude c ∨ value c = -(magnitude c : Int) := by unfold value; split_ifs <;> simp
  have r1 := roundMag_le_of_le (n := z.natAbs) (d := 1) (p := magBits c) Nat.one_pos hcm
  have r2 := le_roundMag_of_le (n := z.natAbs) (d := 1) (p := magBits c) Nat.one_pos hcm
  rw [Nat.mul_one] at r1 r2
  change _ ≤ magnitude c → _ at r1
  change magnitude c ≤ _ → _ at r2
  have r1' := fun h => patternMag_le.2 (r1 h)
  have r2' := fun h => patternMag_le.2 (r2 h)
  change _ → _ ≤ magnitude c at r1'
  change _ → magnitude c ≤ _ at r2'
  split_ifs <;> omega

/-- A sum does not pass a word that the exact sum does not pass, from above. -/
theorem le_fadd {a b c : Word} (nan : Word) (ha : isFinite a = true) (hb : isFinite b = true) (hc : isNaN c = false)
    (h : value c ≤ value a + value b) : value c ≤ value (fadd nan a b) := by
  rw [value_fadd nan ha hb]
  generalize value a + value b = z at h
  have hcm := isNaN_eq_false.1 hc
  have e1 : value c = magnitude c ∨ value c = -(magnitude c : Int) := by unfold value; split_ifs <;> simp
  have r1 := roundMag_le_of_le (n := z.natAbs) (d := 1) (p := magBits c) Nat.one_pos hcm
  have r2 := le_roundMag_of_le (n := z.natAbs) (d := 1) (p := magBits c) Nat.one_pos hcm
  rw [Nat.mul_one] at r1 r2
  change _ ≤ magnitude c → _ at r1
  change magnitude c ≤ _ → _ at r2
  have r1' := fun h => patternMag_le.2 (r1 h)
  have r2' := fun h => patternMag_le.2 (r2 h)
  change _ → _ ≤ magnitude c at r1'
  change _ → magnitude c ≤ _ at r2'
  split_ifs <;> omega

theorem fadd_not_nan {a b : Word} (nan : Word) (ha : isFinite a = true) (hb : isFinite b = true) :
    isNaN (fadd nan a b) = false := by
  rw [isNaN_eq_false, fadd_of_finite nan ha hb]
  split_ifs
  · rw [magBits_pack (by decide)]; decide
  · rw [magBits_pack (roundMag_lt _ _)]; exact roundMag_le_inf _ _

/-- Adding a zero changes nothing, the sum of −0.0 and +0.0 apart (R92). -/
theorem fadd_zero {a z : Word} (nan : Word) (ha : isFinite a = true) (hz : magBits z = 0)
    (hs : signBit a = false ∨ magBits a ≠ 0 ∨ signBit z = true) : fadd nan a z = a := by
  have hzf : isFinite z = true := isFinite_iff.2 (by rw [hz]; decide)
  have hv : value z = 0 := by have : magnitude z = 0 := magnitude_eq_zero.2 hz; simp [value, this]
  rw [fadd_of_finite nan ha hzf, hv, Int.add_zero]
  split_ifs with h
  · have h0 : magBits a = 0 := by rw [← magnitude_eq_zero, ← value_natAbs, h]; rfl
    apply word_ext
    · rw [signBit_pack (by decide)]; rcases hs with hs | hs | hs <;> simp_all
    · rw [magBits_pack (by decide), h0]
  · apply word_ext
    · rw [signBit_pack (roundMag_lt _ _)]
      unfold value at h ⊢
      cases signBit a <;> simp_all; omega
    · rw [magBits_pack (roundMag_lt _ _), value_natAbs]; exact roundMag_exact_one (isFinite_iff.1 ha).le

/-! ### Exact conversions -/

/-- A number of units with at most 24 significant bits has a pattern. -/
theorem exists_pattern (k : Nat) : ∀ m, m ≤ 2 ^ 24 → ∃ p, patternMag p = m * 2 ^ k := by
  induction k with
  | zero => exact fun m hm => ⟨0 * 2 ^ 23 + m, patternMag_eq (.inl rfl) hm⟩
  | succ k ih =>
    intro m hm
    rcases Nat.lt_or_ge m (2 ^ 23) with h | h
    · obtain ⟨p, hp⟩ := ih (2 * m) (by omega)
      exact ⟨p, by rw [hp, Nat.pow_succ]; ring⟩
    · exact ⟨(k + 1) * 2 ^ 23 + m, patternMag_eq (.inr h) hm⟩

/-- A natural number up to 2^24 has a pattern. -/
theorem exists_pattern_nat {n : Nat} (h : n ≤ 2 ^ 24) : ∃ p, p < infBits ∧ patternMag p = n * 2 ^ 149 := by
  obtain ⟨p, hp⟩ := exists_pattern 149 n h
  refine ⟨p, ?_, hp⟩
  rw [← patternMag_lt, hp]
  exact (Nat.mul_le_mul_right _ h).trans_lt (by decide)

/-- `FromNat` is exact up to 2^24 (R98). -/
theorem fromNat_spec {n : Nat} (h : n ≤ 2 ^ 24) :
    (fromNat n).toNat < infBits ∧ patternMag (fromNat n).toNat = n * 2 ^ 149 := by
  obtain ⟨p, hp, he⟩ := exists_pattern_nat h
  unfold fromNat
  rw [← he, roundMag_exact_one hp.le, toNat_pack (hp.trans (by decide))]
  simpa using hp

theorem isNonNegFinite_of_lt {w : Word} (h : w.toNat < infBits) : isNonNegFinite w = true := by
  rw [isNonNegFinite, isFinite_of_lt h, decide_eq_true (value_nonneg_of_lt (h.trans (by decide)))]; rfl

/-- `ToIndex` of a finite word with sign bit 0 (R98). -/
theorem toIndex_nonneg {w : Word} (h : w.toNat < infBits) : toIndex w = some (patternMag w.toNat / 2 ^ 149) := by
  rw [toIndex, if_pos (isNonNegFinite_of_lt h), magnitude_of_lt (h.trans (by decide))]

/-- The part of a magnitude below 1 has a pattern, below that of 1.0: taking it is exact (R99). -/
theorem exists_pattern_frac (p : Nat) : ∃ r, r < cOne.toNat ∧ patternMag r = patternMag p % 2 ^ 149 := by
  have hone : patternMag cOne.toNat = 2 ^ 149 := patternMag_one
  obtain ⟨k, m, rfl, hk, hm⟩ := pattern_split p
  rw [patternMag_eq hk hm.le]
  have key : ∃ r, patternMag r = m * 2 ^ k % 2 ^ 149 := by
    rcases Nat.lt_or_ge k 149 with h | h
    · have e : 2 ^ 149 = 2 ^ (149 - k) * 2 ^ k := by rw [← Nat.pow_add]; congr 1; omega
      obtain ⟨r, hr⟩ := exists_pattern k (m % 2 ^ (149 - k)) ((Nat.mod_le _ _).trans hm.le)
      exact ⟨r, by rw [hr, e, Nat.mul_mod_mul_right]⟩
    · refine ⟨0, ?_⟩
      rw [patternMag_zero, show k = k - 149 + 149 by omega, Nat.pow_add, ← Nat.mul_assoc, Nat.mul_mod_left]
  obtain ⟨r, hr⟩ := key
  refine ⟨r, ?_, hr⟩
  rw [← patternMag_lt, hr, hone]
  exact Nat.mod_lt _ (by positivity)

/-- `Frac` of a finite word with sign bit 0 (R99): exact, sign bit 0, and below 1. -/
theorem frac_nonneg {w : Word} (h : w.toNat < infBits) :
    ∃ v, frac w = some v ∧ v.toNat < cOne.toNat ∧ patternMag v.toNat = patternMag w.toNat % 2 ^ 149 := by
  obtain ⟨r, hr, he⟩ := exists_pattern_frac w.toNat
  have hri : r ≤ infBits := (hr.trans (by decide)).le
  refine ⟨pack false r, ?_, ?_, ?_⟩
  · rw [frac, if_pos (isNonNegFinite_of_lt h), magnitude_of_lt (h.trans (by decide)), ← he, roundMag_exact_one hri]
  · rw [toNat_pack (hr.trans (by decide))]; simpa using hr
  · rw [toNat_pack (hr.trans (by decide))]; simpa using he

/-! ### Sums that are no NaN -/

/-- A sum that is no NaN is the same whichever NaN would be drawn (R94). -/
theorem fadd_draw {a b nan : Word} (hn : isNaN nan = true) (h : isNaN (fadd nan a b) = false) (nan' : Word) :
    fadd nan' a b = fadd nan a b := by
  unfold fadd at h ⊢
  split_ifs at h ⊢ <;> first | rfl | (rw [hn] at h; cases h)

/-- `Frac` has a value of no NaN (R99). -/
theorem isNaN_of_frac {v q : Word} (h : frac v = some q) : isNaN v = false := by
  unfold frac at h
  split_ifs at h with hv
  exact isNaN_of_isFinite (Bool.and_eq_true_iff.1 hv).1

/-- A phase advance that has a value has the same one whichever NaN would be drawn (44_nco_mixer.md R171). -/
theorem frac_fadd_draw {a b nan q : Word} (hn : isNaN nan = true) (h : frac (fadd nan a b) = some q) (nan' : Word) :
    frac (fadd nan' a b) = some q := by
  rw [fadd_draw hn (isNaN_of_frac h)]; exact h

end Sys2Proof.Machine
end

