-- ==== Sys2Proof/Laws/Memory.lean ====
section
/-! SUPPORT. The laws of the two wavetable memories (20_memory.md R50, R53, R54): what a read after a write gives, that every
memory operation keeps the canonical form, and what a build leaves. -/

namespace Sys2Proof.Machine

/-! ### One table -/

theorem tableGet_put_same (i : Nat) (v : Word) (t : Table) : tableGet i (tablePut i v t) = .value v := by
  induction t with
  | nil => simp [tablePut, tableGet]
  | cons a rest ih =>
    obtain ⟨j, w⟩ := a
    unfold tablePut
    split_ifs with h1 h2
    · simp [tableGet]
    · simp [tableGet]
    · simp [tableGet, h2, ih]

theorem tableGet_put_other {i j : Nat} (h : j ≠ i) (v : Word) (t : Table) :
    tableGet j (tablePut i v t) = tableGet j t := by
  induction t with
  | nil => simp [tablePut, tableGet, h]
  | cons a rest ih =>
    obtain ⟨l, w⟩ := a
    unfold tablePut
    split_ifs with h1 h2
    · simp [tableGet, h]
    · subst h2; simp [tableGet, h]
    · simp [tableGet, ih]

theorem mem_tablePut {i : Nat} {v : Word} {t : Table} {e : Nat × Word} (h : e ∈ tablePut i v t) :
    e = (i, v) ∨ e ∈ t := by
  induction t with
  | nil => simpa [tablePut] using h
  | cons a rest ih =>
    obtain ⟨j, w⟩ := a
    unfold tablePut at h
    split_ifs at h with h1 h2
    · simpa using h
    · simp only [List.mem_cons] at h ⊢
      exact h.imp_right .inr
    · simp only [List.mem_cons] at h ⊢
      rcases h with h | h
      · exact .inr (.inl h)
      · exact (ih h).imp_right .inr

/-- A write keeps the entry numbers strictly rising. -/
theorem tablePut_rising (i : Nat) (v : Word) {t : Table} (h : t.Pairwise fun a b => a.1 < b.1) :
    (tablePut i v t).Pairwise fun a b => a.1 < b.1 := by
  induction t with
  | nil => simp [tablePut]
  | cons a rest ih =>
    obtain ⟨j, w⟩ := a
    have hrest := (List.pairwise_cons.1 h).2
    have hhead := (List.pairwise_cons.1 h).1
    unfold tablePut
    split_ifs with h1 h2
    · refine List.pairwise_cons.2 ⟨fun e he => ?_, h⟩
      rcases List.mem_cons.1 he with rfl | he
      · exact h1
      · exact h1.trans (hhead e he)
    · subst h2
      exact List.pairwise_cons.2 ⟨hhead, hrest⟩
    · refine List.pairwise_cons.2 ⟨fun e he => ?_, ih hrest⟩
      rcases mem_tablePut he with rfl | he
      · show j < i; omega
      · exact hhead e he

/-! ### Both tables -/

theorem Memory.read_write_same (m : Memory) (sel : Wave) (i : Nat) (v : Word) :
    (m.write sel i v).read sel i = .value v := by
  cases sel <;> exact tableGet_put_same i v _

theorem Memory.read_write_other {sel sel' : Wave} {i j : Nat} (h : ¬(sel' = sel ∧ j = i)) (m : Memory) (v : Word) :
    (m.write sel i v).read sel' j = m.read sel' j := by
  cases sel <;> cases sel' <;> first | rfl | exact tableGet_put_other (by simpa using h) v _

theorem Memory.write_wf {m : Memory} (h : m.wf) (sel : Wave) (i : Nat) (v : Word) : (m.write sel i v).wf := by
  cases sel
  · exact ⟨tablePut_rising i v h.1, h.2⟩
  · exact ⟨h.1, tablePut_rising i v h.2⟩

theorem Memory.empty_wf : Memory.empty.wf := by decide

@[simp] theorem Memory.read_empty (sel : Wave) (i : Nat) : Memory.empty.read sel i = .noValue := by
  cases sel <;> rfl

/-! ### A build -/

theorem buildTables_wf (len n : Nat) {m : Memory} (h : m.wf) : (buildTables len n m).wf := by
  induction n generalizing m with
  | zero => exact h
  | succ n ih => exact ih (Memory.write_wf (Memory.write_wf h _ _ _) _ _ _)

/-- What a build of the entries below `n` leaves: those entries as 41_wavetable.md R120 and R121 say, the others as they were. -/
theorem buildTables_read (len n : Nat) (m : Memory) (sel : Wave) (i : Nat) :
    (buildTables len n m).read sel i =
      if i < n then
        match sel with
        | .sine => .value (sinTab i len)
        | .square => .value (squareEntry (sinTab i len))
      else m.read sel i := by
  induction n generalizing m with
  | zero => simp [buildTables]
  | succ n ih =>
    rw [buildTables, ih]
    rcases Nat.lt_trichotomy i n with h | h | h
    · simp [h, Nat.lt_succ_of_lt h]
    · subst h
      rw [if_neg (Nat.lt_irrefl i), if_pos (Nat.lt_succ_self i)]
      cases sel
      · rw [Memory.read_write_other (by simp), Memory.read_write_same]
      · rw [Memory.read_write_same]
    · rw [if_neg (by omega), if_neg (by omega), Memory.read_write_other (by omega),
        Memory.read_write_other (by omega)]

end Sys2Proof.Machine
end

