-- ==== Sys2Proof/Laws/State.lean ====
section
/-! SUPPORT. The small lemmas of the state's updates, one for each field and update, so that no proof unfolds a record update. -/

namespace Sys2Proof.Machine

/-! ### Writing a number register -/

theorem reg_setReg (s : State) (r r' : NumReg) (v : Word) :
    (s.setReg r v).reg r' = if r' = r then .value v else s.reg r' := by
  cases r <;> cases r' <;> rfl

@[simp] theorem reg_setReg_same (s : State) (r : NumReg) (v : Word) : (s.setReg r v).reg r = .value v := by
  rw [reg_setReg, if_pos rfl]

theorem reg_setReg_other {r r' : NumReg} (h : r' ≠ r) (s : State) (v : Word) : (s.setReg r v).reg r' = s.reg r' := by
  rw [reg_setReg, if_neg h]

@[simp] theorem setReg_life (s : State) (r : NumReg) (v : Word) : (s.setReg r v).life = s.life := by cases r <;> rfl
@[simp] theorem setReg_tlen (s : State) (r : NumReg) (v : Word) : (s.setReg r v).tlen = s.tlen := by cases r <;> rfl
@[simp] theorem setReg_modeSel (s : State) (r : NumReg) (v : Word) : (s.setReg r v).modeSel = s.modeSel := by cases r <;> rfl
@[simp] theorem setReg_cfgErr (s : State) (r : NumReg) (v : Word) : (s.setReg r v).cfgErr = s.cfgErr := by cases r <;> rfl
@[simp] theorem setReg_seqErr (s : State) (r : NumReg) (v : Word) : (s.setReg r v).seqErr = s.seqErr := by cases r <;> rfl
@[simp] theorem setReg_illCmd (s : State) (r : NumReg) (v : Word) : (s.setReg r v).illCmd = s.illCmd := by cases r <;> rfl
@[simp] theorem setReg_mem (s : State) (r : NumReg) (v : Word) : (s.setReg r v).mem = s.mem := by cases r <;> rfl
@[simp] theorem setReg_cmd (s : State) (r : NumReg) (v : Word) : (s.setReg r v).cmd = s.cmd := by cases r <;> rfl
@[simp] theorem setReg_out (s : State) (r : NumReg) (v : Word) : (s.setReg r v).out = s.out := by cases r <;> rfl
@[simp] theorem setReg_resetIn (s : State) (r : NumReg) (v : Word) : (s.setReg r v).resetIn = s.resetIn := by cases r <;> rfl
@[simp] theorem setReg_nanDraws (s : State) (r : NumReg) (v : Word) : (s.setReg r v).nanDraws = s.nanDraws := by cases r <;> rfl
@[simp] theorem setReg_phase_phase (s : State) (v : Word) : (s.setReg .phase v).phase = .value v := rfl
@[simp] theorem setReg_phase_pinc (s : State) (v : Word) : (s.setReg .phase v).pinc = s.pinc := rfl
@[simp] theorem setReg_phase_gdb (s : State) (v : Word) : (s.setReg .phase v).gdb = s.gdb := rfl
@[simp] theorem setReg_phase_gcur (s : State) (v : Word) : (s.setReg .phase v).gcur = s.gcur := rfl
@[simp] theorem setReg_phase_gtgt (s : State) (v : Word) : (s.setReg .phase v).gtgt = s.gtgt := rfl
@[simp] theorem setReg_phase_ftgt (s : State) (v : Word) : (s.setReg .phase v).ftgt = s.ftgt := rfl
@[simp] theorem setReg_phase_flast (s : State) (v : Word) : (s.setReg .phase v).flast = s.flast := rfl
@[simp] theorem setReg_phase_fact (s : State) (v : Word) : (s.setReg .phase v).fact = s.fact := rfl
@[simp] theorem setReg_phase_srate (s : State) (v : Word) : (s.setReg .phase v).srate = s.srate := rfl
@[simp] theorem setReg_pinc_phase (s : State) (v : Word) : (s.setReg .pinc v).phase = s.phase := rfl
@[simp] theorem setReg_pinc_pinc (s : State) (v : Word) : (s.setReg .pinc v).pinc = .value v := rfl
@[simp] theorem setReg_pinc_gdb (s : State) (v : Word) : (s.setReg .pinc v).gdb = s.gdb := rfl
@[simp] theorem setReg_pinc_gcur (s : State) (v : Word) : (s.setReg .pinc v).gcur = s.gcur := rfl
@[simp] theorem setReg_pinc_gtgt (s : State) (v : Word) : (s.setReg .pinc v).gtgt = s.gtgt := rfl
@[simp] theorem setReg_pinc_ftgt (s : State) (v : Word) : (s.setReg .pinc v).ftgt = s.ftgt := rfl
@[simp] theorem setReg_pinc_flast (s : State) (v : Word) : (s.setReg .pinc v).flast = s.flast := rfl
@[simp] theorem setReg_pinc_fact (s : State) (v : Word) : (s.setReg .pinc v).fact = s.fact := rfl
@[simp] theorem setReg_pinc_srate (s : State) (v : Word) : (s.setReg .pinc v).srate = s.srate := rfl
@[simp] theorem setReg_gdb_phase (s : State) (v : Word) : (s.setReg .gdb v).phase = s.phase := rfl
@[simp] theorem setReg_gdb_pinc (s : State) (v : Word) : (s.setReg .gdb v).pinc = s.pinc := rfl
@[simp] theorem setReg_gdb_gdb (s : State) (v : Word) : (s.setReg .gdb v).gdb = .value v := rfl
@[simp] theorem setReg_gdb_gcur (s : State) (v : Word) : (s.setReg .gdb v).gcur = s.gcur := rfl
@[simp] theorem setReg_gdb_gtgt (s : State) (v : Word) : (s.setReg .gdb v).gtgt = s.gtgt := rfl
@[simp] theorem setReg_gdb_ftgt (s : State) (v : Word) : (s.setReg .gdb v).ftgt = s.ftgt := rfl
@[simp] theorem setReg_gdb_flast (s : State) (v : Word) : (s.setReg .gdb v).flast = s.flast := rfl
@[simp] theorem setReg_gdb_fact (s : State) (v : Word) : (s.setReg .gdb v).fact = s.fact := rfl
@[simp] theorem setReg_gdb_srate (s : State) (v : Word) : (s.setReg .gdb v).srate = s.srate := rfl
@[simp] theorem setReg_gcur_phase (s : State) (v : Word) : (s.setReg .gcur v).phase = s.phase := rfl
@[simp] theorem setReg_gcur_pinc (s : State) (v : Word) : (s.setReg .gcur v).pinc = s.pinc := rfl
@[simp] theorem setReg_gcur_gdb (s : State) (v : Word) : (s.setReg .gcur v).gdb = s.gdb := rfl
@[simp] theorem setReg_gcur_gcur (s : State) (v : Word) : (s.setReg .gcur v).gcur = .value v := rfl
@[simp] theorem setReg_gcur_gtgt (s : State) (v : Word) : (s.setReg .gcur v).gtgt = s.gtgt := rfl
@[simp] theorem setReg_gcur_ftgt (s : State) (v : Word) : (s.setReg .gcur v).ftgt = s.ftgt := rfl
@[simp] theorem setReg_gcur_flast (s : State) (v : Word) : (s.setReg .gcur v).flast = s.flast := rfl
@[simp] theorem setReg_gcur_fact (s : State) (v : Word) : (s.setReg .gcur v).fact = s.fact := rfl
@[simp] theorem setReg_gcur_srate (s : State) (v : Word) : (s.setReg .gcur v).srate = s.srate := rfl
@[simp] theorem setReg_gtgt_phase (s : State) (v : Word) : (s.setReg .gtgt v).phase = s.phase := rfl
@[simp] theorem setReg_gtgt_pinc (s : State) (v : Word) : (s.setReg .gtgt v).pinc = s.pinc := rfl
@[simp] theorem setReg_gtgt_gdb (s : State) (v : Word) : (s.setReg .gtgt v).gdb = s.gdb := rfl
@[simp] theorem setReg_gtgt_gcur (s : State) (v : Word) : (s.setReg .gtgt v).gcur = s.gcur := rfl
@[simp] theorem setReg_gtgt_gtgt (s : State) (v : Word) : (s.setReg .gtgt v).gtgt = .value v := rfl
@[simp] theorem setReg_gtgt_ftgt (s : State) (v : Word) : (s.setReg .gtgt v).ftgt = s.ftgt := rfl
@[simp] theorem setReg_gtgt_flast (s : State) (v : Word) : (s.setReg .gtgt v).flast = s.flast := rfl
@[simp] theorem setReg_gtgt_fact (s : State) (v : Word) : (s.setReg .gtgt v).fact = s.fact := rfl
@[simp] theorem setReg_gtgt_srate (s : State) (v : Word) : (s.setReg .gtgt v).srate = s.srate := rfl
@[simp] theorem setReg_ftgt_phase (s : State) (v : Word) : (s.setReg .ftgt v).phase = s.phase := rfl
@[simp] theorem setReg_ftgt_pinc (s : State) (v : Word) : (s.setReg .ftgt v).pinc = s.pinc := rfl
@[simp] theorem setReg_ftgt_gdb (s : State) (v : Word) : (s.setReg .ftgt v).gdb = s.gdb := rfl
@[simp] theorem setReg_ftgt_gcur (s : State) (v : Word) : (s.setReg .ftgt v).gcur = s.gcur := rfl
@[simp] theorem setReg_ftgt_gtgt (s : State) (v : Word) : (s.setReg .ftgt v).gtgt = s.gtgt := rfl
@[simp] theorem setReg_ftgt_ftgt (s : State) (v : Word) : (s.setReg .ftgt v).ftgt = .value v := rfl
@[simp] theorem setReg_ftgt_flast (s : State) (v : Word) : (s.setReg .ftgt v).flast = s.flast := rfl
@[simp] theorem setReg_ftgt_fact (s : State) (v : Word) : (s.setReg .ftgt v).fact = s.fact := rfl
@[simp] theorem setReg_ftgt_srate (s : State) (v : Word) : (s.setReg .ftgt v).srate = s.srate := rfl
@[simp] theorem setReg_flast_phase (s : State) (v : Word) : (s.setReg .flast v).phase = s.phase := rfl
@[simp] theorem setReg_flast_pinc (s : State) (v : Word) : (s.setReg .flast v).pinc = s.pinc := rfl
@[simp] theorem setReg_flast_gdb (s : State) (v : Word) : (s.setReg .flast v).gdb = s.gdb := rfl
@[simp] theorem setReg_flast_gcur (s : State) (v : Word) : (s.setReg .flast v).gcur = s.gcur := rfl
@[simp] theorem setReg_flast_gtgt (s : State) (v : Word) : (s.setReg .flast v).gtgt = s.gtgt := rfl
@[simp] theorem setReg_flast_ftgt (s : State) (v : Word) : (s.setReg .flast v).ftgt = s.ftgt := rfl
@[simp] theorem setReg_flast_flast (s : State) (v : Word) : (s.setReg .flast v).flast = .value v := rfl
@[simp] theorem setReg_flast_fact (s : State) (v : Word) : (s.setReg .flast v).fact = s.fact := rfl
@[simp] theorem setReg_flast_srate (s : State) (v : Word) : (s.setReg .flast v).srate = s.srate := rfl
@[simp] theorem setReg_fact_phase (s : State) (v : Word) : (s.setReg .fact v).phase = s.phase := rfl
@[simp] theorem setReg_fact_pinc (s : State) (v : Word) : (s.setReg .fact v).pinc = s.pinc := rfl
@[simp] theorem setReg_fact_gdb (s : State) (v : Word) : (s.setReg .fact v).gdb = s.gdb := rfl
@[simp] theorem setReg_fact_gcur (s : State) (v : Word) : (s.setReg .fact v).gcur = s.gcur := rfl
@[simp] theorem setReg_fact_gtgt (s : State) (v : Word) : (s.setReg .fact v).gtgt = s.gtgt := rfl
@[simp] theorem setReg_fact_ftgt (s : State) (v : Word) : (s.setReg .fact v).ftgt = s.ftgt := rfl
@[simp] theorem setReg_fact_flast (s : State) (v : Word) : (s.setReg .fact v).flast = s.flast := rfl
@[simp] theorem setReg_fact_fact (s : State) (v : Word) : (s.setReg .fact v).fact = .value v := rfl
@[simp] theorem setReg_fact_srate (s : State) (v : Word) : (s.setReg .fact v).srate = s.srate := rfl
@[simp] theorem setReg_srate_phase (s : State) (v : Word) : (s.setReg .srate v).phase = s.phase := rfl
@[simp] theorem setReg_srate_pinc (s : State) (v : Word) : (s.setReg .srate v).pinc = s.pinc := rfl
@[simp] theorem setReg_srate_gdb (s : State) (v : Word) : (s.setReg .srate v).gdb = s.gdb := rfl
@[simp] theorem setReg_srate_gcur (s : State) (v : Word) : (s.setReg .srate v).gcur = s.gcur := rfl
@[simp] theorem setReg_srate_gtgt (s : State) (v : Word) : (s.setReg .srate v).gtgt = s.gtgt := rfl
@[simp] theorem setReg_srate_ftgt (s : State) (v : Word) : (s.setReg .srate v).ftgt = s.ftgt := rfl
@[simp] theorem setReg_srate_flast (s : State) (v : Word) : (s.setReg .srate v).flast = s.flast := rfl
@[simp] theorem setReg_srate_fact (s : State) (v : Word) : (s.setReg .srate v).fact = s.fact := rfl
@[simp] theorem setReg_srate_srate (s : State) (v : Word) : (s.setReg .srate v).srate = .value v := rfl

/-! ### Reading a number register by name -/

@[simp] theorem reg_phase (s : State) : s.reg .phase = s.phase := rfl
@[simp] theorem reg_pinc (s : State) : s.reg .pinc = s.pinc := rfl
@[simp] theorem reg_gdb (s : State) : s.reg .gdb = s.gdb := rfl
@[simp] theorem reg_gcur (s : State) : s.reg .gcur = s.gcur := rfl
@[simp] theorem reg_gtgt (s : State) : s.reg .gtgt = s.gtgt := rfl
@[simp] theorem reg_ftgt (s : State) : s.reg .ftgt = s.ftgt := rfl
@[simp] theorem reg_flast (s : State) : s.reg .flast = s.flast := rfl
@[simp] theorem reg_fact (s : State) : s.reg .fact = s.fact := rfl
@[simp] theorem reg_srate (s : State) : s.reg .srate = s.srate := rfl

/-! ### Passing draws -/

@[simp] theorem passDraws_life (s : State) (n : Nat) : (s.passDraws n).life = s.life := rfl
@[simp] theorem passDraws_phase (s : State) (n : Nat) : (s.passDraws n).phase = s.phase := rfl
@[simp] theorem passDraws_pinc (s : State) (n : Nat) : (s.passDraws n).pinc = s.pinc := rfl
@[simp] theorem passDraws_gdb (s : State) (n : Nat) : (s.passDraws n).gdb = s.gdb := rfl
@[simp] theorem passDraws_gcur (s : State) (n : Nat) : (s.passDraws n).gcur = s.gcur := rfl
@[simp] theorem passDraws_gtgt (s : State) (n : Nat) : (s.passDraws n).gtgt = s.gtgt := rfl
@[simp] theorem passDraws_ftgt (s : State) (n : Nat) : (s.passDraws n).ftgt = s.ftgt := rfl
@[simp] theorem passDraws_flast (s : State) (n : Nat) : (s.passDraws n).flast = s.flast := rfl
@[simp] theorem passDraws_fact (s : State) (n : Nat) : (s.passDraws n).fact = s.fact := rfl
@[simp] theorem passDraws_srate (s : State) (n : Nat) : (s.passDraws n).srate = s.srate := rfl
@[simp] theorem passDraws_tlen (s : State) (n : Nat) : (s.passDraws n).tlen = s.tlen := rfl
@[simp] theorem passDraws_modeSel (s : State) (n : Nat) : (s.passDraws n).modeSel = s.modeSel := rfl
@[simp] theorem passDraws_cfgErr (s : State) (n : Nat) : (s.passDraws n).cfgErr = s.cfgErr := rfl
@[simp] theorem passDraws_seqErr (s : State) (n : Nat) : (s.passDraws n).seqErr = s.seqErr := rfl
@[simp] theorem passDraws_illCmd (s : State) (n : Nat) : (s.passDraws n).illCmd = s.illCmd := rfl
@[simp] theorem passDraws_mem (s : State) (n : Nat) : (s.passDraws n).mem = s.mem := rfl
@[simp] theorem passDraws_cmd (s : State) (n : Nat) : (s.passDraws n).cmd = s.cmd := rfl
@[simp] theorem passDraws_out (s : State) (n : Nat) : (s.passDraws n).out = s.out := rfl
@[simp] theorem passDraws_resetIn (s : State) (n : Nat) : (s.passDraws n).resetIn = s.resetIn := rfl
@[simp] theorem passDraws_nanDraws (s : State) (n : Nat) : (s.passDraws n).nanDraws = s.nanDraws + n := rfl
@[simp] theorem passDraws_reg (s : State) (n : Nat) (r : NumReg) : (s.passDraws n).reg r = s.reg r := by cases r <;> rfl

/-! ### Appending to the output -/

@[simp] theorem pushOut_life (s : State) (v : Word) : (s.pushOut v).life = s.life := rfl
@[simp] theorem pushOut_phase (s : State) (v : Word) : (s.pushOut v).phase = s.phase := rfl
@[simp] theorem pushOut_pinc (s : State) (v : Word) : (s.pushOut v).pinc = s.pinc := rfl
@[simp] theorem pushOut_gdb (s : State) (v : Word) : (s.pushOut v).gdb = s.gdb := rfl
@[simp] theorem pushOut_gcur (s : State) (v : Word) : (s.pushOut v).gcur = s.gcur := rfl
@[simp] theorem pushOut_gtgt (s : State) (v : Word) : (s.pushOut v).gtgt = s.gtgt := rfl
@[simp] theorem pushOut_ftgt (s : State) (v : Word) : (s.pushOut v).ftgt = s.ftgt := rfl
@[simp] theorem pushOut_flast (s : State) (v : Word) : (s.pushOut v).flast = s.flast := rfl
@[simp] theorem pushOut_fact (s : State) (v : Word) : (s.pushOut v).fact = s.fact := rfl
@[simp] theorem pushOut_srate (s : State) (v : Word) : (s.pushOut v).srate = s.srate := rfl
@[simp] theorem pushOut_tlen (s : State) (v : Word) : (s.pushOut v).tlen = s.tlen := rfl
@[simp] theorem pushOut_modeSel (s : State) (v : Word) : (s.pushOut v).modeSel = s.modeSel := rfl
@[simp] theorem pushOut_cfgErr (s : State) (v : Word) : (s.pushOut v).cfgErr = s.cfgErr := rfl
@[simp] theorem pushOut_seqErr (s : State) (v : Word) : (s.pushOut v).seqErr = s.seqErr := rfl
@[simp] theorem pushOut_illCmd (s : State) (v : Word) : (s.pushOut v).illCmd = s.illCmd := rfl
@[simp] theorem pushOut_mem (s : State) (v : Word) : (s.pushOut v).mem = s.mem := rfl
@[simp] theorem pushOut_cmd (s : State) (v : Word) : (s.pushOut v).cmd = s.cmd := rfl
@[simp] theorem pushOut_out (s : State) (v : Word) : (s.pushOut v).out = s.out ++ [v] := rfl
@[simp] theorem pushOut_resetIn (s : State) (v : Word) : (s.pushOut v).resetIn = s.resetIn := rfl
@[simp] theorem pushOut_nanDraws (s : State) (v : Word) : (s.pushOut v).nanDraws = s.nanDraws := rfl
@[simp] theorem pushOut_reg (s : State) (v : Word) (r : NumReg) : (s.pushOut v).reg r = s.reg r := by cases r <;> rfl

/-! ### Raising `cfgErr` -/

@[simp] theorem raise_cfgErr_life (s : State) : (raise .cfgErr s).life = s.life := rfl
@[simp] theorem raise_cfgErr_phase (s : State) : (raise .cfgErr s).phase = s.phase := rfl
@[simp] theorem raise_cfgErr_pinc (s : State) : (raise .cfgErr s).pinc = s.pinc := rfl
@[simp] theorem raise_cfgErr_gdb (s : State) : (raise .cfgErr s).gdb = s.gdb := rfl
@[simp] theorem raise_cfgErr_gcur (s : State) : (raise .cfgErr s).gcur = s.gcur := rfl
@[simp] theorem raise_cfgErr_gtgt (s : State) : (raise .cfgErr s).gtgt = s.gtgt := rfl
@[simp] theorem raise_cfgErr_ftgt (s : State) : (raise .cfgErr s).ftgt = s.ftgt := rfl
@[simp] theorem raise_cfgErr_flast (s : State) : (raise .cfgErr s).flast = s.flast := rfl
@[simp] theorem raise_cfgErr_fact (s : State) : (raise .cfgErr s).fact = s.fact := rfl
@[simp] theorem raise_cfgErr_srate (s : State) : (raise .cfgErr s).srate = s.srate := rfl
@[simp] theorem raise_cfgErr_tlen (s : State) : (raise .cfgErr s).tlen = s.tlen := rfl
@[simp] theorem raise_cfgErr_modeSel (s : State) : (raise .cfgErr s).modeSel = s.modeSel := rfl
@[simp] theorem raise_cfgErr_cfgErr (s : State) : (raise .cfgErr s).cfgErr = true := rfl
@[simp] theorem raise_cfgErr_seqErr (s : State) : (raise .cfgErr s).seqErr = s.seqErr := rfl
@[simp] theorem raise_cfgErr_illCmd (s : State) : (raise .cfgErr s).illCmd = s.illCmd := rfl
@[simp] theorem raise_cfgErr_mem (s : State) : (raise .cfgErr s).mem = s.mem := rfl
@[simp] theorem raise_cfgErr_cmd (s : State) : (raise .cfgErr s).cmd = s.cmd := rfl
@[simp] theorem raise_cfgErr_out (s : State) : (raise .cfgErr s).out = s.out := rfl
@[simp] theorem raise_cfgErr_resetIn (s : State) : (raise .cfgErr s).resetIn = s.resetIn := rfl
@[simp] theorem raise_cfgErr_nanDraws (s : State) : (raise .cfgErr s).nanDraws = s.nanDraws := rfl

/-! ### Raising `seqErr` -/

@[simp] theorem raise_seqErr_life (s : State) : (raise .seqErr s).life = s.life := rfl
@[simp] theorem raise_seqErr_phase (s : State) : (raise .seqErr s).phase = s.phase := rfl
@[simp] theorem raise_seqErr_pinc (s : State) : (raise .seqErr s).pinc = s.pinc := rfl
@[simp] theorem raise_seqErr_gdb (s : State) : (raise .seqErr s).gdb = s.gdb := rfl
@[simp] theorem raise_seqErr_gcur (s : State) : (raise .seqErr s).gcur = s.gcur := rfl
@[simp] theorem raise_seqErr_gtgt (s : State) : (raise .seqErr s).gtgt = s.gtgt := rfl
@[simp] theorem raise_seqErr_ftgt (s : State) : (raise .seqErr s).ftgt = s.ftgt := rfl
@[simp] theorem raise_seqErr_flast (s : State) : (raise .seqErr s).flast = s.flast := rfl
@[simp] theorem raise_seqErr_fact (s : State) : (raise .seqErr s).fact = s.fact := rfl
@[simp] theorem raise_seqErr_srate (s : State) : (raise .seqErr s).srate = s.srate := rfl
@[simp] theorem raise_seqErr_tlen (s : State) : (raise .seqErr s).tlen = s.tlen := rfl
@[simp] theorem raise_seqErr_modeSel (s : State) : (raise .seqErr s).modeSel = s.modeSel := rfl
@[simp] theorem raise_seqErr_cfgErr (s : State) : (raise .seqErr s).cfgErr = s.cfgErr := rfl
@[simp] theorem raise_seqErr_seqErr (s : State) : (raise .seqErr s).seqErr = true := rfl
@[simp] theorem raise_seqErr_illCmd (s : State) : (raise .seqErr s).illCmd = s.illCmd := rfl
@[simp] theorem raise_seqErr_mem (s : State) : (raise .seqErr s).mem = s.mem := rfl
@[simp] theorem raise_seqErr_cmd (s : State) : (raise .seqErr s).cmd = s.cmd := rfl
@[simp] theorem raise_seqErr_out (s : State) : (raise .seqErr s).out = s.out := rfl
@[simp] theorem raise_seqErr_resetIn (s : State) : (raise .seqErr s).resetIn = s.resetIn := rfl
@[simp] theorem raise_seqErr_nanDraws (s : State) : (raise .seqErr s).nanDraws = s.nanDraws := rfl

/-! ### Raising `illCmd` -/

@[simp] theorem raise_illCmd_life (s : State) : (raise .illCmd s).life = s.life := rfl
@[simp] theorem raise_illCmd_phase (s : State) : (raise .illCmd s).phase = s.phase := rfl
@[simp] theorem raise_illCmd_pinc (s : State) : (raise .illCmd s).pinc = s.pinc := rfl
@[simp] theorem raise_illCmd_gdb (s : State) : (raise .illCmd s).gdb = s.gdb := rfl
@[simp] theorem raise_illCmd_gcur (s : State) : (raise .illCmd s).gcur = s.gcur := rfl
@[simp] theorem raise_illCmd_gtgt (s : State) : (raise .illCmd s).gtgt = s.gtgt := rfl
@[simp] theorem raise_illCmd_ftgt (s : State) : (raise .illCmd s).ftgt = s.ftgt := rfl
@[simp] theorem raise_illCmd_flast (s : State) : (raise .illCmd s).flast = s.flast := rfl
@[simp] theorem raise_illCmd_fact (s : State) : (raise .illCmd s).fact = s.fact := rfl
@[simp] theorem raise_illCmd_srate (s : State) : (raise .illCmd s).srate = s.srate := rfl
@[simp] theorem raise_illCmd_tlen (s : State) : (raise .illCmd s).tlen = s.tlen := rfl
@[simp] theorem raise_illCmd_modeSel (s : State) : (raise .illCmd s).modeSel = s.modeSel := rfl
@[simp] theorem raise_illCmd_cfgErr (s : State) : (raise .illCmd s).cfgErr = s.cfgErr := rfl
@[simp] theorem raise_illCmd_seqErr (s : State) : (raise .illCmd s).seqErr = s.seqErr := rfl
@[simp] theorem raise_illCmd_illCmd (s : State) : (raise .illCmd s).illCmd = true := rfl
@[simp] theorem raise_illCmd_mem (s : State) : (raise .illCmd s).mem = s.mem := rfl
@[simp] theorem raise_illCmd_cmd (s : State) : (raise .illCmd s).cmd = s.cmd := rfl
@[simp] theorem raise_illCmd_out (s : State) : (raise .illCmd s).out = s.out := rfl
@[simp] theorem raise_illCmd_resetIn (s : State) : (raise .illCmd s).resetIn = s.resetIn := rfl
@[simp] theorem raise_illCmd_nanDraws (s : State) : (raise .illCmd s).nanDraws = s.nanDraws := rfl

@[simp] theorem raise_reg (f : FaultFlag) (s : State) (r : NumReg) : (raise f s).reg r = s.reg r := by cases f <;> cases r <;> rfl

theorem raise_flag (f g : FaultFlag) (s : State) : (raise f s).flag g = if g = f then true else s.flag g := by
  cases f <;> cases g <;> rfl


/-! ### Words from the host -/

@[simp] theorem receive_life (s : State) (ws : List Word) : (s.receive ws).life = s.life := rfl
@[simp] theorem receive_phase (s : State) (ws : List Word) : (s.receive ws).phase = s.phase := rfl
@[simp] theorem receive_pinc (s : State) (ws : List Word) : (s.receive ws).pinc = s.pinc := rfl
@[simp] theorem receive_gdb (s : State) (ws : List Word) : (s.receive ws).gdb = s.gdb := rfl
@[simp] theorem receive_gcur (s : State) (ws : List Word) : (s.receive ws).gcur = s.gcur := rfl
@[simp] theorem receive_gtgt (s : State) (ws : List Word) : (s.receive ws).gtgt = s.gtgt := rfl
@[simp] theorem receive_ftgt (s : State) (ws : List Word) : (s.receive ws).ftgt = s.ftgt := rfl
@[simp] theorem receive_flast (s : State) (ws : List Word) : (s.receive ws).flast = s.flast := rfl
@[simp] theorem receive_fact (s : State) (ws : List Word) : (s.receive ws).fact = s.fact := rfl
@[simp] theorem receive_srate (s : State) (ws : List Word) : (s.receive ws).srate = s.srate := rfl
@[simp] theorem receive_tlen (s : State) (ws : List Word) : (s.receive ws).tlen = s.tlen := rfl
@[simp] theorem receive_modeSel (s : State) (ws : List Word) : (s.receive ws).modeSel = s.modeSel := rfl
@[simp] theorem receive_cfgErr (s : State) (ws : List Word) : (s.receive ws).cfgErr = s.cfgErr := rfl
@[simp] theorem receive_seqErr (s : State) (ws : List Word) : (s.receive ws).seqErr = s.seqErr := rfl
@[simp] theorem receive_illCmd (s : State) (ws : List Word) : (s.receive ws).illCmd = s.illCmd := rfl
@[simp] theorem receive_mem (s : State) (ws : List Word) : (s.receive ws).mem = s.mem := rfl
@[simp] theorem receive_cmd (s : State) (ws : List Word) : (s.receive ws).cmd = s.cmd ++ ws := rfl
@[simp] theorem receive_out (s : State) (ws : List Word) : (s.receive ws).out = s.out := rfl
@[simp] theorem receive_resetIn (s : State) (ws : List Word) : (s.receive ws).resetIn = s.resetIn := rfl
@[simp] theorem receive_nanDraws (s : State) (ws : List Word) : (s.receive ws).nanDraws = s.nanDraws := rfl

/-! ### The reset input -/

@[simp] theorem assertReset_life (s : State) : (s.assertReset).life = s.life := rfl
@[simp] theorem assertReset_phase (s : State) : (s.assertReset).phase = s.phase := rfl
@[simp] theorem assertReset_pinc (s : State) : (s.assertReset).pinc = s.pinc := rfl
@[simp] theorem assertReset_gdb (s : State) : (s.assertReset).gdb = s.gdb := rfl
@[simp] theorem assertReset_gcur (s : State) : (s.assertReset).gcur = s.gcur := rfl
@[simp] theorem assertReset_gtgt (s : State) : (s.assertReset).gtgt = s.gtgt := rfl
@[simp] theorem assertReset_ftgt (s : State) : (s.assertReset).ftgt = s.ftgt := rfl
@[simp] theorem assertReset_flast (s : State) : (s.assertReset).flast = s.flast := rfl
@[simp] theorem assertReset_fact (s : State) : (s.assertReset).fact = s.fact := rfl
@[simp] theorem assertReset_srate (s : State) : (s.assertReset).srate = s.srate := rfl
@[simp] theorem assertReset_tlen (s : State) : (s.assertReset).tlen = s.tlen := rfl
@[simp] theorem assertReset_modeSel (s : State) : (s.assertReset).modeSel = s.modeSel := rfl
@[simp] theorem assertReset_cfgErr (s : State) : (s.assertReset).cfgErr = s.cfgErr := rfl
@[simp] theorem assertReset_seqErr (s : State) : (s.assertReset).seqErr = s.seqErr := rfl
@[simp] theorem assertReset_illCmd (s : State) : (s.assertReset).illCmd = s.illCmd := rfl
@[simp] theorem assertReset_mem (s : State) : (s.assertReset).mem = s.mem := rfl
@[simp] theorem assertReset_cmd (s : State) : (s.assertReset).cmd = s.cmd := rfl
@[simp] theorem assertReset_out (s : State) : (s.assertReset).out = s.out := rfl
@[simp] theorem assertReset_resetIn (s : State) : (s.assertReset).resetIn = true := rfl
@[simp] theorem assertReset_nanDraws (s : State) : (s.assertReset).nanDraws = s.nanDraws := rfl

/-! ### Placing the next words -/

@[simp] theorem withCommandWords_life (s : State) (ws : List Word) : (s.withCommandWords ws).life = s.life := rfl
@[simp] theorem withCommandWords_phase (s : State) (ws : List Word) : (s.withCommandWords ws).phase = s.phase := rfl
@[simp] theorem withCommandWords_pinc (s : State) (ws : List Word) : (s.withCommandWords ws).pinc = s.pinc := rfl
@[simp] theorem withCommandWords_gdb (s : State) (ws : List Word) : (s.withCommandWords ws).gdb = s.gdb := rfl
@[simp] theorem withCommandWords_gcur (s : State) (ws : List Word) : (s.withCommandWords ws).gcur = s.gcur := rfl
@[simp] theorem withCommandWords_gtgt (s : State) (ws : List Word) : (s.withCommandWords ws).gtgt = s.gtgt := rfl
@[simp] theorem withCommandWords_ftgt (s : State) (ws : List Word) : (s.withCommandWords ws).ftgt = s.ftgt := rfl
@[simp] theorem withCommandWords_flast (s : State) (ws : List Word) : (s.withCommandWords ws).flast = s.flast := rfl
@[simp] theorem withCommandWords_fact (s : State) (ws : List Word) : (s.withCommandWords ws).fact = s.fact := rfl
@[simp] theorem withCommandWords_srate (s : State) (ws : List Word) : (s.withCommandWords ws).srate = s.srate := rfl
@[simp] theorem withCommandWords_tlen (s : State) (ws : List Word) : (s.withCommandWords ws).tlen = s.tlen := rfl
@[simp] theorem withCommandWords_modeSel (s : State) (ws : List Word) : (s.withCommandWords ws).modeSel = s.modeSel := rfl
@[simp] theorem withCommandWords_cfgErr (s : State) (ws : List Word) : (s.withCommandWords ws).cfgErr = s.cfgErr := rfl
@[simp] theorem withCommandWords_seqErr (s : State) (ws : List Word) : (s.withCommandWords ws).seqErr = s.seqErr := rfl
@[simp] theorem withCommandWords_illCmd (s : State) (ws : List Word) : (s.withCommandWords ws).illCmd = false := rfl
@[simp] theorem withCommandWords_mem (s : State) (ws : List Word) : (s.withCommandWords ws).mem = s.mem := rfl
@[simp] theorem withCommandWords_cmd (s : State) (ws : List Word) : (s.withCommandWords ws).cmd = ws := rfl
@[simp] theorem withCommandWords_out (s : State) (ws : List Word) : (s.withCommandWords ws).out = s.out := rfl
@[simp] theorem withCommandWords_resetIn (s : State) (ws : List Word) : (s.withCommandWords ws).resetIn = false := rfl
@[simp] theorem withCommandWords_nanDraws (s : State) (ws : List Word) : (s.withCommandWords ws).nanDraws = s.nanDraws := rfl

/-! ### Hardware reset -/

@[simp] theorem hardwareReset_life (s : State) : (hardwareReset s).life = .unbuilt := rfl
@[simp] theorem hardwareReset_phase (s : State) : (hardwareReset s).phase = .noValue := rfl
@[simp] theorem hardwareReset_pinc (s : State) : (hardwareReset s).pinc = .noValue := rfl
@[simp] theorem hardwareReset_gdb (s : State) : (hardwareReset s).gdb = .noValue := rfl
@[simp] theorem hardwareReset_gcur (s : State) : (hardwareReset s).gcur = .noValue := rfl
@[simp] theorem hardwareReset_gtgt (s : State) : (hardwareReset s).gtgt = .noValue := rfl
@[simp] theorem hardwareReset_ftgt (s : State) : (hardwareReset s).ftgt = .noValue := rfl
@[simp] theorem hardwareReset_flast (s : State) : (hardwareReset s).flast = .noValue := rfl
@[simp] theorem hardwareReset_fact (s : State) : (hardwareReset s).fact = .noValue := rfl
@[simp] theorem hardwareReset_srate (s : State) : (hardwareReset s).srate = .noValue := rfl
@[simp] theorem hardwareReset_tlen (s : State) : (hardwareReset s).tlen = .noValue := rfl
@[simp] theorem hardwareReset_modeSel (s : State) : (hardwareReset s).modeSel = .sine := rfl
@[simp] theorem hardwareReset_cfgErr (s : State) : (hardwareReset s).cfgErr = false := rfl
@[simp] theorem hardwareReset_seqErr (s : State) : (hardwareReset s).seqErr = false := rfl
@[simp] theorem hardwareReset_illCmd (s : State) : (hardwareReset s).illCmd = false := rfl
@[simp] theorem hardwareReset_mem (s : State) : (hardwareReset s).mem = Memory.empty := rfl
@[simp] theorem hardwareReset_cmd (s : State) : (hardwareReset s).cmd = [] := rfl
@[simp] theorem hardwareReset_out (s : State) : (hardwareReset s).out = s.out := rfl
@[simp] theorem hardwareReset_resetIn (s : State) : (hardwareReset s).resetIn = false := rfl
@[simp] theorem hardwareReset_nanDraws (s : State) : (hardwareReset s).nanDraws = s.nanDraws := rfl
@[simp] theorem hardwareReset_reg (s : State) (r : NumReg) : (hardwareReset s).reg r = .noValue := by cases r <;> rfl
@[simp] theorem reset_reg (r : NumReg) : State.reset.reg r = .noValue := by cases r <;> rfl

/-! ### STATUS -/

/-- `STATUS` as a sum of its fields (10_state.md R34). -/
theorem status_eq (s : State) :
    s.status = BitVec.ofNat 32
      (lifeCode s.life + 4 * waveCode s.modeSel + 16 * s.cfgErr.toNat + 32 * s.seqErr.toNat + 64 * s.illCmd.toNat) := by
  unfold State.status
  generalize s.life = l
  generalize s.modeSel = m
  generalize s.cfgErr = c
  generalize s.seqErr = q
  generalize s.illCmd = i
  cases l <;> cases m <;> cases c <;> cases q <;> cases i <;> decide

end Sys2Proof.Machine
end

