-- ==== Sys2Proof/Laws/Ops.lean ====
section
/-! SUPPORT. For each shared operation of Machine/Ops.lean, once, everything it can do: what it answers on a good operand, and what
follows when it answers a next state. -/

namespace Sys2Proof.Machine

/-! ### Sequencing -/

@[simp] theorem andThen_next (s : State) (k : State → Result) : andThen (.next s) k = k s := rfl
@[simp] theorem andThen_fault (e : Fault) (k : State → Result) : andThen (.fault e) k = .fault e := rfl
@[simp] theorem andThen_refused (e : Refusal) (k : State → Result) : andThen (.refused e) k = .refused e := rfl

theorem andThen_eq_next {r : Result} {k : State → Result} {t : State} (h : andThen r k = .next t) :
    ∃ s, r = .next s ∧ k s = .next t := by
  cases r with
  | next s => exact ⟨s, rfl, h⟩
  | fault e => cases h
  | refused e => cases h

theorem andThen_assoc (r : Result) (k l : State → Result) :
    andThen (andThen r k) l = andThen r fun s => andThen (k s) l := by
  cases r <;> rfl

/-! ### Reads -/

theorem readHeld_value {α : Type} (p : Place) (v : α) (k : α → Result) : readHeld p (.value v) k = k v := rfl

theorem readHeld_eq_next {α : Type} {p : Place} {h : Held α} {k : α → Result} {t : State}
    (he : readHeld p h k = .next t) : ∃ v, h = .value v ∧ k v = .next t := by
  cases h with
  | noValue => cases he
  | value v => exact ⟨v, rfl, he⟩

theorem readReg_value {r : NumReg} {s : State} {v : Word} (h : s.reg r = .value v) (k : Word → Result) :
    readReg r s k = k v := by
  rw [readReg, h, readHeld_value]

theorem readReg_eq_next {r : NumReg} {s : State} {k : Word → Result} {t : State} (h : readReg r s k = .next t) :
    ∃ v, s.reg r = .value v ∧ k v = .next t := readHeld_eq_next h

theorem readTlen_value {s : State} {len : Count} (h : s.tlen = .value len) (k : Count → Result) :
    readTlen s k = k len := by
  rw [readTlen, h, readHeld_value]

theorem readTlen_eq_next {s : State} {k : Count → Result} {t : State} (h : readTlen s k = .next t) :
    ∃ len, s.tlen = .value len ∧ k len = .next t := readHeld_eq_next h

theorem tabRead_value {sel : Wave} {idx : Nat} {s : State} {len : Count} {w : Word} (hl : s.tlen = .value len)
    (hi : idx < len.toNat) (hw : s.mem.read sel idx = .value w) (k : Word → Result) :
    tabRead sel idx s k = k w := by
  rw [tabRead, readTlen_value hl, if_pos hi, hw, readHeld_value]

theorem tabRead_eq_next {sel : Wave} {idx : Nat} {s : State} {k : Word → Result} {t : State}
    (h : tabRead sel idx s k = .next t) :
    ∃ len w, s.tlen = .value len ∧ idx < len.toNat ∧ s.mem.read sel idx = .value w ∧ k w = .next t := by
  obtain ⟨len, hl, h⟩ := readTlen_eq_next h
  split_ifs at h with hi
  · obtain ⟨w, hw, h⟩ := readHeld_eq_next h
    exact ⟨len, w, hl, hi, hw, h⟩

theorem withIndex_some {v : Word} {n : Nat} (h : toIndex v = some n) (k : Nat → Result) : withIndex v k = k n := by
  rw [withIndex, h]

theorem withIndex_eq_next {v : Word} {k : Nat → Result} {t : State} (h : withIndex v k = .next t) :
    ∃ n, toIndex v = some n ∧ k n = .next t := by
  unfold withIndex at h
  split at h
  · exact ⟨_, ‹_›, h⟩
  · cases h

theorem withFrac_some {v w : Word} (h : frac v = some w) (k : Word → Result) : withFrac v k = k w := by
  rw [withFrac, h]

theorem withFrac_eq_next {v : Word} {k : Word → Result} {t : State} (h : withFrac v k = .next t) :
    ∃ w, frac v = some w ∧ k w = .next t := by
  unfold withFrac at h
  split at h
  · exact ⟨_, ‹_›, h⟩
  · cases h

/-! ### The lifecycle check -/

@[simp] theorem ifLegal_true (s : State) (k : Result) : ifLegal true s k = k := rfl
@[simp] theorem ifLegal_false (s : State) (k : Result) : ifLegal false s k = .next (raise .seqErr s) := rfl

theorem ifLegal_pos {c : Bool} (h : c = true) (s : State) (k : Result) : ifLegal c s k = k := by rw [h]; rfl

theorem ifLegal_neg {c : Bool} (h : c = false) (s : State) (k : Result) : ifLegal c s k = .next (raise .seqErr s) := by
  rw [h]; rfl

/-- A checked command is either legal and does its work, or sets `SEQ_ERR` and nothing else. -/
theorem ifLegal_eq_next {c : Bool} {s : State} {k : Result} {t : State} (h : ifLegal c s k = .next t) :
    c = true ∧ k = .next t ∨ c = false ∧ t = raise .seqErr s := by
  cases c with
  | true => exact .inl ⟨rfl, h⟩
  | false => cases h; exact .inr ⟨rfl, rfl⟩

end Sys2Proof.Machine
end

