-- ==== Sys2Proof/Laws/Commands.lean ====
section
/-! SUPPORT. For each meaning and for the step, once, everything it can do when it answers a next state; and what it answers when
the registers it reads hold values. The provers cite these instead of unfolding a meaning. -/

namespace Sys2Proof.Machine

/-! ### The steps of the per-block update -/

/-- The state after step 1 (43_smoother.md R151), the stored gain being `old`. -/
def latchGainState (g old : Word) (s : State) : State :=
  { s with
    gtgt := if differs (sanG g old) old then .value (g2l (nanAt s.nanDraws) (clampDb (sanG g old))) else s.gtgt
    gdb := .value (sanG g old)
    nanDraws := s.nanDraws + 1 }

/-- The state after step 2 (43_smoother.md R152), the stored frequency being `old`. -/
def latchFreqState (f old : Word) (s : State) : State :=
  { s with
    ftgt := if differs (sanF f old) old then .value (sanF f old) else s.ftgt
    flast := .value (sanF f old) }

/-- The state after one smoothing of `cur` from `c` toward `t` (43_smoother.md R153). -/
def smoothState (cur : NumReg) (c t : Word) (s : State) : State :=
  (s.setReg cur (smooth (drawsFrom s.nanDraws) c t)).passDraws 3

/-- The phase increment after step 4, the stored one being `pinc` (43_smoother.md R154). -/
def newInc (nan fact sr : Word) (pinc : Held Word) : Held Word :=
  if isFinite (fdiv nan fact sr) then .value (fdiv nan fact sr) else pinc

/-- The state after step 4 (43_smoother.md R154). -/
def updateIncState (fact sr : Word) (s : State) : State :=
  { s with
    pinc := newInc (nanAt s.nanDraws) fact sr s.pinc
    nanDraws := s.nanDraws + 1 }

theorem latchGain_value {g old : Word} {s : State} (h : s.gdb = .value old) :
    latchGain g s = .next (latchGainState g old s) := readReg_value (r := .gdb) h _

theorem latchGain_eq_next {g : Word} {s t : State} (h : latchGain g s = .next t) :
    ∃ old, s.gdb = .value old ∧ t = latchGainState g old s := by
  obtain ⟨old, ho, h⟩ := readReg_eq_next h
  cases h
  exact ⟨old, ho, rfl⟩

theorem latchFreq_value {f old : Word} {s : State} (h : s.flast = .value old) :
    latchFreq f s = .next (latchFreqState f old s) := readReg_value (r := .flast) h _

theorem latchFreq_eq_next {f : Word} {s t : State} (h : latchFreq f s = .next t) :
    ∃ old, s.flast = .value old ∧ t = latchFreqState f old s := by
  obtain ⟨old, ho, h⟩ := readReg_eq_next h
  cases h
  exact ⟨old, ho, rfl⟩

theorem smoothReg_value {cur tgt : NumReg} {c t : Word} {s : State} (hc : s.reg cur = .value c)
    (ht : s.reg tgt = .value t) : smoothReg cur tgt s = .next (smoothState cur c t s) := by
  rw [smoothReg, readReg_value hc, readReg_value ht]; rfl

theorem smoothReg_eq_next {cur tgt : NumReg} {s t : State} (h : smoothReg cur tgt s = .next t) :
    ∃ c v, s.reg cur = .value c ∧ s.reg tgt = .value v ∧ t = smoothState cur c v s := by
  obtain ⟨c, hc, h⟩ := readReg_eq_next h
  obtain ⟨v, hv, h⟩ := readReg_eq_next h
  cases h
  exact ⟨c, v, hc, hv, rfl⟩

theorem updateInc_value {fact sr : Word} {s : State} (hf : s.fact = .value fact) (hs : s.srate = .value sr) :
    updateInc s = .next (updateIncState fact sr s) := by
  rw [updateInc, readReg_value (r := .fact) hf, readReg_value (r := .srate) hs]; rfl

theorem updateInc_eq_next {s t : State} (h : updateInc s = .next t) :
    ∃ fact sr, s.fact = .value fact ∧ s.srate = .value sr ∧ t = updateIncState fact sr s := by
  obtain ⟨fact, hf, h⟩ := readReg_eq_next h
  obtain ⟨sr, hs, h⟩ := readReg_eq_next h
  cases h
  exact ⟨fact, sr, hf, hs, rfl⟩

/-! ### The whole per-block update -/

/-- A per-block update that answers a next state went through its four steps (43_smoother.md R150, R155). -/
theorem blockUpdate_eq_next {g f : Word} {s t : State} (h : blockUpdate g f s = .next t) :
    ∃ s₁ s₂ s₃ s₄, latchGain g s = .next s₁ ∧ latchFreq f s₁ = .next s₂ ∧
      smoothReg .gcur .gtgt s₂ = .next s₃ ∧ smoothReg .fact .ftgt s₃ = .next s₄ ∧ updateInc s₄ = .next t := by
  obtain ⟨s₁, h₁, h⟩ := andThen_eq_next h
  obtain ⟨s₂, h₂, h⟩ := andThen_eq_next h
  obtain ⟨s₃, h₃, h⟩ := andThen_eq_next h
  obtain ⟨s₄, h₄, h⟩ := andThen_eq_next h
  exact ⟨s₁, s₂, s₃, s₄, h₁, h₂, h₃, h₄, h⟩

/-- The gain target after step 1, the stored one being `gtgt` (43_smoother.md R151). -/
def newGainTarget (nan g gdb gtgt : Word) : Word :=
  if differs (sanG g gdb) gdb then g2l nan (clampDb (sanG g gdb)) else gtgt

/-- The frequency target after step 2, the stored one being `ftgt` (43_smoother.md R152). -/
def newFreqTarget (f flast ftgt : Word) : Word := if differs (sanF f flast) flast then sanF f flast else ftgt

/-- The state after a per-block update whose registers hold the values given. -/
def blockUpdateState (g f gdb gcur gtgt ftgt flast fact sr : Word) (s : State) : State :=
  let gt := newGainTarget (nanAt s.nanDraws) g gdb gtgt
  let ft := newFreqTarget f flast ftgt
  let fa := smooth (drawsFrom (s.nanDraws + 1 + 3)) fact ft
  { s with
    gdb := .value (sanG g gdb)
    gtgt := .value gt
    flast := .value (sanF f flast)
    ftgt := .value ft
    gcur := .value (smooth (drawsFrom (s.nanDraws + 1)) gcur gt)
    fact := .value fa
    pinc := newInc (nanAt (s.nanDraws + 1 + 3 + 3)) fa sr s.pinc
    nanDraws := s.nanDraws + 1 + 3 + 3 + 1 }

/-- The per-block update in one equation (43_smoother.md R150). -/
theorem blockUpdate_value {g f gdb gcur gtgt ftgt flast fact sr : Word} {s : State}
    (h₁ : s.gdb = .value gdb) (h₂ : s.gcur = .value gcur) (h₃ : s.gtgt = .value gtgt) (h₄ : s.ftgt = .value ftgt)
    (h₅ : s.flast = .value flast) (h₆ : s.fact = .value fact) (h₇ : s.srate = .value sr) :
    blockUpdate g f s = .next (blockUpdateState g f gdb gcur gtgt ftgt flast fact sr s) := by
  have hg : (if differs (sanG g gdb) gdb then Held.value (g2l (nanAt s.nanDraws) (clampDb (sanG g gdb))) else s.gtgt) =
      .value (newGainTarget (nanAt s.nanDraws) g gdb gtgt) := by
    rw [h₃]; unfold newGainTarget; split_ifs <;> rfl
  have hf : (if differs (sanF f flast) flast then Held.value (sanF f flast) else s.ftgt) =
      .value (newFreqTarget f flast ftgt) := by
    rw [h₄]; unfold newFreqTarget; split_ifs <;> rfl
  have e₁ := latchGain_value (g := g) h₁
  have e₂ := latchFreq_value (f := f) (s := latchGainState g gdb s) h₅
  have e₃ := smoothReg_value (cur := .gcur) (tgt := .gtgt) (s := latchFreqState f flast (latchGainState g gdb s)) h₂ hg
  let s₃ := smoothState .gcur gcur (newGainTarget (nanAt s.nanDraws) g gdb gtgt)
    (latchFreqState f flast (latchGainState g gdb s))
  have e₄ := smoothReg_value (cur := .fact) (tgt := .ftgt) (s := s₃) h₆ hf
  have e₅ := updateInc_value (s := smoothState .fact fact (newFreqTarget f flast ftgt) s₃) rfl h₇
  rw [blockUpdate, e₁, andThen_next, e₂, andThen_next, e₃, andThen_next, e₄, andThen_next, e₅]
  congr 1
  apply State.ext
  case gtgt => exact hg
  case ftgt => exact hf
  all_goals rfl

/-- What a per-block update may change: seven registers, and the draws passed (43_smoother.md R150). -/
theorem blockUpdate_frame {g f : Word} {s t : State} (h : blockUpdate g f s = .next t) :
    t = { s with
      gdb := t.gdb, gtgt := t.gtgt, flast := t.flast, ftgt := t.ftgt, gcur := t.gcur, fact := t.fact, pinc := t.pinc
      nanDraws := s.nanDraws + 8 } := by
  obtain ⟨_, _, _, _, h₁, h₂, h₃, h₄, h₅⟩ := blockUpdate_eq_next h
  obtain ⟨_, _, rfl⟩ := latchGain_eq_next h₁
  obtain ⟨_, _, rfl⟩ := latchFreq_eq_next h₂
  obtain ⟨_, _, _, _, rfl⟩ := smoothReg_eq_next h₃
  obtain ⟨_, _, _, _, rfl⟩ := smoothReg_eq_next h₄
  obtain ⟨_, _, _, _, rfl⟩ := updateInc_eq_next h₅
  rfl

/-! ### The per-sample step -/

/-- The state after a sample whose registers hold the values given, the wave being `w` and the next phase `next`. -/
def sampleState (x m coef w next : Word) (s : State) : State :=
  { s with
    modeSel := modeSel m
    out := s.out ++ [mixSample (drawsFrom (s.nanDraws + 1)) coef w x]
    phase := .value next
    nanDraws := s.nanDraws + 1 + 7 + 1 }

/-- The per-sample step in one equation (44_nco_mixer.md R165). -/
theorem sampleStep_value {x m phase coef pinc w next : Word} {len : Count} {idx : Nat} {s : State}
    (hp : s.phase = .value phase) (hl : s.tlen = .value len)
    (hi : toIndex (fmul (nanAt s.nanDraws) phase (fromNat len.toNat)) = some idx) (hlt : idx < len.toNat)
    (hw : s.mem.read (modeSel m) idx = .value w) (hc : s.gcur = .value coef) (hn : s.pinc = .value pinc)
    (hf : frac (fadd (nanAt (s.nanDraws + 1 + 7)) phase pinc) = some next) :
    sampleStep x m s = .next (sampleState x m coef w next s) := by
  let s₁ : State := { s with modeSel := modeSel m }
  have e₁ : ∀ k, readWave s₁ k = k w := fun k => by
    rw [readWave, readReg_value (s := s₁) (r := .phase) hp, readTlen_value (s := s₁) hl, withIndex_some hi]
    exact tabRead_value (s := s₁) hl hlt hw k
  let s₂ : State := ((s₁.passDraws 1).pushOut (mixSample (drawsFrom (s.nanDraws + 1)) coef w x)).passDraws 7
  have e₂ : mixAndPush x w (s₁.passDraws 1) = .next s₂ := readReg_value (s := s₁.passDraws 1) (r := .gcur) hc _
  show readWave s₁ (fun w => andThen (mixAndPush x w (s₁.passDraws 1)) advancePhase) = _
  rw [e₁, e₂, andThen_next, advancePhase, readReg_value (s := s₂) (r := .phase) hp,
    readReg_value (s := s₂) (r := .pinc) hn]
  exact withFrac_some hf _

/-- A per-sample step that answers a next state read what it needs, and is that equation. -/
theorem sampleStep_eq_next {x m : Word} {s t : State} (h : sampleStep x m s = .next t) :
    ∃ (phase coef pinc w next : Word) (len : Count) (idx : Nat),
      s.phase = .value phase ∧ s.tlen = .value len ∧
      toIndex (fmul (nanAt s.nanDraws) phase (fromNat len.toNat)) = some idx ∧ idx < len.toNat ∧
      s.mem.read (modeSel m) idx = .value w ∧ s.gcur = .value coef ∧ s.pinc = .value pinc ∧
      frac (fadd (nanAt (s.nanDraws + 1 + 7)) phase pinc) = some next ∧
      t = sampleState x m coef w next s := by
  have h₀ := h
  obtain ⟨phase, hp, h⟩ := readReg_eq_next h
  obtain ⟨len, hl, h⟩ := readTlen_eq_next h
  obtain ⟨idx, hi, h⟩ := withIndex_eq_next h
  obtain ⟨len', w, hl', hlt, hw, h⟩ := tabRead_eq_next h
  obtain ⟨s₁, h₁, h⟩ := andThen_eq_next h
  obtain ⟨coef, hc, h₁⟩ := readReg_eq_next h₁
  cases h₁
  obtain ⟨phase', hp', h⟩ := readReg_eq_next h
  obtain ⟨pinc, hn, h⟩ := readReg_eq_next h
  obtain ⟨next, hf, h⟩ := withFrac_eq_next h
  simp only [reg_phase, reg_gcur, reg_pinc, passDraws_phase, pushOut_phase, passDraws_pinc, pushOut_pinc, passDraws_gcur,
    passDraws_nanDraws, pushOut_nanDraws] at hp hp' hc hn hf
  obtain rfl : phase' = phase := by rw [hp] at hp'; injection hp' with e; exact e.symm
  obtain rfl : len' = len := by
    have : (Held.value len : Held Count) = .value len' := hl.symm.trans hl'
    injection this with e; exact e.symm
  refine ⟨phase', coef, pinc, w, next, len', idx, hp, hl, hi, hlt, hw, hc, hn, hf, ?_⟩
  rw [sampleStep_value hp hl hi hlt hw hc hn hf] at h₀
  injection h₀ with e
  exact e.symm

/-- What a per-sample step may change: the mode, the phase, one more output word, and the draws passed (44_nco_mixer.md R165). -/
theorem sampleStep_frame {x m : Word} {s t : State} (h : sampleStep x m s = .next t) :
    ∃ y p, t = { s with modeSel := modeSel m, phase := p, out := s.out ++ [y], nanDraws := s.nanDraws + 9 } := by
  obtain ⟨_, _, _, _, _, _, _, _, _, _, _, _, _, _, _, rfl⟩ := sampleStep_eq_next h
  exact ⟨_, _, rfl⟩

/-- What the samples of a block may change: the mode, the phase, one more output word each, and the draws passed
(45_block.md R180). -/
theorem sampleSteps_frame {m : Word} {xs : List Word} {s t : State} (h : sampleSteps m xs s = .next t) :
    ∃ ys p sel, ys.length = xs.length ∧
      t = { s with modeSel := sel, phase := p, out := s.out ++ ys, nanDraws := s.nanDraws + 9 * xs.length } := by
  induction xs generalizing s with
  | nil =>
    cases h
    exact ⟨[], _, _, rfl, by simp; rfl⟩
  | cons x xs ih =>
    obtain ⟨u, h₁, h₂⟩ := andThen_eq_next h
    obtain ⟨y, p, rfl⟩ := sampleStep_frame h₁
    obtain ⟨ys, p', sel, hl, rfl⟩ := ih h₂
    exact ⟨y :: ys, p', sel, by simp [hl], by simp; ring⟩

/-! ### The commands -/

theorem execConstruct_eq_next {len : Count} {sr : Word} {s t : State} (h : execConstruct len sr s = .next t) :
    s.life ≠ .unbuilt ∧ t = raise .seqErr s ∨
    s.life = .unbuilt ∧ constructOk len sr = false ∧ t = raise .cfgErr s ∨
    s.life = .unbuilt ∧ constructOk len sr = true ∧
      t = { s with mem := buildTables len.toNat len.toNat s.mem, tlen := .value len, srate := .value sr, life := .inactive } := by
  rcases ifLegal_eq_next h with ⟨hc, h⟩ | ⟨hc, rfl⟩
  · right
    have hl : s.life = .unbuilt := by simpa using hc
    split_ifs at h with hk
    · cases h; exact .inr ⟨hl, hk, rfl⟩
    · cases h; exact .inl ⟨hl, by simpa using hk, rfl⟩
  · exact .inl ⟨by simpa using hc, rfl⟩

theorem execDestroy_eq_next {s t : State} (h : execDestroy s = .next t) :
    s.life = .unbuilt ∧ t = raise .seqErr s ∨
    s.life ≠ .unbuilt ∧ t = { s with
      life := .unbuilt, srate := .noValue, tlen := .noValue, mem := Memory.empty, phase := .noValue, pinc := .noValue,
      gdb := .noValue, gcur := .noValue, gtgt := .noValue, ftgt := .noValue, flast := .noValue, fact := .noValue } := by
  rcases ifLegal_eq_next h with ⟨hc, h⟩ | ⟨hc, rfl⟩
  · cases h; exact .inr ⟨by simpa using hc, rfl⟩
  · exact .inl ⟨by simpa using hc, rfl⟩

theorem execActivate_eq_next {g f : Word} {s t : State} (h : execActivate g f s = .next t) :
    s.life = .unbuilt ∧ t = raise .seqErr s ∨
    s.life ≠ .unbuilt ∧ t = { s with
      phase := .value cZero, pinc := .value cZero, gdb := .value (sanG g cZero)
      gcur := .value (g2l (nanAt s.nanDraws) (clampDb (sanG g cZero)))
      gtgt := .value (g2l (nanAt s.nanDraws) (clampDb (sanG g cZero)))
      fact := .value (sanF f freqMin), ftgt := .value (sanF f freqMin), flast := .value (sanF f freqMin)
      modeSel := .sine, life := .active, nanDraws := s.nanDraws + 1 } := by
  rcases ifLegal_eq_next h with ⟨hc, h⟩ | ⟨hc, rfl⟩
  · cases h; exact .inr ⟨by simpa using hc, rfl⟩
  · exact .inl ⟨by simpa using hc, rfl⟩

theorem execDeactivate_eq_next {s t : State} (h : execDeactivate s = .next t) :
    s.life ≠ .active ∧ t = raise .seqErr s ∨ s.life = .active ∧ t = { s with life := .inactive } := by
  rcases ifLegal_eq_next h with ⟨hc, h⟩ | ⟨hc, rfl⟩
  · cases h; exact .inr ⟨by simpa using hc, rfl⟩
  · exact .inl ⟨by simpa using hc, rfl⟩

theorem execBeginBlock_eq_next {g f : Word} {s t : State} (h : execBeginBlock g f s = .next t) :
    s.life ≠ .active ∧ t = raise .seqErr s ∨ s.life = .active ∧ blockUpdate g f s = .next t := by
  rcases ifLegal_eq_next h with ⟨hc, h⟩ | ⟨hc, rfl⟩
  · exact .inr ⟨by simpa using hc, h⟩
  · exact .inl ⟨by simpa using hc, rfl⟩

theorem execProcessSample_eq_next {x m : Word} {s t : State} (h : execProcessSample x m s = .next t) :
    s.life ≠ .active ∧ t = raise .seqErr s ∨ s.life = .active ∧ sampleStep x m s = .next t := by
  rcases ifLegal_eq_next h with ⟨hc, h⟩ | ⟨hc, rfl⟩
  · exact .inr ⟨by simpa using hc, h⟩
  · exact .inl ⟨by simpa using hc, rfl⟩

theorem execProcessBlock_eq_next {g f m : Word} {xs : List Word} {s t : State}
    (h : execProcessBlock g f m xs s = .next t) :
    s.life ≠ .active ∧ t = raise .seqErr s ∨
    s.life = .active ∧ ∃ u, blockUpdate g f s = .next u ∧ sampleSteps m xs u = .next t := by
  rcases ifLegal_eq_next h with ⟨hc, h⟩ | ⟨hc, rfl⟩
  · exact .inr ⟨by simpa using hc, andThen_eq_next h⟩
  · exact .inl ⟨by simpa using hc, rfl⟩

/-! ### The step -/

/-- Everything a step can do (60_exceptions.md R196, 70_reset_and_hazards.md R215). -/
theorem step_cases (s : State) :
    (s.resetIn = true ∧ step s = .next (hardwareReset s)) ∨
    (s.resetIn = false ∧ s.illCmd = true ∧ step s = .next s) ∨
    (s.resetIn = false ∧ s.illCmd = false ∧ decode s.cmd = .incomplete ∧ step s = .next s) ∨
    (∃ why rest, s.resetIn = false ∧ s.illCmd = false ∧ decode s.cmd = .illegal why rest ∧
      step s = .next (raise .illCmd { s with cmd := rest })) ∨
    (∃ i rest, s.resetIn = false ∧ s.illCmd = false ∧ decode s.cmd = .packet i rest ∧
      step s = exec i { s with cmd := rest }) := by
  unfold step fetch
  cases hr : s.resetIn
  · cases hi : s.illCmd
    · cases hd : decode s.cmd with
      | incomplete => exact .inr (.inr (.inl ⟨rfl, rfl, rfl, rfl⟩))
      | illegal why rest => exact .inr (.inr (.inr (.inl ⟨why, rest, rfl, rfl, rfl, rfl⟩)))
      | packet i rest => exact .inr (.inr (.inr (.inr ⟨i, rest, rfl, rfl, rfl, rfl⟩)))
    · exact .inr (.inl ⟨rfl, rfl, rfl⟩)
  · exact .inl ⟨rfl, rfl⟩

end Sys2Proof.Machine
end

