-- ==== Sys2Proof/Laws/Encoding.lean ====
section
/-! SUPPORT. The small lemmas of the header word (30_encoding.md R71, R76): its fields, the word they make, and which headers are
legal. -/

namespace Sys2Proof

theorem toNat_header {op n : Nat} (ho : op < 16) (hn : n < 2 ^ 24) : (header op n).toNat = op * 2 ^ 28 + n := by
  rw [header, BitVec.toNat_ofNat]
  exact Nat.mod_eq_of_lt (by omega)

theorem opField_header {op n : Nat} (ho : op < 16) (hn : n < 2 ^ 24) : opField (header op n) = op := by
  rw [opField, toNat_header ho hn]; omega

theorem rsvField_header {op n : Nat} (ho : op < 16) (hn : n < 2 ^ 24) : rsvField (header op n) = 0 := by
  rw [rsvField, toNat_header ho hn]; omega

theorem toNat_nField (h : Word) : (nField h).toNat = h.toNat % 2 ^ 24 := BitVec.toNat_setWidth _ _

theorem nField_header {op n : Nat} (ho : op < 16) (hn : n < 2 ^ 24) : (nField (header op n)).toNat = n := by
  rw [toNat_nField, toNat_header ho hn]; omega

/-- A word is the header of its operation code and its field `N`, if its reserved bits are 0. -/
theorem header_of_fields {h : Word} (hr : rsvField h = 0) : header (opField h) (nField h).toNat = h := by
  have := h.isLt
  apply BitVec.eq_of_toNat_eq
  rw [rsvField] at hr
  rw [toNat_header (by rw [opField]; omega) (BitVec.isLt _), toNat_nField, opField]
  omega

/-- The legal headers, field by field (30_encoding.md R76). -/
theorem illegalHeader_eq_none {h : Word} :
    illegalHeader h = none ↔
      0 < opField h ∧ opField h < 8 ∧ rsvField h = 0 ∧ (opField h = 1 ∨ opField h = 5 ∨ (nField h).toNat = 0) := by
  have hz : nField h ≠ 0 ↔ (nField h).toNat ≠ 0 := by
    rw [ne_eq, ne_eq, ← BitVec.toNat_inj]; rfl
  unfold illegalHeader
  simp only [hz]
  split_ifs <;> simp <;> omega

/-- The header of a command that uses the field `N` is legal for every `N`; any other is for `N` = 0. -/
theorem illegalHeader_header {op n : Nat} (h0 : 0 < op) (ho : op < 8) (hn : n < 2 ^ 24)
    (hz : op = 1 ∨ op = 5 ∨ n = 0) : illegalHeader (header op n) = none := by
  rw [illegalHeader_eq_none, opField_header (by omega) hn, rsvField_header (by omega) hn, nField_header (by omega) hn]
  exact ⟨h0, ho, rfl, hz⟩

/-- A stream that begins with a legal header is read by `decodeLegal`. -/
theorem decode_legal {h : Word} (hl : illegalHeader h = none) (ws : List Word) : decode (h :: ws) = decodeLegal h ws := by
  simp [decode, hl]

/-- A stream that begins with an illegal header is rejected by its name. -/
theorem decode_illegal {h : Word} {why : IllegalHeader} (hl : illegalHeader h = some why) (ws : List Word) :
    decode (h :: ws) = .illegal why ws := by
  simp [decode, hl]

end Sys2Proof
end

