-- ==== Sys2Proof/Laws/Params.lean ====
section
/-! SUPPORT. What is known of the open parameters (00_scope.md R7), and the small lemmas of Machine/Operands.lean. -/

namespace Sys2Proof.Machine

/-! ### The open parameters -/

theorem one_le_tableCap : 1 ≤ tableCap := Nat.le_add_left _ _

theorem tableCap_lt : tableCap < 2 ^ 24 := by
  have := Nat.mod_lt Config.tableCapFree (y := 2 ^ 24 - 1) (by decide)
  unfold tableCap
  omega

/-- `FREQ_MIN` is finite and above 0. -/
theorem freqMin_range : 0 < freqMin.toNat ∧ freqMin.toNat < infBits := by
  unfold freqMin
  split_ifs with h
  · exact isPositive_iff.1 h
  · decide

theorem sinTab_range (i len : Nat) : magBits (sinTab i len) ≤ cOne.toNat := by
  unfold sinTab
  split_ifs with h
  · exact h
  · decide

theorem pow10_range (q : Word) : (pow10 q).toNat ≤ cOne.toNat := by
  unfold pow10
  split_ifs with h1 h2
  · exact le_rfl
  · exact h2
  · exact le_rfl

theorem pow10_zero {q : Word} (h : magBits q = 0) : pow10 q = cOne := if_pos h

theorem nanAt_isNaN (k : Nat) : isNaN (nanAt k) = true := by
  unfold nanAt
  split_ifs with h
  · exact h
  · decide

theorem drawsFrom_isNaN (k j : Nat) : isNaN (drawsFrom k j) = true := nanAt_isNaN _

/-! ### Operands -/

theorem squareEntry_cases (w : Word) : squareEntry w = cOne ∨ squareEntry w = cMOne := by
  unfold squareEntry; split_ifs <;> simp

theorem sanG_not_nan {g fb : Word} (h : isNaN fb = false) : isNaN (sanG g fb) = false := by
  unfold sanG
  split_ifs with hg
  · exact h
  · simpa using hg

theorem sanG_of_not_nan {g : Word} (h : isNaN g = false) (fb : Word) : sanG g fb = g := by
  simp [sanG, h]

theorem sanG_nan {g : Word} (h : isNaN g = true) (fb : Word) : sanG g fb = fb := by
  simp [sanG, h]

theorem sanF_not_finite {f : Word} (h : isFinite f = false) (fb : Word) : sanF f fb = fb := by
  simp [sanF, h]

theorem sanF_finite {f : Word} (h : isFinite f = true) (fb : Word) :
    sanF f fb = if flt f freqMin then freqMin else f := by
  simp [sanF, h]

/-- The coefficient of a gain never leaves [0, 1]. -/
theorem g2l_range (nan db : Word) : (g2l nan db).toNat ≤ cOne.toNat := by
  unfold g2l
  split_ifs
  · exact pow10_range _
  · decide

/-- The quotient by 20 of a finite gain is no NaN, so the coefficient does not depend on a draw. -/
theorem g2l_draw {db : Word} (h : isFinite db = true) (nan nan' : Word) : g2l nan db = g2l nan' db := by
  unfold g2l
  rw [fdiv_of_finite nan h (by decide) (by decide), fdiv_of_finite nan' h (by decide) (by decide)]

/-- A gain that is no NaN is clamped to a finite value. -/
theorem clampDb_finite {g : Word} (h : isNaN g = false) : isFinite (clampDb g) = true := by
  unfold clampDb
  split_ifs with h1 h2
  · decide
  · decide
  · rw [isFinite_iff]
    have hm : isNaN cDbMin = false := by decide
    have hx : isNaN cDbMax = false := by decide
    rw [flt_iff h hm, not_lt] at h1
    rw [flt_iff hx h, not_lt] at h2
    have hle := isNaN_eq_false.1 h
    rcases Nat.lt_or_eq_of_le hle with hlt | heq
    · exact hlt
    · exfalso
      have hv : value cDbMin = -(120 * 2 ^ 149) := by decide
      have hv2 : value cDbMax = 0 := by decide
      have hbig : 120 * 2 ^ 149 < patternMag infBits := by decide
      rw [hv] at h1
      rw [hv2] at h2
      rw [value, magnitude, heq] at h1 h2
      generalize patternMag infBits = big at *
      split_ifs at h1 h2 <;> omega

theorem modeSel_nan {m : Word} (h : isNaN m = true) : modeSel m = .square := by
  simp [modeSel, flt, h]

/-- A NaN input sample gives the drawn NaN. -/
theorem mixSample_nan (nan : Nat → Word) (coef w : Word) {x : Word} (h : isNaN x = true) :
    mixSample nan coef w x = nan 6 := fmul_nan_left _ _ h

end Sys2Proof.Machine
end

