-- ==== Sys2Proof/Laws/PerInstr.lean ====
section
/-! SUPPORT. Families of statements with one lemma for each command. -/

namespace Sys2Proof.Laws

/-- The first word of a well-formed command's packet is a legal header, and the packet has the length that header calls for
(30_encoding.md R73, R74). -/
def HeadsItsPacket.Statement (i : Instr) : Prop :=
  i.wellFormed = true →
    ∃ h ws, encode i = h :: ws ∧ illegalHeader h = none ∧ packetLength h = (encode i).length

theorem HeadsItsPacket.construct (len : Count) (sr : Word) : HeadsItsPacket.Statement (.construct len sr) := fun _ =>
  have hl := illegalHeader_header (op := 1) (n := len.toNat) (by decide) (by decide) len.isLt (.inl rfl)
  ⟨_, _, rfl, hl, by simp [packetLength, hl, opField_header (op := 1) (by decide) len.isLt, encode]⟩

theorem HeadsItsPacket.activate (g f : Word) : HeadsItsPacket.Statement (.activate g f) :=
  fun _ => ⟨_, _, rfl, by decide, rfl⟩

theorem HeadsItsPacket.beginBlock (g f : Word) : HeadsItsPacket.Statement (.beginBlock g f) :=
  fun _ => ⟨_, _, rfl, by decide, rfl⟩

theorem HeadsItsPacket.processSample (x m : Word) : HeadsItsPacket.Statement (.processSample x m) :=
  fun _ => ⟨_, _, rfl, by decide, rfl⟩

theorem HeadsItsPacket.processBlock (g f m : Word) (xs : List Word) :
    HeadsItsPacket.Statement (.processBlock g f m xs) := fun hw =>
  have hx : xs.length < 2 ^ 24 := by simpa [Instr.wellFormed] using hw
  have hl := illegalHeader_header (op := 5) (n := xs.length) (by decide) (by decide) hx (.inr (.inl rfl))
  ⟨_, _, rfl, hl, by
    simp [packetLength, hl, opField_header (op := 5) (by decide) hx, nField_header (op := 5) (by decide) hx, encode]
    omega⟩

theorem HeadsItsPacket.deactivate : HeadsItsPacket.Statement .deactivate := fun _ => ⟨_, _, rfl, by decide, rfl⟩

theorem HeadsItsPacket.destroy : HeadsItsPacket.Statement .destroy := fun _ => ⟨_, _, rfl, by decide, rfl⟩

end Sys2Proof.Laws
end

