-- ==== Sys2Proof/Laws/Run.lean ====
section
/-! SUPPORT. Runs of the block by the host's `Host.Core.run`, in the terms of `step`. -/

namespace Sys2Proof.Machine

@[simp] theorem run_zero (s : State) : Host.Core.run core 0 s = .next s := rfl

/-- A run of n + 1 steps is one step and then a run of n steps. -/
theorem run_succ (n : Nat) (s : State) :
    Host.Core.run core (n + 1) s = andThen (step s) fun t => Host.Core.run core n t := by
  refine (Host.Core.run.eq_2 core s n).trans ?_
  have h : core.step s = step s := rfl
  rw [h]
  cases step s <;> rfl

end Sys2Proof.Machine
end

