-- ==== Sys2Proof/Laws/Safety.lean ====
section
/-! SUPPORT. The ranges of Safety.lean as bounds on the word's pattern, and when the invariant carries over to another state. -/

namespace Sys2Proof.Machine

/-! ### Ranges as bounds -/

theorem freqMin_not_nan : isNaN freqMin = false := isNaN_of_isFinite (isFinite_of_lt freqMin_range.2)

/-- A frequency is a finite word with sign bit 0, not below `FREQ_MIN`. -/
theorem freqInRange_iff {w : Word} : freqInRange w ↔ freqMin.toNat ≤ w.toNat ∧ w.toNat < infBits := by
  constructor
  · rintro ⟨h₁, h₂⟩
    rw [fle_iff freqMin_not_nan (isNaN_of_isFinite h₁)] at h₂
    have hm : value freqMin = patternMag freqMin.toNat := value_of_lt (freqMin_range.2.trans (by decide))
    have hpos : 0 < patternMag freqMin.toNat := by
      have := freqMin_range.1
      rw [Nat.pos_iff_ne_zero, ne_eq, patternMag_eq_zero]
      omega
    have hs : signBit w = false := by
      by_contra hs
      rw [value_neg_of_sign (w := w) (by simpa using hs), hm] at h₂
      omega
    have hlt := lt_of_signBit hs
    rw [isFinite_iff, magBits_of_lt hlt] at h₁
    rw [value_of_lt hlt, hm] at h₂
    exact ⟨patternMag_le.1 (by exact_mod_cast h₂), h₁⟩
  · rintro ⟨h₁, h₂⟩
    exact ⟨isFinite_of_lt h₂, (fle_of_nonneg freqMin_range.2.le h₂.le).2 h₁⟩

theorem rateInRange_iff {w : Word} : rateInRange w ↔ 0 < w.toNat ∧ w.toNat < infBits := isPositive_iff

theorem coefInRange_lt {w : Word} (h : coefInRange w) : w.toNat < infBits := lt_of_le_of_lt h (by decide)

theorem phaseInRange_lt {w : Word} (h : phaseInRange w) : w.toNat < infBits := lt_of_le_of_lt h (by decide)

theorem incInRange_lt {w : Word} (h : incInRange w) : w.toNat < infBits := lt_of_le_of_lt h (by decide)

theorem isFinite_of_waveInRange {w : Word} (h : waveInRange w) : isFinite w = true :=
  isFinite_iff.2 (lt_of_le_of_lt h (by decide))

theorem waveInRange_sinTab (i len : Nat) : waveInRange (sinTab i len) := sinTab_range i len

theorem waveInRange_squareEntry (w : Word) : waveInRange (squareEntry w) := by
  unfold waveInRange
  rcases squareEntry_cases w with h | h <;> rw [h] <;> decide

/-! ### Held -/

theorem Held.every_value {α : Type} {P : α → Prop} {v : α} (h : P v) : (Held.value v).Every P := by
  intro w e
  injection e with e
  exact e ▸ h

theorem Held.every_noValue {α : Type} {P : α → Prop} : (Held.noValue : Held α).Every P := by
  intro w e
  cases e

/-! ### The invariant reads `LIFE`, the number registers, `TLEN` and the tables, and nothing else -/

theorem Invariant.congr {s t : State} (h : Invariant s) (hl : t.life = s.life) (hr : ∀ r, t.reg r = s.reg r)
    (ht : t.tlen = s.tlen) (hm : t.mem = s.mem) : Invariant t := by
  have e₁ : t.phase = s.phase := hr .phase
  have e₂ : t.pinc = s.pinc := hr .pinc
  have e₃ : t.gdb = s.gdb := hr .gdb
  have e₄ : t.gcur = s.gcur := hr .gcur
  have e₅ : t.gtgt = s.gtgt := hr .gtgt
  have e₆ : t.ftgt = s.ftgt := hr .ftgt
  have e₇ : t.flast = s.flast := hr .flast
  have e₈ : t.fact = s.fact := hr .fact
  have e₉ : t.srate = s.srate := hr .srate
  obtain ⟨hw, ⟨r₁, r₂, r₃, r₄, r₅, r₆, r₇, r₈, r₉, r₁₀⟩, hu, hb, ha⟩ := h
  refine ⟨hm ▸ hw, ⟨e₁ ▸ r₁, e₂ ▸ r₂, e₃ ▸ r₃, e₄ ▸ r₄, e₅ ▸ r₅, e₆ ▸ r₆, e₇ ▸ r₇, e₈ ▸ r₈, e₉ ▸ r₉, ht ▸ r₁₀⟩, ?_, ?_, ?_⟩
  · intro h
    obtain ⟨c₁, c₂, c₃⟩ := hu (hl ▸ h)
    exact ⟨fun r => (hr r).trans (c₁ r), ht.trans c₂, hm.trans c₃⟩
  · intro h
    obtain ⟨c₁, c₂⟩ := hb (hl ▸ h)
    exact ⟨by rw [ht, hm]; exact c₁, by rw [e₉]; exact c₂⟩
  · intro h r
    rw [hr]
    exact ha (hl ▸ h) r

/-- A state without a built engine and without values is safe. -/
theorem Invariant.of_noValue {t : State} (hl : t.life = .unbuilt) (hr : ∀ r, t.reg r = .noValue) (ht : t.tlen = .noValue)
    (hm : t.mem = Memory.empty) : Invariant t := by
  have e : ∀ {P : Word → Prop} (r : NumReg), (t.reg r).Every P := fun r => by rw [hr]; exact Held.every_noValue
  refine ⟨by rw [hm]; decide, ?_, fun _ => ⟨hr, ht, hm⟩, fun h => absurd hl h, fun h => by rw [hl] at h; cases h⟩
  exact ⟨e .phase, e .pinc, e .gdb, e .gcur, e .gtgt, e .ftgt, e .flast, e .fact, e .srate,
    by rw [ht]; exact Held.every_noValue⟩

/-! ### Phase advances -/

@[simp] theorem advances_zero (nan inc p : Word) : advances nan inc 0 p = some p := rfl

theorem advances_succ {nan inc p q : Word} (h : frac (fadd nan p inc) = some q) (n : Nat) :
    advances nan inc (n + 1) p = advances nan inc n q := by
  rw [advances, h]

end Sys2Proof.Machine
end

