-- ==== Sys2Proof/Machine/Reference.lean ====
section
/-! DEFINITION. The reference instantiation of the two configuration functions (40_numerics.md R109), as executable fixed-point
arithmetic with 200 fraction bits, rounded once at the end. No command reads it: the model's `sinTab` and `pow10`
(Machine/Params.lean) stay open parameters, as R109 asks of claims about hardware. That the last bit is always
the correctly rounded one rests on 200 bits being enough and is not proved (UNVERIFIED, notes/assumptions/9.md). -/

namespace Sys2Proof.Machine

/-- 1 in the fixed-point format. -/
def refOne : Nat := 2 ^ 200

/-- π × 2^200, its floor. -/
def refPi : Nat := 0x3243f6a8885a308d313198a2e03707344a4093822299f31d008

/-- ln 2 × 2^200, its floor. -/
def refLn2 : Nat := 0xb17217f7d1cf79abc9e3b39803f2f6af40f343267298b62d8a

/-- log2 10 × 2^200, its floor. -/
def refLog2Ten : Nat := 0x35269e12f346e2bf924afdbfd36bf6d3365b157f8deceb53a46

/-- The inner part 1 − x²/(2k(2k+1)) · (1 − …) of the Taylor series of sin x / x, from term k on, with `x2` = x². -/
def refSinTail (x2 : Nat) (fuel k : Nat) : Nat :=
  match fuel with
  | 0 => refOne
  | fuel + 1 => refOne - x2 * refSinTail x2 fuel (k + 1) / (refOne * (2 * k * (2 * k + 1)))

/-- sin x for 0 ≤ x ≤ π/2. -/
def refSin (x : Nat) : Nat := x * refSinTail (x * x / refOne) 40 1 / refOne

/-- The inner part 1 − w/k · (1 − …) of the Taylor series of e^(−w), from term k on. -/
def refExpTail (w : Nat) (fuel k : Nat) : Nat :=
  match fuel with
  | 0 => refOne
  | fuel + 1 => refOne - w * refExpTail w fuel (k + 1) / (refOne * k)

/-- `SINTAB_REF(i, L)` (40_numerics.md R109) for i < L: exact where 4·i is a multiple of L, else the rounded sine of the angle
reduced to one quadrant. -/
def sinTabRef (i len : Nat) : Word :=
  let quadrant := 4 * i / len
  let r := 4 * i % len
  if r = 0 then
    match quadrant with
    | 0 => cZero
    | 1 => cOne
    | 2 => cZero
    | _ => cMOne
  else
    let u := if quadrant % 2 = 0 then r else len - r
    pack (decide (2 ≤ quadrant)) (roundMag (refSin (refPi * u / (2 * len)) * 2 ^ 149) refOne)

/-- `POW10_REF(q)` (40_numerics.md R109) for −6 < q ≤ 0: 2^(−n) · e^(−f·ln 2), where n + f is |q| · log2 10. -/
def pow10Ref (q : Word) : Word :=
  let z := magnitude q * refLog2Ten / 2 ^ 149
  let e := refExpTail (z % refOne * refLn2 / refOne) 60 1
  pack false (roundMag (e * 2 ^ 149) (refOne * 2 ^ (z / refOne)))

end Sys2Proof.Machine
end

