-- ==== Sys2Proof/Tests/Slice0.lean ====
section
/-! SUPPORT. Tests of the model's own: a well-formedness smoke test, words written out from 30_encoding.md that decode to the command
they stand for, worked numbers of the spec, one step of each command, and for each statement with hypotheses a concrete
case that meets them (`witness_<Name>`). Each test's comment names the rule its expected result comes from. -/

namespace Sys2Proof.Tests

open Sys2Proof.Machine

/-! ### Well-formedness -/

theorem wellFormed_replicate (n : Nat) :
    (Instr.processBlock 0#32 0#32 0#32 (List.replicate n 0#32)).wellFormed = decide (n < 2 ^ 24) := by
  rw [Instr.wellFormed, List.length_replicate]

/-- 2^24 samples do not fit the field `N` (30_encoding.md R71). -/
theorem test_wellFormed_refuses_too_many_samples :
    (Instr.processBlock 0#32 0#32 0#32 (List.replicate (2 ^ 24) 0#32)).wellFormed = false :=
  (wellFormed_replicate (2 ^ 24)).trans (by decide)

/-- 2^24 − 1 samples fit (30_encoding.md R73). -/
theorem test_wellFormed_admits_longest_block :
    (Instr.processBlock 0#32 0#32 0#32 (List.replicate (2 ^ 24 - 1) 0#32)).wellFormed = true :=
  (wellFormed_replicate (2 ^ 24 - 1)).trans (by decide)

/-! ### Decoding, from the bits of 30_encoding.md R71 and R74: `OP` ++ `RSV` ++ `N` -/

theorem test_decode_construct :
    decode [0b0001_0000_000000000000000000000100#32, 0x473B8000#32] = .packet (.construct 4#24 0x473B8000#32) [] := by decide

theorem test_decode_activate :
    decode [0b0010_0000_000000000000000000000000#32, 0xC0C00000#32, 0x40400000#32, 7#32] =
      .packet (.activate 0xC0C00000#32 0x40400000#32) [7#32] := by decide

theorem test_decode_beginBlock :
    decode [0b0011_0000_000000000000000000000000#32, 0xC1A00000#32, 0x40000000#32] =
      .packet (.beginBlock 0xC1A00000#32 0x40000000#32) [] := by decide

theorem test_decode_processSample :
    decode [0b0100_0000_000000000000000000000000#32, 0x3F800000#32, 0x3F000000#32] =
      .packet (.processSample 0x3F800000#32 0x3F000000#32) [] := by decide

theorem test_decode_processBlock :
    decode [0b0101_0000_000000000000000000000010#32, 1#32, 2#32, 3#32, 4#32, 5#32, 6#32] =
      .packet (.processBlock 1#32 2#32 3#32 [4#32, 5#32]) [6#32] := by decide

theorem test_decode_deactivate : decode [0b0110_0000_000000000000000000000000#32] = .packet .deactivate [] := by decide

theorem test_decode_destroy : decode [0b0111_0000_000000000000000000000000#32, 9#32] = .packet .destroy [9#32] := by decide

/-- One bit of the widest field: N = 2^23 is the length 8388608. -/
theorem test_decode_construct_top_bit :
    decode [0b0001_0000_100000000000000000000000#32, 0#32] = .packet (.construct 8388608#24 0#32) [] := by decide

/-- 30_encoding.md R76 (a): the all-zero and the all-ones word. -/
theorem test_decode_reserved_op :
    decode [0x00000000#32, 1#32] = .illegal .reservedOp [1#32] ∧ decode [0xFFFFFFFF#32] = .illegal .reservedOp [] := by decide

/-- 30_encoding.md R76 (b). -/
theorem test_decode_reserved_bits : decode [0b0001_0001_000000000000000000000001#32, 0#32] = .illegal .reservedBits [0#32] := by
  decide

/-- 60_exceptions.md R196: `OP` = 0x2 with `N` = 5 is an illegal word. -/
theorem test_decode_nonzero_n : decode [0x20000005#32] = .illegal .nonzeroN [] := by decide

/-- 30_encoding.md R78: the last sample has not arrived. -/
theorem test_decode_incomplete : decode [0x50000002#32, 1#32, 2#32, 3#32, 4#32] = .incomplete := by decide

/-- The host's reading of a table row: the operand words are zeros. -/
theorem test_decodeTableWord :
    decodeTableWord 32 0x10000004 = some (.construct 4#24 0#32) ∧
    decodeTableWord 32 0x70000000 = some .destroy ∧ decodeTableWord 32 0x80000000 = none := by decide

/-! ### Worked numbers of the spec -/

/-- A NaN to hand to an operation that returns none. -/
def someNaN : Word := 0x7FC00000#32

/-- Quotients: −6 / 20 (42_lifecycle.md R137), 1.1 / 4 (43_smoother.md R150), 1 / 3 and 2^-149 / 2 by hand from 40_numerics.md R91 (the
first rounds up, the second is a tie). -/
theorem test_fdiv_rounds :
    fdiv someNaN 0xC0C00000#32 cTwenty = 0xBE99999A#32 ∧ fdiv someNaN 0x3F8CCCCD#32 0x40800000#32 = 0x3E8CCCCD#32 ∧
    fdiv someNaN cOne 0x40400000#32 = 0x3EAAAAAB#32 ∧ fdiv someNaN 0x00000001#32 0x40000000#32 = 0x00000000#32 := by decide

/-- 40_numerics.md R92: 1 / −0 is −Inf, 0 / 0 a NaN; 43_smoother.md R150: 0.1 − 1.0. -/
theorem test_fdiv_by_zero_and_fsub :
    fdiv someNaN cOne 0x80000000#32 = 0xFF800000#32 ∧ fdiv someNaN cZero cZero = someNaN ∧
    fsub someNaN cSmooth cOne = 0xBF666666#32 := by decide

/-- 43_smoother.md R150: 1.0 moves to 0.91 toward 0.1, and 1.0 to 1.1 toward 2.0. -/
theorem test_smooth_worked :
    smooth (fun _ => someNaN) 0x3F800000#32 0x3DCCCCCD#32 = 0x3F68F5C3#32 ∧
    smooth (fun _ => someNaN) 0x3F800000#32 0x40000000#32 = 0x3F8CCCCD#32 := by decide

/-- 40_numerics.md R110 (c): the stall values do not move. -/
theorem test_smooth_stalls :
    smooth (fun _ => someNaN) 0x00000004#32 0x00000000#32 = 0x00000004#32 ∧
    smooth (fun _ => someNaN) 0x3F7FFFFC#32 0x3F800000#32 = 0x3F7FFFFC#32 := by decide

/-- 44_nco_mixer.md R165: the index, the output and the next phase of the worked example. -/
theorem test_sample_worked :
    toIndex (fmul someNaN 0x3F533334#32 (fromNat 4)) = some 3 ∧
    mixSample (fun _ => someNaN) 0x3F68F5C3#32 0xBF800000#32 0x3F800000#32 = 0x3F68F5C4#32 ∧
    frac (fadd someNaN 0x3F533334#32 0x3E8CCCCD#32) = some 0x3DCCCCD0#32 := by decide

/-- 44_nco_mixer.md R167: the product is rounded before the floor. -/
theorem test_index_rounds_first : toIndex (fmul someNaN 0x3F333333#32 (fromNat 10)) = some 7 := by decide

/-- 44_nco_mixer.md R171 (b): the addition may round up to 1.0, or be absorbed. -/
theorem test_phase_wraps_by_rounding :
    frac (fadd someNaN 0x3F7FFFFF#32 0x33000000#32) = some 0x00000000#32 ∧
    frac (fadd someNaN 0x3F7FFFFF#32 0x32800000#32) = some 0x3F7FFFFF#32 := by decide

/-- 44_nco_mixer.md R173 (d): a subnormal sample rounds to zero, the largest finite one is halved. -/
theorem test_mix_ends :
    fmul someNaN 0x00000001#32 cHalf = 0x00000000#32 ∧ fmul someNaN 0x7F7FFFFF#32 cHalf = 0x7EFFFFFF#32 := by decide

/-- 40_numerics.md R107: the tie 0.5 selects Square, as does a NaN; −Inf selects Sine. -/
theorem test_modeSel : modeSel 0x3F000000#32 = .square ∧ modeSel someNaN = .square ∧ modeSel 0xFF800000#32 = .sine := by decide

/-- 41_wavetable.md R122: the Sine table of length 4 of the reference instantiation. -/
theorem test_sinTabRef :
    sinTabRef 0 4 = 0x00000000#32 ∧ sinTabRef 1 4 = 0x3F800000#32 ∧ sinTabRef 2 4 = 0x00000000#32 ∧
    sinTabRef 3 4 = 0xBF800000#32 := by decide

/-- 43_smoother.md R150: 10^−1 in the reference instantiation. -/
theorem test_pow10Ref : pow10Ref 0xBF800000#32 = 0x3DCCCCCD#32 := by decide +kernel

/-! ### Small states -/

/-- A built engine: length 1, and the largest finite sample rate. -/
def builtState : State :=
  { State.reset with
    life := .inactive, mem := buildTables 1 1 Memory.empty, tlen := .value 1#24, srate := .value 0x7F7FFFFF#32 }

/-- The same engine, active at 0 dB and at the largest finite frequency, so that its phase increment is 1.0. -/
def activeState : State :=
  { builtState with
    life := .active
    phase := .value cZero, pinc := .value cOne
    gdb := .value cZero, gcur := .value cOne, gtgt := .value cOne
    ftgt := .value 0x7F7FFFFF#32, flast := .value 0x7F7FFFFF#32, fact := .value 0x7F7FFFFF#32 }

theorem maxFreq_inRange : freqInRange 0x7F7FFFFF#32 := by
  rw [freqInRange_iff]
  have := freqMin_range.2
  have e : (0x7F7FFFFF#32 : Word).toNat = infBits - 1 := by decide
  omega

theorem built_tablesBuilt (s : State) (ht : s.tlen = .value 1#24) (hm : s.mem = buildTables 1 1 Memory.empty)
    (hr : s.srate = .value 0x7F7FFFFF#32) : TablesBuilt s := by
  refine ⟨⟨1#24, ht, ?_, ?_, ?_⟩, ⟨_, hr, by unfold rateInRange; decide⟩⟩
  · intro i hi; rw [hm, buildTables_read, if_pos (show i < 1 from hi)]; rfl
  · intro i hi; rw [hm, buildTables_read, if_pos (show i < 1 from hi)]; rfl
  · intro sel i hi; rw [hm, buildTables_read, if_neg (show ¬i < 1 from Nat.not_lt.2 hi), Memory.read_empty]

theorem reset_invariant : Invariant State.reset :=
  Invariant.of_noValue rfl (fun r => by cases r <;> rfl) rfl rfl

theorem built_invariant : Invariant builtState := by
  have no : ∀ {P : Word → Prop}, (Held.noValue : Held Word).Every P := Held.every_noValue
  refine ⟨buildTables_wf 1 1 Memory.empty_wf, ⟨no, no, no, no, no, no, no, no, ?_, ?_⟩, ?_, ?_, ?_⟩
  · exact Held.every_value (by unfold rateInRange; decide)
  · exact Held.every_value ⟨by decide, one_le_tableCap⟩
  · intro h; cases h
  · exact fun _ => built_tablesBuilt _ rfl rfl rfl
  · intro h; cases h

theorem active_invariant : Invariant activeState := by
  have ev : ∀ {P : Word → Prop} {w : Word}, P w → (Held.value w).Every P := Held.every_value
  refine ⟨buildTables_wf 1 1 Memory.empty_wf, ⟨?_, ?_, ?_, ?_, ?_, ?_, ?_, ?_, ?_, ?_⟩, ?_, ?_, ?_⟩
  · exact ev (by unfold phaseInRange; decide)
  · exact ev (by unfold incInRange; decide)
  · exact ev (by unfold gainInRange; decide)
  · exact ev (by unfold coefInRange; decide)
  · exact ev (by unfold coefInRange; decide)
  · exact ev maxFreq_inRange
  · exact ev maxFreq_inRange
  · exact ev maxFreq_inRange
  · exact ev (by unfold rateInRange; decide)
  · exact Held.every_value ⟨by decide, one_le_tableCap⟩
  · intro h; cases h
  · exact fun _ => built_tablesBuilt _ rfl rfl rfl
  · intro _ r; cases r <;> exact ⟨_, rfl⟩

theorem active_targetsFollow : TargetsFollow activeState := by
  refine ⟨?_, rfl⟩
  intro g t hg ht nan
  injection hg with hg
  injection ht with ht
  rw [← hg, ← ht]
  exact (g2l_draw (db := clampDb cZero) (by decide) nan someNaN).trans rfl

/-! ### One step of each command -/

/-- 60_exceptions.md R193: the all-zero word halts the block. -/
theorem test_step_illegal :
    step (State.reset.receive [0#32, 1#32]) = .next { State.reset with illCmd := true, cmd := [1#32] } := rfl

/-- 41_wavetable.md R123: CONSTRUCT 0, +0.0 from reset sets `CFG_ERR` and nothing else. -/
theorem test_step_construct_bad_length :
    step (State.reset.withFetchWord 32 0x10000000) = .next { State.reset with cfgErr := true } := rfl

/-- 41_wavetable.md R123 (c): a sample rate of +0.0 with a length that is not 0. -/
theorem test_step_construct_bad_rate :
    step (State.reset.withFetchWord 32 0x10000004) = .next { State.reset with cfgErr := true } := rfl

/-- 41_wavetable.md R122: CONSTRUCT 1 builds the engine. -/
theorem test_exec_construct : exec (.construct 1#24 0x7F7FFFFF#32) State.reset = .next builtState := by
  have h : constructOk 1#24 0x7F7FFFFF#32 = true := by
    have h₁ : decide ((1#24 : Count).toNat ≤ tableCap) = true := decide_eq_true one_le_tableCap
    unfold constructOk
    rw [h₁]
    decide
  show (if constructOk 1#24 0x7F7FFFFF#32 = true then Host.Outcome.next builtState
    else .next (raise .cfgErr State.reset)) = Host.Outcome.next builtState
  exact if_pos h

/-- 42_lifecycle.md R141: CONSTRUCT while built is refused. -/
theorem test_exec_construct_refused : exec (.construct 1#24 0x3F800000#32) builtState = .next { builtState with seqErr := true } := rfl

/-- 42_lifecycle.md R139 (b), (c): ACTIVATE with a NaN gain and a frequency of −Inf. -/
theorem test_exec_activate :
    ∃ t, exec (.activate someNaN 0xFF800000#32) builtState = .next t ∧
      t.gdb = .value cZero ∧ t.gcur = .value cOne ∧ t.fact = .value freqMin ∧ t.phase = .value cZero ∧ t.life = .active :=
  ⟨_, rfl, rfl, rfl, rfl, rfl, rfl⟩

/-- 42_lifecycle.md R136: ACTIVATE from reset is refused. -/
theorem test_step_activate_refused :
    step (State.reset.withFetchWord 32 0x20000000) = .next { State.reset with seqErr := true } := rfl

/-- 42_lifecycle.md R138. -/
theorem test_exec_deactivate : exec .deactivate activeState = .next { activeState with life := .inactive } := rfl

/-- 42_lifecycle.md R136: DEACTIVATE in `INACTIVE` is refused. -/
theorem test_exec_deactivate_refused : exec .deactivate builtState = .next { builtState with seqErr := true } := rfl

/-- 41_wavetable.md R124: what DESTROY leaves of an engine that had processed. -/
theorem test_exec_destroy : exec .destroy activeState = .next State.reset := rfl

/-- 43_smoother.md R150, 42_lifecycle.md R141: a per-block update while inactive is refused. -/
theorem test_exec_beginBlock_refused :
    exec (.beginBlock 0#32 0x3F800000#32) builtState = .next { builtState with seqErr := true } := rfl

/-- 42_lifecycle.md R138: PROCESS_SAMPLE after DEACTIVATE appends nothing. -/
theorem test_exec_processSample_refused :
    exec (.processSample 0x3F800000#32 0#32) builtState = .next { builtState with seqErr := true } := rfl

/-- 45_block.md R180: a refused PROCESS_BLOCK consumes its samples too. -/
theorem test_step_processBlock_refused :
    step (State.reset.receive [0x50000001#32, 0#32, 0#32, 0#32, 5#32, 0x70000000#32]) =
      .next { State.reset with seqErr := true, cmd := [0x70000000#32] } := rfl

/-! ### The active state completes -/

theorem smooth_one (nan : Nat → Word) : smooth nan cOne cOne = cOne := by
  unfold smooth fsub
  rw [fadd_of_finite (nan 0) (by decide) (by decide), fmul_of_finite (nan 1) (by decide) (by decide),
    fadd_of_finite (nan 2) (by decide) (by decide)]
  decide

theorem smooth_max (nan : Nat → Word) : smooth nan 0x7F7FFFFF#32 0x7F7FFFFF#32 = 0x7F7FFFFF#32 := by
  unfold smooth fsub
  rw [fadd_of_finite (nan 0) (by decide) (by decide), fmul_of_finite (nan 1) (by decide) (by decide),
    fadd_of_finite (nan 2) (by decide) (by decide)]
  decide

theorem sanF_max : sanF 0x7F7FFFFF#32 0x7F7FFFFF#32 = 0x7F7FFFFF#32 := by
  rw [sanF_finite (by decide)]
  split_ifs
  · rename_i h
    rw [flt_iff (by decide) freqMin_not_nan] at h
    exact absurd ((fle_iff freqMin_not_nan (by decide)).1 maxFreq_inRange.2) (Int.not_le.2 h)
  · rfl

theorem newFreqTarget_max : newFreqTarget 0x7F7FFFFF#32 0x7F7FFFFF#32 0x7F7FFFFF#32 = 0x7F7FFFFF#32 := by
  unfold newFreqTarget
  rw [sanF_max]
  split_ifs <;> rfl

/-- A state whose next sample reads entry 0 and whose phase stands at +0.0. -/
structure Ready (s : State) : Prop where
  phase : s.phase = .value cZero
  pinc : s.pinc = .value cOne
  gcur : s.gcur = .value cOne
  tlen : s.tlen = .value 1#24
  mem : s.mem = buildTables 1 1 Memory.empty

theorem active_ready : Ready activeState := ⟨rfl, rfl, rfl, rfl, rfl⟩

theorem ready_sample {s : State} (h : Ready s) (x m : Word) :
    ∃ w, sampleStep x m s = .next (sampleState x m cOne w cZero s) ∧ Ready (sampleState x m cOne w cZero s) := by
  have hi : ∀ nan, toIndex (fmul nan cZero (fromNat (1#24 : Count).toNat)) = some 0 := fun nan => by
    rw [fmul_of_finite nan (by decide) (by decide)]
    decide
  have hf : ∀ nan, frac (fadd nan cZero cOne) = some cZero := fun nan => by
    rw [fadd_of_finite nan (by decide) (by decide)]
    decide
  have hw : ∃ w, s.mem.read (modeSel m) 0 = .value w := by
    rw [h.mem, buildTables_read, if_pos Nat.one_pos]
    cases modeSel m <;> exact ⟨_, rfl⟩
  obtain ⟨w, hw⟩ := hw
  exact ⟨w, sampleStep_value h.phase h.tlen (hi _) (by decide) hw h.gcur h.pinc (hf _), rfl, h.pinc, h.gcur, h.tlen, h.mem⟩

theorem ready_samples {s : State} (h : Ready s) (m : Word) (xs : List Word) : ∃ t, sampleSteps m xs s = .next t := by
  induction xs generalizing s with
  | nil => exact ⟨s, rfl⟩
  | cons x xs ih =>
    obtain ⟨w, e, r⟩ := ready_sample h x m
    obtain ⟨t, ht⟩ := ih r
    exact ⟨t, by rw [sampleSteps, e]; exact ht⟩

theorem active_update (g f : Word) : ∃ t, blockUpdate g f activeState = .next t :=
  ⟨_, blockUpdate_value rfl rfl rfl rfl rfl rfl rfl⟩

theorem active_update_ready : ∃ t, blockUpdate cZero 0x7F7FFFFF#32 activeState = .next t ∧ Ready t := by
  refine ⟨_, blockUpdate_value (s := activeState) rfl rfl rfl rfl rfl rfl rfl, rfl, ?_, ?_, rfl, rfl⟩
  · have hq : ∀ nan, fdiv nan 0x7F7FFFFF#32 0x7F7FFFFF#32 = cOne := fun nan => by
      rw [fdiv_of_finite nan (by decide) (by decide) (by decide)]
      decide
    show newInc _ (smooth _ 0x7F7FFFFF#32 (newFreqTarget _ _ _)) _ _ = _
    rw [newFreqTarget_max, smooth_max, newInc, hq]
    rfl
  · show Held.value (smooth _ cOne (newGainTarget _ _ _ _)) = _
    have hg : ∀ nan, newGainTarget nan cZero cZero cOne = cOne := fun _ => rfl
    rw [hg, smooth_one]

theorem active_beginBlock (g f : Word) : ∃ t, exec (.beginBlock g f) activeState = .next t := active_update g f

theorem active_processSample (x m : Word) : ∃ t, exec (.processSample x m) activeState = .next t := by
  obtain ⟨w, e, _⟩ := ready_sample active_ready x m
  exact ⟨_, e⟩

theorem active_processBlock (m : Word) (xs : List Word) :
    ∃ t, exec (.processBlock cZero 0x7F7FFFFF#32 m xs) activeState = .next t := by
  obtain ⟨u, hu, r⟩ := active_update_ready
  obtain ⟨t, ht⟩ := ready_samples r m xs
  refine ⟨t, ?_⟩
  show andThen (blockUpdate cZero 0x7F7FFFFF#32 activeState) (sampleSteps m xs) = _
  rw [hu]
  exact ht

/-! ### Witnesses: for each statement with hypotheses, concrete values that meet them, at the ends of their ranges -/

/-- A NaN for every draw. -/
def nans : Nat → Word := fun _ => someNaN

theorem nans_isNaN : ∀ j, isNaN (nans j) = true := fun _ => (by decide : isNaN someNaN = true)

/-- The shortest and the longest PROCESS_BLOCK, and CONSTRUCT with the widest field. -/
theorem witness_DecodeReadsBackEncode :
    (Instr.processBlock 0#32 0#32 0#32 []).wellFormed = true ∧
    (Instr.processBlock 0#32 0#32 0#32 (List.replicate (2 ^ 24 - 1) 0#32)).wellFormed = true ∧
    (Instr.construct 0xFFFFFF#24 0#32).wellFormed = true :=
  ⟨by decide, test_wellFormed_admits_longest_block, rfl⟩

theorem witness_EncodeWritesBackDecode :
    decode [0x60000000#32, 7#32] = .packet .deactivate [7#32] ∧
    decode [0x10FFFFFF#32, 1#32] = .packet (.construct 0xFFFFFF#24 1#32) [] := by decide

/-- Headers on both sides of each of the three cases: `OP` 0, 1, 7, 8, 15; `RSV` 0, 1; `N` 0, 1. -/
theorem witness_HeaderIsIllegalExactlyInThreeCases :
    (∀ h, (State.reset.receive [h]).resetIn = false ∧ (State.reset.receive [h]).illCmd = false ∧
      (State.reset.receive [h]).cmd = [h]) ∧
    [0x00000000#32, 0x80000000#32, 0xFFFFFFFF#32, 0x11000000#32, 0x1F000000#32, 0x20000001#32, 0x70800000#32].map illegalHeader =
      [some .reservedOp, some .reservedOp, some .reservedOp, some .reservedBits, some .reservedBits, some .nonzeroN,
        some .nonzeroN] ∧
    [0x10000000#32, 0x10FFFFFF#32, 0x20000000#32, 0x50FFFFFF#32, 0x70000000#32].map illegalHeader =
      [none, none, none, none, none] :=
  ⟨fun _ => ⟨rfl, rfl, rfl⟩, by decide, by decide⟩

theorem witness_PacketLengthsAreThoseOfTheTable :
    decode [0x70000000#32] = .packet .destroy [] ∧
    decode [0x50000000#32, 1#32, 2#32, 3#32] = .packet (.processBlock 1#32 2#32 3#32 []) [] ∧
    decode [0x00000000#32] = .illegal .reservedOp [] := by decide

/-- One word short of a packet, and exactly a packet. -/
theorem witness_IncompletePacketHasNoEffect :
    illegalHeader 0x20000000#32 = none ∧
    (State.reset.receive [0x20000000#32, 0#32]).cmd = [0x20000000#32, 0#32] ∧
    (State.reset.receive [0x20000000#32, 0#32]).cmd.length < packetLength 0x20000000#32 ∧
    packetLength 0x20000000#32 ≤ (State.reset.receive [0x20000000#32, 0#32, 0#32]).cmd.length := by decide

theorem witness_StepRunsTheDecodedCommand :
    (State.reset.receive [0x60000000#32]).resetIn = false ∧ (State.reset.receive [0x60000000#32]).illCmd = false ∧
    decode (State.reset.receive [0x60000000#32]).cmd = .packet .deactivate [] := by decide

theorem witness_IllegalCommandHaltsUntilReset :
    (State.reset.receive [0#32, 5#32]).resetIn = false ∧ (State.reset.receive [0#32, 5#32]).illCmd = false ∧
    decode (State.reset.receive [0#32, 5#32]).cmd = .illegal .reservedOp [5#32] := by decide

theorem witness_HardwareResetRestoresTheResetState : activeState.assertReset.resetIn = true := rfl

/-- One command where it is not legal, one where it is. -/
theorem witness_MisplacedCommandOnlySetsSeqErr :
    (decode (State.reset.receive [0x60000000#32]).cmd = .packet .deactivate [] ∧
      legalIn .deactivate State.reset.life = false) ∧
    (decode (activeState.receive [0x60000000#32]).cmd = .packet .deactivate [] ∧
      legalIn .deactivate activeState.life = true ∧
      step (activeState.receive [0x60000000#32]) = .next { activeState with life := .inactive }) :=
  ⟨⟨by decide, rfl⟩, ⟨by decide, rfl, rfl⟩⟩

/-- A length of 0, and sample rates of +Inf, a NaN, −0.0 and −2^-149. (Whether some length exceeds `TABLE_CAP` depends on that
parameter: with 2^24 − 1 none does.) -/
theorem witness_BadConstructOnlySetsCfgErr :
    State.reset.life = .unbuilt ∧ (0#24 : Count).toNat = 0 ∧ isFinite 0x7F800000#32 = false ∧ isFinite someNaN = false ∧
    fle 0x80000000#32 cZero = true ∧ fle 0x80000001#32 cZero = true ∧
    exec (.construct 0#24 0x3F800000#32) State.reset = .next { State.reset with cfgErr := true } :=
  ⟨rfl, by decide, by decide, by decide, by decide, by decide, rfl⟩

/-- A step that raises `SEQ_ERR` while `CFG_ERR` is set. -/
theorem witness_FlagsAreStickyAndRaisedSingly :
    step ({ State.reset with cfgErr := true }.receive [0x70000000#32]) =
      .next { State.reset with cfgErr := true, seqErr := true } := rfl

theorem witness_NoCommandReadsCfgErrOrSeqErr :
    exec .deactivate activeState = .next { activeState with life := .inactive } := rfl

/-- Each of the four edges. -/
theorem witness_LifeMovesOnlyAlongItsEdges :
    exec (.construct 1#24 0x7F7FFFFF#32) State.reset = .next builtState ∧ builtState.life ≠ State.reset.life ∧
    (∃ t, exec (.activate cZero cOne) builtState = .next t ∧ t.life ≠ builtState.life) ∧
    exec .deactivate activeState = .next { activeState with life := .inactive } ∧
    exec .destroy activeState = .next State.reset :=
  ⟨test_exec_construct, by decide, ⟨_, rfl, by decide⟩, rfl, rfl⟩

/-- A command that is executed and one that is refused. -/
theorem witness_OutGrowsByTheCommandsWords :
    (∃ t, exec (.processSample cOne cZero) activeState = .next t) ∧ legalIn (.processSample cOne cZero) activeState.life = true ∧
    (∃ t, exec (.processSample cOne cZero) builtState = .next t) ∧ legalIn (.processSample cOne cZero) builtState.life = false :=
  ⟨active_processSample _ _, rfl, ⟨_, rfl⟩, rfl⟩

/-- The shortest length, the smallest and the largest sample rate; and a built block. -/
theorem witness_ConstructBuildsBothTables :
    builtState.life ≠ .unbuilt ∧ State.reset.life = .unbuilt ∧ 1 ≤ (1#24 : Count).toNat ∧ (1#24 : Count).toNat ≤ tableCap ∧
    isFinite 0x00000001#32 = true ∧ flt cZero 0x00000001#32 = true ∧
    isFinite 0x7F7FFFFF#32 = true ∧ flt cZero 0x7F7FFFFF#32 = true :=
  ⟨by decide, rfl, by decide, one_le_tableCap, by decide, by decide, by decide, by decide⟩

theorem witness_DestroyLeavesNoValue : State.reset.life = .unbuilt ∧ activeState.life ≠ .unbuilt := ⟨rfl, by decide⟩

theorem witness_TablesAreAPureFunctionAndImmutable :
    State.reset.life = .unbuilt ∧ exec (.construct 1#24 0x7F7FFFFF#32) State.reset = .next builtState ∧
    builtState.life = .inactive ∧
    step (activeState.receive [0x60000000#32]) = .next { activeState with life := .inactive } ∧ activeState.life ≠ .unbuilt :=
  ⟨rfl, test_exec_construct, rfl, rfl, by decide⟩

theorem witness_SquareFollowsTheStoredSine :
    Invariant builtState ∧ builtState.life ≠ .unbuilt ∧ builtState.tlen = .value 1#24 ∧ 0 < (1#24 : Count).toNat :=
  ⟨built_invariant, by decide, rfl, by decide⟩

/-- Two memories built in different orders that read alike, and entries that differ in the table or in the number. -/
theorem witness_MemoryIsWhatItsReadsSay :
    ((Memory.empty.write .sine 0 cOne).write .sine 1 cZero).wf ∧ ((Memory.empty.write .sine 1 cZero).write .sine 0 cOne).wf ∧
    (∀ sel idx, ((Memory.empty.write .sine 0 cOne).write .sine 1 cZero).read sel idx =
      ((Memory.empty.write .sine 1 cZero).write .sine 0 cOne).read sel idx) ∧
    (Wave.sine ≠ Wave.square ∨ (0 : Nat) ≠ 0) ∧ (Wave.sine ≠ Wave.sine ∨ (0 : Nat) ≠ 1) :=
  ⟨Memory.write_wf (Memory.write_wf Memory.empty_wf _ _ _) _ _ _, Memory.write_wf (Memory.write_wf Memory.empty_wf _ _ _) _ _ _,
    fun _ _ => rfl, by decide, by decide⟩

theorem witness_ActivateResetsOscillatorAndSmoothers : State.reset.life = .unbuilt ∧ builtState.life ≠ .unbuilt :=
  ⟨rfl, by decide⟩

theorem witness_ActivateForgetsTheHistory : builtState.life ≠ .unbuilt ∧ activeState.life ≠ .unbuilt := by
  constructor <;> decide

/-- Every number up to zero lies below `FREQ_MIN`. -/
theorem flt_freqMin {w : Word} (hn : isNaN w = false) (h : value w ≤ 0) : flt w freqMin = true := by
  rw [flt_iff hn freqMin_not_nan]
  have hp := (Bool.and_eq_true_iff.1 (isPositive_iff.2 freqMin_range)).2
  rw [flt_iff (by decide) freqMin_not_nan] at hp
  exact lt_of_le_of_lt h hp

/-- Each corner: a NaN gain, −0.0, +Inf, −120.0, −Inf; a frequency that is a NaN, −Inf, zero. -/
theorem witness_ActivateCornerOperands :
    builtState.life ≠ .unbuilt ∧ (∀ g f, ∃ t, exec (.activate g f) builtState = .next t) ∧ isNaN someNaN = true ∧
    fle 0x00000000#32 0x80000000#32 = true ∧ fle 0x00000000#32 0x7F800000#32 = true ∧
    fle 0xC2F00000#32 0xC2F00000#32 = true ∧ fle 0xFF800000#32 0xC2F00000#32 = true ∧
    isFinite someNaN = false ∧ isFinite 0xFF800000#32 = false ∧ flt 0x00000000#32 freqMin = true :=
  ⟨by decide, fun _ _ => ⟨_, rfl⟩, by decide, by decide, by decide, by decide, by decide, by decide, by decide,
    flt_freqMin (by decide) (by decide)⟩

theorem witness_FirstCommandsAfterActivate :
    Invariant builtState ∧ builtState.life ≠ .unbuilt ∧ ∃ t, exec (.activate cZero cOne) builtState = .next t :=
  ⟨built_invariant, by decide, _, rfl⟩

theorem witness_DeactivateOnlyLeavesActive : builtState.life ≠ .active ∧ activeState.life = .active := ⟨by decide, rfl⟩

theorem witness_BeginBlockTakesItsFourSteps :
    builtState.life ≠ .active ∧ activeState.life = .active ∧
    activeState.gdb = .value cZero ∧ activeState.gcur = .value cOne ∧ activeState.gtgt = .value cOne ∧
    activeState.ftgt = .value 0x7F7FFFFF#32 ∧ activeState.flast = .value 0x7F7FFFFF#32 ∧
    activeState.fact = .value 0x7F7FFFFF#32 ∧ activeState.srate = .value 0x7F7FFFFF#32 ∧
    gainInRange cZero ∧ coefInRange cOne ∧ freqInRange 0x7F7FFFFF#32 ∧ rateInRange 0x7F7FFFFF#32 :=
  ⟨by decide, rfl, rfl, rfl, rfl, rfl, rfl, rfl, rfl, by unfold gainInRange; decide, by unfold coefInRange; decide,
    maxFreq_inRange, by unfold rateInRange; decide⟩

theorem witness_TargetsFollowTheStoredOperands :
    Invariant activeState ∧ TargetsFollow activeState ∧ activeState.life = .active ∧ activeState.gdb = .value cZero ∧
    activeState.flast = .value 0x7F7FFFFF#32 ∧ (∃ t, exec (.beginBlock 0xC1A00000#32 cOne) activeState = .next t) ∧
    ∃ t, step activeState = .next t :=
  ⟨active_invariant, active_targetsFollow, rfl, rfl, rfl, active_beginBlock _ _, _, rfl⟩

theorem witness_BlockUpdateApproachesItsTargets :
    Invariant activeState ∧ activeState.life = .active ∧ ∃ t, exec (.beginBlock 0xC1A00000#32 cOne) activeState = .next t :=
  ⟨active_invariant, rfl, active_beginBlock _ _⟩

theorem witness_ProcessSampleReadsMixesAdvances :
    builtState.life ≠ .active ∧ activeState.life = .active ∧ activeState.phase = .value cZero ∧ activeState.pinc = .value cOne ∧
    activeState.gcur = .value cOne ∧ activeState.tlen = .value 1#24 ∧ phaseInRange cZero ∧ incInRange cOne ∧ coefInRange cOne ∧
    1 ≤ (1#24 : Count).toNat ∧
    (∀ m i, i < (1#24 : Count).toNat → ∃ w, activeState.mem.read (modeSel m) i = .value w ∧ waveInRange w) ∧
    ∀ j, isNaN (nans j) = true := by
  refine ⟨by decide, rfl, rfl, rfl, rfl, rfl, by unfold phaseInRange; decide, by unfold incInRange; decide,
    by unfold coefInRange; decide, by decide, fun m i hi => ?_, nans_isNaN⟩
  show ∃ w, (buildTables 1 1 Memory.empty).read (modeSel m) i = .value w ∧ waveInRange w
  rw [buildTables_read, if_pos (show i < 1 from hi)]
  cases modeSel m
  · exact ⟨_, rfl, waveInRange_sinTab _ _⟩
  · exact ⟨_, rfl, waveInRange_squareEntry _⟩

/-- The largest phase, with the shortest and the longest table. -/
theorem witness_TableIndexIsAlwaysInBounds :
    phaseInRange 0x3F7FFFFF#32 ∧ 1 ≤ 1 ∧ 1 < 2 ^ 24 ∧ 1 ≤ 16777215 ∧ 16777215 < 2 ^ 24 ∧
    toIndex (fmul someNaN 0x3F7FFFFF#32 (fromNat 16777215)) = some 16777214 :=
  ⟨by unfold phaseInRange; decide, by decide, by decide, by decide, by decide, by decide⟩

/-- The largest phase; increments that leave the sum below 1, carry it past 2^23, and are +0.0. -/
theorem witness_PhaseAdvanceWrapsIntoRange :
    phaseInRange 0x3F7FFFFF#32 ∧ incInRange 0x7F7FFFFF#32 ∧ incInRange 0x00000000#32 ∧
    flt (fadd someNaN 0x3F7FFFFF#32 0x32800000#32) cOne = true ∧
    fle 0x4B000000#32 (fadd someNaN 0x3F7FFFFF#32 0x4B000000#32) = true :=
  ⟨by unfold phaseInRange; decide, by unfold incInRange; decide, by unfold incInRange; decide, by decide, by decide⟩

/-- The two ends of the coefficient, the two ends of the wave, both zeros; a finite sample and a NaN. -/
theorem witness_MixHasItsExactCases :
    coefInRange 0x3F800000#32 ∧ coefInRange 0x00000000#32 ∧ coefInRange 0x3DCCCCCD#32 ∧ coefInRange 0x3F68F5C3#32 ∧
    waveInRange 0x3F800000#32 ∧ waveInRange 0xBF800000#32 ∧ waveInRange 0x80000000#32 ∧ magBits 0x80000000#32 = 0 ∧
    isNaN 0x7F800000#32 = false ∧ isNaN someNaN = true ∧ isFinite 0xFF7FFFFF#32 = true ∧ ∀ j, isNaN (nans j) = true :=
  ⟨by unfold coefInRange; decide, by unfold coefInRange; decide, by unfold coefInRange; decide, by unfold coefInRange; decide,
    by unfold waveInRange; decide, by unfold waveInRange; decide, by unfold waveInRange; decide, by decide, by decide, by decide,
    by decide, nans_isNaN⟩

/-- The last coefficient whose factor at −1.0 is zero and the first whose factor is not. -/
theorem witness_MixFactorStaysInUnitRange :
    coefInRange 0x33000000#32 ∧ coefInRange 0x33000001#32 ∧ waveInRange 0xBF800000#32 ∧
    mixFactor nans 0x33000000#32 0xBF800000#32 = 0x00000000#32 ∧ mixFactor nans 0x33000001#32 0xBF800000#32 ≠ 0x00000000#32 :=
  ⟨by unfold coefInRange; decide, by unfold coefInRange; decide, by unfold waveInRange; decide, by decide, by decide⟩

/-- A NaN; an infinity with a factor above zero and with the factor zero; −0.0; the largest finite sample. -/
theorem witness_SpecialSamplesMixAsStated :
    coefInRange cOne ∧ coefInRange cZero ∧ waveInRange cMOne ∧ (∀ j, isNaN (nans j) = true) ∧ isNaN someNaN = true ∧
    isInf 0xFF800000#32 = true ∧ flt cZero (mixFactor nans cOne cMOne) = true ∧
    mixFactor nans cZero cMOne = 0x00000000#32 ∧ magBits 0x80000000#32 = 0 ∧ isFinite 0xFF7FFFFF#32 = true :=
  ⟨by unfold coefInRange; decide, by unfold coefInRange; decide, by unfold waveInRange; decide, nans_isNaN, by decide,
    by decide, by decide, by decide, by decide, by decide⟩

theorem witness_AudioNeverEntersTheState :
    [cOne].length = [someNaN].length ∧
    (∃ t, exec (.processBlock cZero 0x7F7FFFFF#32 cZero [cOne]) activeState = .next t) ∧
    ∃ t, exec (.processBlock cZero 0x7F7FFFFF#32 cZero [someNaN]) activeState = .next t :=
  ⟨rfl, active_processBlock _ _, active_processBlock _ _⟩

/-- The shortest and the longest block; outside `ACTIVE`; in a safe `ACTIVE` state. -/
theorem witness_ProcessBlockUpdatesThenProcessesEverySample :
    ([] : List Word).length < 2 ^ 24 ∧ (List.replicate (2 ^ 24 - 1) (0#32 : Word)).length < 2 ^ 24 ∧
    builtState.life ≠ .active ∧ Invariant activeState ∧ activeState.life = .active :=
  ⟨by decide, by rw [List.length_replicate]; decide, by decide, active_invariant, rfl⟩

theorem witness_EmptyBlockIsBeginBlock :
    ∃ t, exec (.processBlock cZero 0x7F7FFFFF#32 cZero []) activeState = .next t := active_processBlock _ _

theorem witness_ProcessBlockEqualsItsParts : builtState.life ≠ .active := by decide

theorem witness_SplittingIsInvisibleOnTarget :
    Invariant activeState ∧ activeState.life = .active ∧ activeState.gdb = .value cZero ∧
    activeState.flast = .value 0x7F7FFFFF#32 ∧ activeState.gcur = activeState.gtgt ∧ activeState.fact = activeState.ftgt ∧
    ∃ t, exec (.processBlock cZero 0x7F7FFFFF#32 cZero ([cOne] ++ [cHalf])) activeState = .next t :=
  ⟨active_invariant, rfl, rfl, rfl, rfl, rfl, active_processBlock _ _⟩

/-- A quotient at the bound of the overflow, just below it, and a tie. -/
theorem witness_RoundingIsToNearestEven :
    0 < 1 ∧ roundMag ((2 ^ 25 - 1) * 2 ^ 252) 1 = infBits ∧ roundMag ((2 ^ 25 - 1) * 2 ^ 252 - 1) 1 < infBits ∧
    roundMag 1 2 = 0 ∧ roundMag 3 2 = 2 := by decide

/-- A sum that is zero, one that is not, and a product of the two zeros; a NaN, two opposite infinities, an infinity and a zero. -/
theorem witness_SumAndProductRoundTheExactResult :
    isFinite cOne = true ∧ isFinite cMOne = true ∧ isFinite 0x80000000#32 = true ∧ value cOne + value cMOne = 0 ∧
    value cOne + value cOne ≠ 0 ∧ isNaN someNaN = true ∧ isInf 0x7F800000#32 = true ∧ isInf 0xFF800000#32 = true ∧
    signBit 0x7F800000#32 ≠ signBit 0xFF800000#32 ∧ magBits 0x80000000#32 = 0 := by decide

/-- Below 1, at 2^23, −0.0; and below zero, infinite, NaN. -/
theorem witness_FracIsExactAndBelowOne :
    isFinite 0x3F7FFFFF#32 = true ∧ 0 ≤ value 0x3F7FFFFF#32 ∧ signBit 0x3F7FFFFF#32 = false ∧
    isFinite 0x4B000000#32 = true ∧ 0 ≤ value 0x4B000000#32 ∧ 0 ≤ value 0x80000000#32 ∧
    value 0x80000001#32 < 0 ∧ isFinite 0x7F800000#32 = false ∧ isFinite someNaN = false := by decide

theorem witness_IntegerConversionsAreExact :
    16777216 ≤ 2 ^ 24 ∧ fromNat 16777216 = 0x4B800000#32 ∧ isFinite 0x4B7FFFFF#32 = true ∧ 0 ≤ value 0x4B7FFFFF#32 ∧
    value 0x80000001#32 < 0 ∧ isFinite 0x7F800000#32 = false := by decide

/-- A step down, a step up and a step on the target. -/
theorem witness_SmoothNeverOvershoots :
    isFinite cOne = true ∧ isFinite cZero = true ∧ isFinite (fsub (nans 0) cZero cOne) = true ∧
    isFinite (fsub (nans 0) cOne cZero) = true ∧ isFinite (fsub (nans 0) cOne cOne) = true ∧
    fle cZero cOne = true ∧ signBit cOne = false ∧ signBit cZero = false := by decide

/-- Below, at, inside, at and above the ends of the clamp, −0.0 and the infinities. -/
theorem witness_ClampDbKeepsItsRange :
    flt 0xFF800000#32 0xC2F00000#32 = true ∧ flt 0xC2F00001#32 0xC2F00000#32 = true ∧ flt 0x00000000#32 0x00000001#32 = true ∧
    flt 0x00000000#32 0x7F800000#32 = true ∧ fle 0xC2F00000#32 0xC2F00000#32 = true ∧ fle 0x80000000#32 0x00000000#32 = true ∧
    fle 0xC2F00000#32 0x80000000#32 = true ∧ isNaN 0x7F800000#32 = false := by decide

theorem witness_GainConversionStaysInUnitRange :
    fle 0xC2F00000#32 0xC2F00000#32 = true ∧ fle 0xC2F00000#32 0x00000000#32 = true ∧ fle 0xC2F00000#32 0xC2EFFFFF#32 = true ∧
    fle 0xC2EFFFFF#32 0x00000000#32 = true ∧ (0xC2EFFFFF#32 : Word) ≠ 0xC2F00000#32 ∧ magBits 0x80000000#32 = 0 := by decide

theorem witness_SanitisersRepairExactlyTheAnomalies :
    freqInRange 0x7F7FFFFF#32 ∧ gainInRange cZero ∧ isFinite 0xFF800000#32 = false ∧ isFinite 0xBF800000#32 = true ∧
    flt 0xBF800000#32 freqMin = true ∧ isNaN someNaN = true ∧ isNaN 0x7F800000#32 = false :=
  ⟨maxFreq_inRange, by unfold gainInRange; decide, by decide, by decide, flt_freqMin (by decide) (by decide), by decide, by decide⟩

/-- The state after reset and an active state take a step. -/
theorem witness_EveryStepKeepsTheInvariant :
    Invariant State.reset ∧ step State.reset = .next State.reset ∧
    Invariant activeState ∧ step activeState = .next activeState :=
  ⟨reset_invariant, rfl, active_invariant, rfl⟩

theorem witness_SafeStatesNeverStop : Invariant State.reset ∧ Invariant builtState ∧ Invariant activeState :=
  ⟨reset_invariant, built_invariant, active_invariant⟩

theorem witness_EveryStepKeepsTheMemoryForm : activeState.mem.wf ∧ step activeState = .next activeState :=
  ⟨active_invariant.memWf, rfl⟩

theorem witness_ProcessingPathIsTotal :
    Invariant activeState ∧ activeState.life = .active ∧ isProcessing (.processBlock someNaN someNaN someNaN [cOne]) = true ∧
    samplesOf (.processBlock someNaN someNaN someNaN [cOne]) = [cOne] ∧ isFinite cOne = true :=
  ⟨active_invariant, rfl, rfl, rfl, rfl⟩

theorem witness_NoRegisterEverHoldsANaN : Invariant activeState := active_invariant

theorem witness_DrawsReachOnlyNaNOutputs :
    Invariant activeState ∧ ∃ t, exec (.processSample someNaN cZero) activeState = .next t :=
  ⟨active_invariant, active_processSample _ _⟩

/-- Each command where it is legal, and one where it is not; an empty block and one that is not. -/
theorem witness_OnlyActivateResetsTheSmoothing :
    (∃ t, exec (.construct 1#24 0x7F7FFFFF#32) State.reset = .next t) ∧ (∃ t, exec (.activate cZero cOne) builtState = .next t) ∧
    (∃ t, exec (.beginBlock cZero cOne) activeState = .next t) ∧ (∃ t, exec (.processSample cOne cZero) activeState = .next t) ∧
    (∃ t, exec (.processBlock cZero 0x7F7FFFFF#32 cZero []) activeState = .next t) ∧
    (∃ t, exec (.processBlock cZero 0x7F7FFFFF#32 cZero [cOne]) activeState = .next t) ∧
    (∃ t, exec .deactivate activeState = .next t) ∧ (∃ t, exec .destroy activeState = .next t) ∧
    (∃ t, exec .destroy State.reset = .next t) ∧ legalIn .destroy State.reset.life = false ∧
    legalIn (.processBlock cZero 0x7F7FFFFF#32 cZero [cOne]) activeState.life = true :=
  ⟨⟨_, test_exec_construct⟩, ⟨_, rfl⟩, active_beginBlock _ _, active_processSample _ _, active_processBlock _ _,
    active_processBlock _ _, ⟨_, rfl⟩, ⟨_, rfl⟩, ⟨_, rfl⟩, rfl, rfl⟩

/-- A difference that is not zero, one that is, −0.0 minus +0.0; a quotient, a quotient by zero, 0 / 0; a NaN, two infinities. -/
theorem witness_DifferenceAndQuotientRoundTheExactResult :
    isFinite cOne = true ∧ isFinite cMOne = true ∧ value cMOne ≠ value cOne ∧ value 0x80000000#32 = value cZero ∧
    isFinite 0x80000000#32 = true ∧ isFinite 0x7F7FFFFF#32 = true ∧ isFinite 0x00000001#32 = true ∧ value 0x00000001#32 ≠ 0 ∧
    value 0x80000000#32 = 0 ∧ value cOne ≠ 0 ∧ isNaN someNaN = true ∧ isInf 0x7F800000#32 = true ∧
    signBit 0x7F800000#32 = signBit 0x7F800000#32 := by decide

end Sys2Proof.Tests
end

section
/-! The open parameters meet the properties the spec requires of them (00_scope.md R7). -/

namespace Sys2Proof.Machine

/-- The unit 2^-149 is positive, so a word's number has the sign of its integer value. -/
theorem ratValue_pos_iff {w : Word} : 0 < ratValue w ↔ 0 < value w := by
  unfold ratValue
  rw [div_pos_iff_of_pos_right (by positivity), Int.cast_pos]

theorem value_pos_of_lt {w : Word} (hpos : 0 < w.toNat) (hlt : w.toNat < infBits) : 0 < value w := by
  rw [value_of_lt (hlt.trans (by decide)), Int.natCast_pos, Nat.pos_iff_ne_zero]
  exact mt patternMag_eq_zero.1 hpos.ne'

theorem freqMin_finite_pos : isFinite freqMin = true ∧ 0 < ratValue freqMin := by
  obtain ⟨hpos, hlt⟩ := freqMin_range
  exact ⟨isFinite_of_lt hlt, ratValue_pos_iff.2 (value_pos_of_lt hpos hlt)⟩

/-- `POW10_ONE` (40_numerics.md R103): both zeros have magnitude bits 0. -/
theorem pow10_one : Pow10One := ⟨pow10_zero (by decide), pow10_zero (by decide)⟩

/-- Settles O50: each open parameter lies in the range that Machine/Params.lean brings its free choice into. -/
theorem parametersHaveTheirRequiredProperties : Obligations.ParametersHaveTheirRequiredProperties := by
  refine ⟨⟨one_le_tableCap, Nat.le_pred_of_lt tableCap_lt⟩, freqMin_finite_pos, pow10_one, ?pow10Range, ?sinRange,
    nanAt_isNaN⟩
  case pow10Range => exact fun q _ => pow10_range q
  case sinRange => exact fun len i _ _ _ => waveInRange_sinTab i len

end Sys2Proof.Machine
end

section
/-! The numbers of the datapath stay in their ranges: the smoothing step between its operands (43_smoother.md R156), the table index
below the length (44_nco_mixer.md R167), the phase below 1 (R171), the increment finite (43_smoother.md R154). -/

namespace Sys2Proof.Machine

/-! ### How far one rounding can move a quotient -/

/-- Rounding raises a quotient by at most 2^-24 of it, or by half a unit in the subnormal range. -/
theorem roundMag_upper_relative {n d : Nat} (h : roundMag n d < infBits) :
    2 ^ 24 * (patternMag (roundMag n d) * d) ≤ (2 ^ 24 + 1) * n + 2 ^ 23 * d := by
  have hup := roundMag_upper n d h
  rcases dropBits_unit n d with hz | hu
  · rw [hz] at hup; omega
  · omega

/-- What lies below the middle between the largest finite magnitude and 2^128 does not round to infinity. -/
theorem roundMag_lt_inf_of_lt_middle {n : Nat} (h : n < (2 ^ 25 - 1) * 2 ^ 252) : roundMag n 1 < infBits := by
  have hinf : infBits = 253 * 2 ^ 23 + 2 ^ 24 := by decide
  have hsig := significand_le n 1
  have hdrop : dropBits n 1 ≤ 253 := by
    by_contra hgt
    have hq := quotient_ge (n := n) (d := 1) (by omega)
    have hpow : 2 ^ 254 ≤ 2 ^ dropBits n 1 := Nat.pow_le_pow_right (by omega) (by omega)
    rw [Nat.pow_add] at hq
    omega
  rw [roundMag_def]
  refine (min_le_left _ _).trans_lt ?_
  rcases Nat.lt_or_eq_of_le hdrop with hlt | heq
  · omega
  · have hup := (roundHalfEven_upper n (1 * 2 ^ 253)).1
    have hs : significand n 1 = roundHalfEven n (1 * 2 ^ 253) := by rw [significand, heq]
    omega

/-! ### The smoothing step -/

/-- A difference is the exact difference rounded, with its sign where it is not zero (40_numerics.md R92). -/
theorem fsub_eq_pack {a b : Word} (nan : Word) (ha : isFinite a = true) (hb : isFinite b = true) :
    ∃ neg, fsub nan a b = pack neg (roundMag (value a - value b).natAbs 1) ∧
      (value a < value b → neg = true) ∧ (value b < value a → neg = false) := by
  rw [fsub, fadd_of_finite nan ha (by rwa [isFinite_negate]), value_negate, ← sub_eq_add_neg]
  split_ifs with h
  · exact ⟨signBit a && signBit (negate b), by rw [h, Int.natAbs_zero, roundMag_zero], by omega, by omega⟩
  · exact ⟨_, rfl, fun hlt => decide_eq_true (by omega), fun hlt => decide_eq_false (by omega)⟩

/-- 0.1 of a rounded distance, rounded again, is at most the exact distance. -/
theorem smoothStep_le {n : Nat} (h : roundMag n 1 < infBits) :
    roundMag (magnitude cSmooth * patternMag (roundMag n 1)) (2 ^ 149) < infBits ∧
      patternMag (roundMag (magnitude cSmooth * patternMag (roundMag n 1)) (2 ^ 149)) ≤ n := by
  have hc : magnitude cSmooth = 0xCCCCCD * 2 ^ 122 := by decide
  have hdist := roundMag_upper_relative h
  rw [hc]
  have hle : roundMag (0xCCCCCD * 2 ^ 122 * patternMag (roundMag n 1)) (2 ^ 149) ≤ roundMag n 1 :=
    roundMag_le_of_le (by positivity) h.le (by omega)
  have hlt := hle.trans_lt h
  have hstep := roundMag_upper_relative hlt
  exact ⟨hlt, by omega⟩

/-- The increment of a smoothing step goes toward the target and not past it. -/
theorem smoothIncrement_between {c t : Word} (nan nan' : Word) (hc : isFinite c = true) (ht : isFinite t = true)
    (hd : isFinite (fsub nan t c) = true) :
    isFinite (fmul nan' cSmooth (fsub nan t c)) = true ∧
      (value c ≤ value t → 0 ≤ value (fmul nan' cSmooth (fsub nan t c)) ∧
        value (fmul nan' cSmooth (fsub nan t c)) ≤ value t - value c) ∧
      (value t ≤ value c → value t - value c ≤ value (fmul nan' cSmooth (fsub nan t c)) ∧
        value (fmul nan' cSmooth (fsub nan t c)) ≤ 0) := by
  have hs : signBit cSmooth = false := by decide
  rw [fmul_of_finite nan' (by decide) hd, hs]
  obtain ⟨neg, he, hneg, hpos⟩ := fsub_eq_pack nan ht hc
  have hlt : roundMag (value t - value c).natAbs 1 < infBits := by
    rwa [he, isFinite_iff, magBits_pack (roundMag_lt _ _)] at hd
  obtain ⟨hfin, hle⟩ := smoothStep_le hlt
  rw [he, signBit_pack (roundMag_lt _ _), magnitude_pack (roundMag_lt _ _), isFinite_iff, magBits_pack (roundMag_lt _ _),
    value_pack (roundMag_lt _ _), Bool.false_bne]
  generalize roundMag (magnitude cSmooth * _) (2 ^ 149) = step at hfin hle ⊢
  refine ⟨hfin, ?_⟩
  cases neg with
  | true =>
    have hle' : value t ≤ value c := by simpa using hpos
    rw [if_pos rfl]
    omega
  | false =>
    have hle' : value c ≤ value t := by simpa using hneg
    rw [if_neg Bool.false_ne_true]
    omega

section Smoothing

variable {nan : Nat → Word} {c t : Word} (hc : isFinite c = true) (ht : isFinite t = true)
  (hd : isFinite (fsub (nan 0) t c) = true)
include hc ht hd

/-- A smoothing step toward a target above does not pass it and does not move away (40_numerics.md R110). -/
theorem smooth_up (h : value c ≤ value t) : value c ≤ value (smooth nan c t) ∧ value (smooth nan c t) ≤ value t := by
  obtain ⟨hf, hup, -⟩ := smoothIncrement_between (nan 0) (nan 1) hc ht hd
  obtain ⟨h₀, h₁⟩ := hup h
  exact ⟨le_fadd _ hc hf (isNaN_of_isFinite hc) (by omega), fadd_le _ hc hf (isNaN_of_isFinite ht) (by omega)⟩

/-- A smoothing step toward a target below does not pass it and does not move away (40_numerics.md R110). -/
theorem smooth_down (h : value t ≤ value c) : value t ≤ value (smooth nan c t) ∧ value (smooth nan c t) ≤ value c := by
  obtain ⟨hf, -, hdown⟩ := smoothIncrement_between (nan 0) (nan 1) hc ht hd
  obtain ⟨h₀, h₁⟩ := hdown h
  exact ⟨le_fadd _ hc hf (isNaN_of_isFinite ht) (by omega), fadd_le _ hc hf (isNaN_of_isFinite hc) (by omega)⟩

end Smoothing

/-- A sum that is not negative, of a word with sign bit 0, has sign bit 0. -/
theorem signBit_fadd_nonneg {a b : Word} (nan : Word) (ha : isFinite a = true) (hb : isFinite b = true)
    (hs : signBit a = false) (h : 0 ≤ value a + value b) : signBit (fadd nan a b) = false := by
  rw [fadd_of_finite nan ha hb]
  split_ifs
  · rw [signBit_pack (by decide), hs, Bool.false_and]
  · rw [signBit_pack (roundMag_lt _ _), decide_eq_false (by omega)]

/-- Smoothing keeps sign bit 0 (40_numerics.md R110). -/
theorem signBit_smooth {nan : Nat → Word} {c t : Word} (hc : c.toNat < infBits) (ht : t.toNat < infBits) :
    signBit (smooth nan c t) = false := by
  have hc' : c.toNat < 2 ^ 31 := hc.trans (by decide)
  have h₀ := value_nonneg_of_lt hc'
  have h₁ := value_nonneg_of_lt (ht.trans (by decide))
  obtain ⟨hf, hup, hdown⟩ := smoothIncrement_between (nan 0) (nan 1) (isFinite_of_lt hc) (isFinite_of_lt ht)
    (fsub_finite _ ht hc)
  refine signBit_fadd_nonneg _ (isFinite_of_lt hc) hf (signBit_of_lt hc') ?_
  rcases le_total (value c) (value t) with h | h
  · have := (hup h).1; omega
  · have := (hdown h).1; omega

/-- Smoothing stays in every range of patterns that holds both its operands (43_smoother.md R156). -/
theorem smooth_inRange (nan : Nat → Word) {c t : Word} {lo hi : Nat} (hhi : hi < infBits)
    (hc : lo ≤ c.toNat ∧ c.toNat ≤ hi) (ht : lo ≤ t.toNat ∧ t.toNat ≤ hi) :
    lo ≤ (smooth nan c t).toNat ∧ (smooth nan c t).toNat ≤ hi := by
  have hci : c.toNat < infBits := hc.2.trans_lt hhi
  have hti : t.toNat < infBits := ht.2.trans_lt hhi
  have hfc := isFinite_of_lt hci
  have hft := isFinite_of_lt hti
  have hd : isFinite (fsub (nan 0) t c) = true := fsub_finite _ hti hci
  have hs := value_of_lt (lt_of_signBit (signBit_smooth (nan := nan) hci hti))
  have hvc := value_of_lt (hci.trans (by decide))
  have hvt := value_of_lt (hti.trans (by decide))
  rcases le_total (value c) (value t) with h | h
  · obtain ⟨h₁, h₂⟩ := smooth_up hfc hft hd h
    rw [hs, hvc, Nat.cast_le, patternMag_le] at h₁
    rw [hs, hvt, Nat.cast_le, patternMag_le] at h₂
    exact ⟨hc.1.trans h₁, h₂.trans ht.2⟩
  · obtain ⟨h₁, h₂⟩ := smooth_down hfc hft hd h
    rw [hs, hvt, Nat.cast_le, patternMag_le] at h₁
    rw [hs, hvc, Nat.cast_le, patternMag_le] at h₂
    exact ⟨ht.1.trans h₁, h₂.trans hc.2⟩

theorem coefInRange_smooth (nan : Nat → Word) {c t : Word} (hc : coefInRange c) (ht : coefInRange t) :
    coefInRange (smooth nan c t) :=
  (smooth_inRange nan (by decide) ⟨Nat.zero_le _, hc⟩ ⟨Nat.zero_le _, ht⟩).2

theorem freqInRange_smooth (nan : Nat → Word) {c t : Word} (hc : freqInRange c) (ht : freqInRange t) :
    freqInRange (smooth nan c t) := by
  rw [freqInRange_iff] at hc ht ⊢
  have h := smooth_inRange nan (c := c) (t := t) (lo := freqMin.toNat) (hi := infBits - 1) (by decide) (by omega) (by omega)
  exact ⟨h.1, Nat.lt_of_le_pred (by decide) h.2⟩

/-! ### Operands and targets -/

theorem freqInRange_freqMin : freqInRange freqMin := freqInRange_iff.2 ⟨le_rfl, freqMin_range.2⟩

/-- A sanitised frequency is in range when its fallback is (40_numerics.md R105). -/
theorem freqInRange_sanF (f : Word) {fb : Word} (h : freqInRange fb) : freqInRange (sanF f fb) := by
  cases hf : isFinite f with
  | false => rwa [sanF_not_finite hf]
  | true =>
    rw [sanF_finite hf]
    split_ifs with hlt
    · exact freqInRange_freqMin
    · rw [flt_iff (isNaN_of_isFinite hf) freqMin_not_nan] at hlt
      exact ⟨hf, (fle_iff freqMin_not_nan (isNaN_of_isFinite hf)).2 (not_lt.1 hlt)⟩

theorem coefInRange_g2l (nan db : Word) : coefInRange (g2l nan db) := g2l_range nan db

theorem coefInRange_newGainTarget (nan g gdb : Word) {gtgt : Word} (h : coefInRange gtgt) :
    coefInRange (newGainTarget nan g gdb gtgt) := by
  unfold newGainTarget
  split_ifs
  · exact coefInRange_g2l _ _
  · exact h

theorem freqInRange_newFreqTarget (f : Word) {flast ftgt : Word} (hl : freqInRange flast) (ht : freqInRange ftgt) :
    freqInRange (newFreqTarget f flast ftgt) := by
  unfold newFreqTarget
  split_ifs
  · exact freqInRange_sanF f hl
  · exact ht

/-- The increment is kept, or replaced by a finite quotient with sign bit 0 (43_smoother.md R154). -/
theorem newInc_inRange (nan : Word) {fact sr : Word} {pinc : Held Word} (hf : freqInRange fact) (hr : rateInRange sr)
    (hp : pinc.Some incInRange) : (newInc nan fact sr pinc).Some incInRange := by
  obtain ⟨-, hfi⟩ := freqInRange_iff.1 hf
  obtain ⟨hr0, hri⟩ := rateInRange_iff.1 hr
  have hri' : sr.toNat < 2 ^ 31 := hri.trans (by decide)
  have hq := fdiv_of_finite nan (isFinite_of_lt hfi) (isFinite_of_lt hri) (by rw [magBits_of_lt hri']; omega)
  rw [signBit_of_lt (hfi.trans (by decide)), signBit_of_lt hri'] at hq
  unfold newInc
  split_ifs with h
  · refine ⟨_, rfl, ?_⟩
    rw [hq, isFinite_iff, magBits_pack (roundMag_lt _ _)] at h
    rw [hq]
    exact (toNat_pack_false (roundMag_lt _ _)).le.trans (Nat.le_pred_of_lt h)
  · exact hp

/-! ### The table index and the phase advance -/

/-- The rounded product of a phase below 1 and a length stays below the length (44_nco_mixer.md R167). -/
theorem phaseProduct_lt {p len : Nat} (hp : p ≤ 0x3F7FFFFF) (h1 : 1 ≤ len) (hlen : len < 2 ^ 24) :
    roundMag (patternMag p * (len * 2 ^ 149)) (2 ^ 149) < infBits ∧
      patternMag (roundMag (patternMag p * (len * 2 ^ 149)) (2 ^ 149)) < len * 2 ^ 149 := by
  have hmax : patternMag p ≤ (2 ^ 24 - 1) * 2 ^ 125 :=
    (patternMag_le.2 hp).trans_eq (by decide)
  have hprod : patternMag p * (len * 2 ^ 149) ≤ (2 ^ 24 - 1) * 2 ^ 125 * (len * 2 ^ 149) := Nat.mul_le_mul_right _ hmax
  generalize patternMag p * (len * 2 ^ 149) = n at hprod ⊢
  obtain ⟨q, hq, hqv⟩ := exists_pattern_nat hlen.le
  have hlt : roundMag n (2 ^ 149) < infBits :=
    (roundMag_le_of_le (by positivity) hq.le (by rw [hqv]; exact hprod.trans (by omega))).trans_lt hq
  have hup := roundMag_upper_relative hlt
  exact ⟨hlt, by omega⟩

/-- The table index is below the length (44_nco_mixer.md R167). -/
theorem tableIndex_lt (nan : Word) {phase : Word} {len : Nat} (hp : phaseInRange phase) (h1 : 1 ≤ len)
    (hlen : len < 2 ^ 24) : ∃ idx, toIndex (fmul nan phase (fromNat len)) = some idx ∧ idx < len := by
  obtain ⟨hli, hlv⟩ := fromNat_spec hlen.le
  obtain ⟨hfin, hlt⟩ := phaseProduct_lt hp h1 hlen
  rw [fmul_nonneg nan (phaseInRange_lt hp) hli, hlv]
  have hnat := toNat_pack_false (roundMag_lt (patternMag phase.toNat * (len * 2 ^ 149)) (2 ^ 149))
  refine ⟨_, toIndex_nonneg (by rwa [hnat]), ?_⟩
  rw [hnat]
  exact (Nat.div_lt_iff_lt_mul (by positivity)).2 hlt

/-- The sum of a phase and an increment is finite: even the largest increment absorbs the phase (44_nco_mixer.md R171). -/
theorem phaseSum_finite (nan : Word) {phase pinc : Word} (hp : phaseInRange phase) (hi : incInRange pinc) :
    (fadd nan phase pinc).toNat < infBits := by
  rw [fadd_nonneg nan (phaseInRange_lt hp) (incInRange_lt hi), toNat_pack_false (roundMag_lt _ _)]
  have hphase : patternMag phase.toNat ≤ (2 ^ 24 - 1) * 2 ^ 125 := (patternMag_le.2 hp).trans_eq (by decide)
  have hinc : patternMag pinc.toNat ≤ (2 ^ 24 - 1) * 2 ^ 253 := (patternMag_le.2 hi).trans_eq (by decide)
  exact roundMag_lt_inf_of_lt_middle (by omega)

/-- The phase advance has a value, again below 1 (44_nco_mixer.md R171). -/
theorem phaseAdvance_inRange (nan : Word) {phase pinc : Word} (hp : phaseInRange phase) (hi : incInRange pinc) :
    ∃ next, frac (fadd nan phase pinc) = some next ∧ phaseInRange next := by
  obtain ⟨next, hn, hlt, -⟩ := frac_nonneg (phaseSum_finite nan hp hi)
  exact ⟨next, hn, Nat.le_pred_of_lt hlt⟩

end Sys2Proof.Machine
end

section
/-! The invariant of 10_state.md R38 through every command, every step and every run from reset: each answers a next state that meets
it again. One lemma for each command says both, that it completes and what it leaves. -/

namespace Sys2Proof.Machine

/-! ### Results that complete in a good state -/

/-- The result is a next state, and that state satisfies `P`. -/
def Answers (r : Result) (P : State → Prop) : Prop := ∃ t, r = .next t ∧ P t

theorem answers_next {P : State → Prop} {t : State} (h : P t) : Answers (.next t) P := ⟨t, rfl, h⟩

theorem Answers.imp {r : Result} {P Q : State → Prop} (h : Answers r P) (hPQ : ∀ t, P t → Q t) : Answers r Q := by
  obtain ⟨t, hr, ht⟩ := h
  exact ⟨t, hr, hPQ t ht⟩

theorem Answers.andThen {r : Result} {k : State → Result} {P Q : State → Prop} (h : Answers r P)
    (hk : ∀ t, P t → Answers (k t) Q) : Answers (andThen r k) Q := by
  obtain ⟨t, rfl, ht⟩ := h
  exact hk t ht

/-- What completes completes in one state only. -/
theorem Answers.of_eq_next {r : Result} {P : State → Prop} {t : State} (h : Answers r P) (hr : r = .next t) : P t := by
  obtain ⟨u, hu, hP⟩ := h
  cases hu.symm.trans hr
  exact hP

/-- A refused command raises a flag, which the invariant does not read. -/
theorem Invariant.raise {s : State} (h : Invariant s) (f : FaultFlag) : Invariant (raise f s) :=
  h.congr (by cases f <;> rfl) (raise_reg f s) (by cases f <;> rfl) (by cases f <;> rfl)

theorem answers_ifLegal {c : Bool} {s : State} {k : Result} (h : Invariant s) (hk : c = true → Answers k Invariant) :
    Answers (ifLegal c s k) Invariant := by
  cases c with
  | true => exact hk rfl
  | false => exact answers_next (h.raise .seqErr)

/-! ### What a built and an active block hold -/

theorem Held.Every.some {α : Type} {P : α → Prop} {h : Held α} (he : h.Every P) (hv : ∃ v, h = .value v) : h.Some P := by
  obtain ⟨v, hv⟩ := hv
  exact ⟨v, hv, he v hv⟩

theorem Held.Some.every {α : Type} {P : α → Prop} {h : Held α} (hs : h.Some P) : h.Every P := by
  obtain ⟨v, rfl, hv⟩ := hs
  exact Held.every_value hv

/-- The eight datapath registers as an active block holds them: a value each, in its range (10_state.md R22 to R29). -/
structure DatapathHeld (s : State) : Prop where
  phase : s.phase.Some phaseInRange
  pinc : s.pinc.Some incInRange
  gdb : s.gdb.Some gainInRange
  gcur : s.gcur.Some coefInRange
  gtgt : s.gtgt.Some coefInRange
  ftgt : s.ftgt.Some freqInRange
  flast : s.flast.Some freqInRange
  fact : s.fact.Some freqInRange

/-- A safe active block: what the processing commands start from and leave. -/
def SafeActive (s : State) : Prop := Invariant s ∧ s.life = .active

theorem SafeActive.datapathHeld {s : State} (h : SafeActive s) : DatapathHeld s := by
  obtain ⟨⟨_, hr, _, _, ha⟩, hl⟩ := h
  have held := ha hl
  exact ⟨hr.phase.some (held .phase), hr.pinc.some (held .pinc), hr.gdb.some (held .gdb),
    hr.gcur.some (held .gcur), hr.gtgt.some (held .gtgt), hr.ftgt.some (held .ftgt),
    hr.flast.some (held .flast), hr.fact.some (held .fact)⟩

theorem SafeActive.invariant {s : State} (h : SafeActive s) : Invariant s := h.1

theorem SafeActive.not_unbuilt {s : State} (h : SafeActive s) : s.life ≠ .unbuilt := by rw [h.2]; decide

theorem SafeActive.tablesBuilt {s : State} (h : SafeActive s) : TablesBuilt s := h.invariant.built h.not_unbuilt

/-- An active block whose datapath registers are in their ranges is safe when it has the engine of a safe built block. -/
theorem DatapathHeld.safeActive {s t : State} (hd : DatapathHeld t) (hs : Invariant s) (hb : s.life ≠ .unbuilt)
    (hl : t.life = .active) (hm : t.mem = s.mem) (ht : t.tlen = s.tlen) (hr : t.srate = s.srate) : SafeActive t := by
  obtain ⟨hmem, hranges, _, hbuilt, _⟩ := hs
  obtain ⟨htables, hrate⟩ := hbuilt hb
  have hrate' : t.srate.Some rateInRange := hr ▸ hrate
  refine ⟨⟨hm ▸ hmem, ?_, fun h => absurd (hl.symm.trans h) (by decide), fun _ => ⟨by rwa [ht, hm], hrate'⟩, ?_⟩, hl⟩
  · exact ⟨hd.phase.every, hd.pinc.every, hd.gdb.every, hd.gcur.every,
      hd.gtgt.every, hd.ftgt.every, hd.flast.every, hd.fact.every,
      hrate'.every, ht ▸ hranges.tlen⟩
  · intro _ r
    have held : ∀ {P : Word → Prop} {h : Held Word}, h.Some P → ∃ v, h = .value v := fun ⟨v, hv, _⟩ => ⟨v, hv⟩
    cases r
    case phase => exact held hd.phase
    case pinc => exact held hd.pinc
    case gdb => exact held hd.gdb
    case gcur => exact held hd.gcur
    case gtgt => exact held hd.gtgt
    case ftgt => exact held hd.ftgt
    case flast => exact held hd.flast
    case fact => exact held hd.fact
    case srate => exact held hrate'

/-- Every entry below the length holds a value, whichever table is selected (10_state.md R38, 20_memory.md R53). -/
theorem TablesBuilt.read {s : State} (h : TablesBuilt s) {len : Count} (hl : s.tlen = .value len) (sel : Wave) {i : Nat}
    (hi : i < len.toNat) : ∃ w, s.mem.read sel i = .value w := by
  obtain ⟨len', hl', hsine, hsquare, _⟩ := h.built
  cases hl.symm.trans hl'
  cases sel with
  | sine => exact ⟨_, hsine i hi⟩
  | square => exact ⟨_, hsquare i hi⟩

/-! ### The processing path -/

theorem blockUpdate_answers (g f : Word) {s : State} (h : SafeActive s) : Answers (blockUpdate g f s) SafeActive := by
  obtain ⟨hphase, hpinc, ⟨gdb, egdb, hgdb⟩, ⟨gcur, egcur, hgcur⟩, ⟨gtgt, egtgt, hgtgt⟩, ⟨ftgt, eftgt, hftgt⟩,
    ⟨flast, eflast, hflast⟩, ⟨fact, efact, hfact⟩⟩ := h.datapathHeld
  obtain ⟨sr, esr, hsr⟩ := h.tablesBuilt.rate
  rw [blockUpdate_value egdb egcur egtgt eftgt eflast efact esr]
  have hgt := coefInRange_newGainTarget (nanAt s.nanDraws) g gdb hgtgt
  have hft := freqInRange_newFreqTarget f hflast hftgt
  have hfa := freqInRange_smooth (drawsFrom (s.nanDraws + 1 + 3)) hfact hft
  refine answers_next (DatapathHeld.safeActive ?_ h.invariant h.not_unbuilt h.2 rfl rfl rfl)
  exact
    { phase := hphase
      pinc := newInc_inRange _ hfa hsr hpinc
      gdb := ⟨_, rfl, sanG_not_nan hgdb⟩
      gcur := ⟨_, rfl, coefInRange_smooth _ hgcur hgt⟩
      gtgt := ⟨_, rfl, hgt⟩
      ftgt := ⟨_, rfl, hft⟩
      flast := ⟨_, rfl, freqInRange_sanF f hflast⟩
      fact := ⟨_, rfl, hfa⟩ }

theorem sampleStep_answers (x m : Word) {s : State} (h : SafeActive s) : Answers (sampleStep x m s) SafeActive := by
  have hd := h.datapathHeld
  obtain ⟨phase, ephase, hphase⟩ := hd.phase
  obtain ⟨pinc, epinc, hpinc⟩ := hd.pinc
  obtain ⟨coef, ecoef, -⟩ := hd.gcur
  obtain ⟨len, elen, -⟩ := h.tablesBuilt.built
  obtain ⟨idx, hidx, hlt⟩ := tableIndex_lt (nanAt s.nanDraws) hphase (h.invariant.ranges.tlen len elen).1 len.isLt
  obtain ⟨w, hw⟩ := h.tablesBuilt.read elen (modeSel m) hlt
  obtain ⟨next, hnext, hrange⟩ := phaseAdvance_inRange (nanAt (s.nanDraws + 1 + 7)) hphase hpinc
  rw [sampleStep_value ephase elen hidx hlt hw ecoef epinc hnext]
  refine answers_next (DatapathHeld.safeActive ?_ h.invariant h.not_unbuilt h.2 rfl rfl rfl)
  exact { phase := ⟨_, rfl, hrange⟩, pinc := hd.pinc, gdb := hd.gdb, gcur := hd.gcur, gtgt := hd.gtgt, ftgt := hd.ftgt
          flast := hd.flast, fact := hd.fact }

theorem sampleSteps_answers (m : Word) (xs : List Word) {s : State} (h : SafeActive s) :
    Answers (sampleSteps m xs s) SafeActive := by
  induction xs generalizing s with
  | nil => exact answers_next h
  | cons x xs ih => exact (sampleStep_answers x m h).andThen fun _ => ih

theorem SafeActive.of_beq {s : State} (h : Invariant s) (hl : (s.life == .active) = true) : SafeActive s :=
  ⟨h, by simpa using hl⟩

theorem execBeginBlock_answers (g f : Word) {s : State} (h : Invariant s) : Answers (execBeginBlock g f s) Invariant :=
  answers_ifLegal h fun hl => (blockUpdate_answers g f (.of_beq h hl)).imp fun _ => SafeActive.invariant

theorem execProcessSample_answers (x m : Word) {s : State} (h : Invariant s) :
    Answers (execProcessSample x m s) Invariant :=
  answers_ifLegal h fun hl => (sampleStep_answers x m (.of_beq h hl)).imp fun _ => SafeActive.invariant

theorem execProcessBlock_answers (g f m : Word) (xs : List Word) {s : State} (h : Invariant s) :
    Answers (execProcessBlock g f m xs s) Invariant :=
  answers_ifLegal h fun hl =>
    ((blockUpdate_answers g f (.of_beq h hl)).andThen fun _ => sampleSteps_answers m xs).imp fun _ => SafeActive.invariant

/-! ### The lifecycle commands -/

theorem execActivate_answers (g f : Word) {s : State} (h : Invariant s) : Answers (execActivate g f s) Invariant := by
  refine answers_ifLegal h fun hl => Answers.imp (P := SafeActive) ?_ fun _ => SafeActive.invariant
  refine answers_next (DatapathHeld.safeActive ?_ h (by simpa using hl) rfl rfl rfl rfl)
  have hfreq : freqInRange (sanF f freqMin) := freqInRange_sanF f freqInRange_freqMin
  exact
    { phase := ⟨_, rfl, Nat.zero_le _⟩
      pinc := ⟨_, rfl, Nat.zero_le _⟩
      gdb := ⟨_, rfl, sanG_not_nan (by decide)⟩
      gcur := ⟨_, rfl, coefInRange_g2l _ _⟩
      gtgt := ⟨_, rfl, coefInRange_g2l _ _⟩
      ftgt := ⟨_, rfl, hfreq⟩
      flast := ⟨_, rfl, hfreq⟩
      fact := ⟨_, rfl, hfreq⟩ }

theorem execDeactivate_answers {s : State} (h : Invariant s) : Answers (execDeactivate s) Invariant := by
  refine answers_ifLegal h fun hl => answers_next ?_
  obtain ⟨htables, hrate⟩ := (SafeActive.of_beq h hl).tablesBuilt
  exact { memWf := h.memWf, ranges := { h.ranges with }, unbuilt := nofun, built := fun _ => ⟨htables, hrate⟩, active := nofun }

theorem execDestroy_answers {s : State} (h : Invariant s) : Answers (execDestroy s) Invariant :=
  answers_ifLegal h fun _ => answers_next (.of_noValue rfl (fun r => by cases r <;> rfl) rfl rfl)

/-- The operands CONSTRUCT accepts (41_wavetable.md R122). -/
theorem constructOk_iff {len : Count} {sr : Word} :
    constructOk len sr = true ↔ (1 ≤ len.toNat ∧ len.toNat ≤ tableCap) ∧ rateInRange sr := by
  unfold constructOk rateInRange
  rw [Bool.and_eq_true, Bool.and_eq_true, decide_eq_true_iff, decide_eq_true_iff, ← Nat.one_le_iff_ne_zero]
  tauto

/-- A build over empty memories leaves the tables of 41_wavetable.md R120 and R121. -/
theorem tablesBuilt_of_build {s : State} {len : Count} {sr : Word} (hm : s.mem = buildTables len.toNat len.toNat Memory.empty)
    (hl : s.tlen = .value len) (hs : s.srate = .value sr) (hr : rateInRange sr) : TablesBuilt s := by
  refine ⟨⟨len, hl, fun i hi => ?_, fun i hi => ?_, fun sel i hi => ?_⟩, ⟨sr, hs, hr⟩⟩
  · rw [hm, buildTables_read, if_pos hi]
  · rw [hm, buildTables_read, if_pos hi]
  · rw [hm, buildTables_read, if_neg (Nat.not_lt.2 hi), Memory.read_empty]

theorem execConstruct_answers (len : Count) (sr : Word) {s : State} (h : Invariant s) :
    Answers (execConstruct len sr s) Invariant := by
  refine answers_ifLegal h fun hl => ?_
  obtain ⟨hregs, -, hmem⟩ := h.unbuilt (by simpa using hl)
  split_ifs with hok
  · obtain ⟨hlen, hsr⟩ := constructOk_iff.1 hok
    refine answers_next
      { memWf := buildTables_wf _ _ h.memWf
        ranges := { h.ranges with srate := Held.every_value hsr, tlen := Held.every_value hlen }
        unbuilt := nofun
        built := fun _ => tablesBuilt_of_build (by rw [hmem]) rfl rfl hsr
        active := nofun }
  · exact answers_next (h.raise .cfgErr)

/-! ### Commands, steps and runs -/

/-- Every command completes from a safe state, in a safe state. -/
theorem exec_answers (i : Instr) {s : State} (h : Invariant s) : Answers (exec i s) Invariant := by
  cases i with
  | construct len sr => exact execConstruct_answers len sr h
  | activate g f => exact execActivate_answers g f h
  | beginBlock g f => exact execBeginBlock_answers g f h
  | processSample x m => exact execProcessSample_answers x m h
  | processBlock g f m xs => exact execProcessBlock_answers g f m xs h
  | deactivate => exact execDeactivate_answers h
  | destroy => exact execDestroy_answers h

theorem Invariant.withCmd {s : State} (h : Invariant s) (ws : List Word) : Invariant { s with cmd := ws } :=
  h.congr rfl (fun r => by cases r <;> rfl) rfl rfl

theorem hardwareReset_invariant (s : State) : Invariant (hardwareReset s) :=
  .of_noValue rfl (hardwareReset_reg s) rfl rfl

/-- Every step from a safe state completes, in a safe state (10_state.md R38). -/
theorem step_answers {s : State} (h : Invariant s) : Answers (step s) Invariant := by
  rcases step_cases s with ⟨_, e⟩ | ⟨_, _, e⟩ | ⟨_, _, _, e⟩ | ⟨_, rest, _, _, _, e⟩ | ⟨i, rest, _, _, _, e⟩ <;> rw [e]
  · exact answers_next (hardwareReset_invariant s)
  · exact answers_next h
  · exact answers_next h
  · exact answers_next ((h.withCmd rest).raise .illCmd)
  · exact exec_answers i (h.withCmd rest)

/-- Every run from a safe state completes, in a safe state, however long it is. -/
theorem run_answers (n : Nat) {s : State} (h : Invariant s) : Answers (Host.Core.run core n s) Invariant := by
  induction n generalizing s with
  | zero => exact answers_next h
  | succ n ih =>
    rw [run_succ]
    exact (step_answers h).andThen fun _ => ih

theorem reset_invariant : Invariant State.reset := .of_noValue rfl reset_reg rfl rfl

/-- Settles O52: a safe state's step answers a safe state, and a step has one answer. -/
theorem everyStepKeepsTheInvariant : Obligations.EveryStepKeepsTheInvariant :=
  fun _ _ hs ht => (step_answers hs).of_eq_next ht

/-- Settles O53. -/
theorem safeStatesNeverStop : Obligations.SafeStatesNeverStop := by
  intro s hs
  obtain ⟨t, ht, -⟩ := step_answers hs
  exact ⟨t, ht⟩

/-- Settles O54: the words sent after reset leave the state safe, and safe states run on. -/
theorem noCommandStreamStopsTheBlock : Obligations.NoCommandStreamStopsTheBlock :=
  fun ws n => run_answers n (reset_invariant.withCmd ws)

/-- Settles O51: `UNBUILT` without values meets the invariant, and the target relations speak of values only. -/
theorem resetStateIsSafe : Obligations.ResetStateIsSafe :=
  ⟨rfl, reset_reg, rfl, Memory.read_empty, by decide, reset_invariant, ⟨nofun, rfl⟩⟩

end Sys2Proof.Machine
end

section
/-! What each command does to `PHASE`, `GCUR` and `FACT` (10_state.md R40), in every state where it answers a next state. -/

namespace Sys2Proof.Machine

/-- The three registers of 10_state.md R40 hold in `t` what they held in `s`. -/
def SmoothingKept (s t : State) : Prop := t.phase = s.phase ∧ t.gcur = s.gcur ∧ t.fact = s.fact

theorem smoothingKept_raise (f : FaultFlag) (s : State) : SmoothingKept s (raise f s) := by
  cases f <;> exact ⟨rfl, rfl, rfl⟩

/-! ### Where a command is legal: the table of 42_lifecycle.md R136 as each command's own check -/

@[simp] theorem legalIn_construct (len : Count) (sr : Word) (l : Life) :
    legalIn (.construct len sr) l = (l == .unbuilt) := by cases l <;> rfl

@[simp] theorem legalIn_activate (g f : Word) (l : Life) : legalIn (.activate g f) l = (l != .unbuilt) := by
  cases l <;> rfl

@[simp] theorem legalIn_beginBlock (g f : Word) (l : Life) : legalIn (.beginBlock g f) l = (l == .active) := by
  cases l <;> rfl

@[simp] theorem legalIn_processSample (x m : Word) (l : Life) : legalIn (.processSample x m) l = (l == .active) := by
  cases l <;> rfl

@[simp] theorem legalIn_processBlock (g f m : Word) (xs : List Word) (l : Life) :
    legalIn (.processBlock g f m xs) l = (l == .active) := by cases l <;> rfl

@[simp] theorem legalIn_deactivate (l : Life) : legalIn .deactivate l = (l == .active) := by cases l <;> rfl

@[simp] theorem legalIn_destroy (l : Life) : legalIn .destroy l = (l != .unbuilt) := by cases l <;> rfl

/-- A command that is not legal sets `SEQ_ERR` and does nothing else (42_lifecycle.md R136, R141). -/
theorem exec_of_not_legal {i : Instr} {s : State} (h : legalIn i s.life = false) :
    exec i s = .next (raise .seqErr s) := by
  cases i with
  | construct len sr => exact ifLegal_neg ((legalIn_construct len sr _).symm.trans h) s _
  | activate g f => exact ifLegal_neg ((legalIn_activate g f _).symm.trans h) s _
  | beginBlock g f => exact ifLegal_neg ((legalIn_beginBlock g f _).symm.trans h) s _
  | processSample x m => exact ifLegal_neg ((legalIn_processSample x m _).symm.trans h) s _
  | processBlock g f m xs => exact ifLegal_neg ((legalIn_processBlock g f m xs _).symm.trans h) s _
  | deactivate => exact ifLegal_neg ((legalIn_deactivate _).symm.trans h) s _
  | destroy => exact ifLegal_neg ((legalIn_destroy _).symm.trans h) s _

/-! ### The lifecycle commands -/

theorem execConstruct_keeps_smoothing {len : Count} {sr : Word} {s t : State} (h : execConstruct len sr s = .next t) :
    SmoothingKept s t := by
  rcases execConstruct_eq_next h with ⟨_, rfl⟩ | ⟨_, _, rfl⟩ | ⟨_, _, rfl⟩
  · exact smoothingKept_raise _ s
  · exact smoothingKept_raise _ s
  · exact ⟨rfl, rfl, rfl⟩

theorem execDeactivate_keeps_smoothing {s t : State} (h : execDeactivate s = .next t) : SmoothingKept s t := by
  rcases execDeactivate_eq_next h with ⟨_, rfl⟩ | ⟨_, rfl⟩
  · exact smoothingKept_raise _ s
  · exact ⟨rfl, rfl, rfl⟩

theorem execActivate_resets_smoothing {g f : Word} {s t : State} (hl : s.life ≠ .unbuilt)
    (h : execActivate g f s = .next t) : t.phase = .value cZero ∧ t.gcur = t.gtgt ∧ t.fact = t.ftgt := by
  rcases execActivate_eq_next h with ⟨hu, _⟩ | ⟨_, rfl⟩
  · exact absurd hu hl
  · exact ⟨rfl, rfl, rfl⟩

theorem execDestroy_clears_smoothing {s t : State} (hl : s.life ≠ .unbuilt) (h : execDestroy s = .next t) :
    t.phase = .noValue ∧ t.gcur = .noValue ∧ t.fact = .noValue := by
  rcases execDestroy_eq_next h with ⟨hu, _⟩ | ⟨_, rfl⟩
  · exact absurd hu hl
  · exact ⟨rfl, rfl, rfl⟩

/-! ### The per-block update -/

theorem smoothedToward_smooth {c v : Word} {cur tgt : Held Word} (hc : cur = .value c) (hv : tgt = .value v) (k : Nat) :
    SmoothedToward cur tgt (.value (smooth (drawsFrom k) c v)) :=
  ⟨c, v, drawsFrom k, drawsFrom_isNaN k, hc, hv, rfl⟩

/-- A per-block update leaves the phase and takes one step of each smoother toward the target it leaves (43_smoother.md R153). -/
theorem blockUpdate_smooths {g f : Word} {s t : State} (h : blockUpdate g f s = .next t) :
    t.phase = s.phase ∧ SmoothedToward s.gcur t.gtgt t.gcur ∧ SmoothedToward s.fact t.ftgt t.fact := by
  obtain ⟨s₁, s₂, s₃, s₄, h₁, h₂, h₃, h₄, h₅⟩ := blockUpdate_eq_next h
  obtain ⟨gdb, _, rfl⟩ := latchGain_eq_next h₁
  obtain ⟨flast, _, rfl⟩ := latchFreq_eq_next h₂
  obtain ⟨c, ct, hc, hct, rfl⟩ := smoothReg_eq_next h₃
  obtain ⟨a, at', ha, hat, rfl⟩ := smoothReg_eq_next h₄
  obtain ⟨_, _, _, _, rfl⟩ := updateInc_eq_next h₅
  exact ⟨rfl, smoothedToward_smooth hc hct _, smoothedToward_smooth ha hat _⟩

/-! ### The phase advance -/

theorem advances_one (nan inc p : Word) : advances nan inc 1 p = frac (fadd nan p inc) := by
  cases h : frac (fadd nan p inc) with
  | none => simp [advances, h]
  | some q => rw [advances_succ h, advances_zero]

/-- A sample advances the phase once, and leaves both smoothers and the increment (44_nco_mixer.md R165, R171). -/
theorem sampleStep_advances {x m : Word} {s t : State} (h : sampleStep x m s = .next t) :
    AdvancedBy 1 s.phase s.pinc t.phase ∧ t.gcur = s.gcur ∧ t.fact = s.fact ∧ t.pinc = s.pinc := by
  obtain ⟨phase, coef, pinc, w, next, len, idx, hp, _, _, _, _, _, hn, hf, rfl⟩ := sampleStep_eq_next h
  refine ⟨⟨phase, pinc, next, hp, hn, rfl, fun nan => ?_⟩, rfl, rfl, rfl⟩
  rw [advances_one, frac_fadd_draw (nanAt_isNaN _) hf]

/-- One advance and then n more are n + 1. -/
theorem AdvancedBy.succ {n : Nat} {a b c inc : Held Word} (h₁ : AdvancedBy 1 a inc b) (h₂ : AdvancedBy n b inc c) :
    AdvancedBy (n + 1) a inc c := by
  obtain ⟨p, i, q, rfl, rfl, rfl, hq⟩ := h₁
  obtain ⟨q', i', r, hq', hi', rfl, hr⟩ := h₂
  cases hq'
  cases hi'
  refine ⟨p, i, r, rfl, rfl, rfl, fun nan => ?_⟩
  rw [advances_succ ((advances_one nan i p).symm.trans (hq nan)), hr nan]

/-- The samples of a block that is not empty advance the phase once each (45_block.md R180). -/
theorem sampleSteps_advances {m x : Word} {xs : List Word} {s t : State} (h : sampleSteps m (x :: xs) s = .next t) :
    AdvancedBy (xs.length + 1) s.phase s.pinc t.phase := by
  induction xs generalizing x s with
  | nil =>
    obtain ⟨u, h₁, h₂⟩ := andThen_eq_next h
    cases h₂
    exact (sampleStep_advances h₁).1
  | cons y ys ih =>
    obtain ⟨u, h₁, h₂⟩ := andThen_eq_next h
    obtain ⟨hadv, _, _, hpinc⟩ := sampleStep_advances h₁
    exact hadv.succ (hpinc ▸ ih h₂)

/-- PROCESS_BLOCK smooths as BEGIN_BLOCK does, and then advances the phase by the increment it leaves, once for each sample. -/
theorem processBlock_smooths_and_advances {g f m : Word} {xs : List Word} {s u t : State}
    (hu : blockUpdate g f s = .next u) (ht : sampleSteps m xs u = .next t) :
    (xs = [] → t.phase = s.phase) ∧ (xs ≠ [] → AdvancedBy xs.length s.phase t.pinc t.phase) ∧
      SmoothedToward s.gcur t.gtgt t.gcur ∧ SmoothedToward s.fact t.ftgt t.fact := by
  obtain ⟨hphase, hgcur, hfact⟩ := blockUpdate_smooths hu
  have hadv : xs ≠ [] → AdvancedBy xs.length s.phase u.pinc t.phase := by
    intro hne
    obtain ⟨x, rest, rfl⟩ := List.exists_cons_of_ne_nil hne
    exact hphase ▸ sampleSteps_advances ht
  have hnil : xs = [] → t.phase = s.phase := by
    rintro rfl
    cases ht
    exact hphase
  obtain ⟨_, _, _, _, rfl⟩ := sampleSteps_frame ht
  exact ⟨hnil, hadv, hgcur, hfact⟩

/-! ### Every command -/

theorem execBeginBlock_smooths {g f : Word} {s t : State} (hl : s.life = .active)
    (h : execBeginBlock g f s = .next t) :
    t.phase = s.phase ∧ SmoothedToward s.gcur t.gtgt t.gcur ∧ SmoothedToward s.fact t.ftgt t.fact := by
  rcases execBeginBlock_eq_next h with ⟨hn, _⟩ | ⟨_, h⟩
  · exact absurd hl hn
  · exact blockUpdate_smooths h

theorem execProcessSample_advances {x m : Word} {s t : State} (hl : s.life = .active)
    (h : execProcessSample x m s = .next t) :
    AdvancedBy 1 s.phase s.pinc t.phase ∧ t.gcur = s.gcur ∧ t.fact = s.fact := by
  rcases execProcessSample_eq_next h with ⟨hn, _⟩ | ⟨_, h⟩
  · exact absurd hl hn
  · obtain ⟨hadv, hgcur, hfact, _⟩ := sampleStep_advances h
    exact ⟨hadv, hgcur, hfact⟩

theorem execProcessBlock_smooths_and_advances {g f m : Word} {xs : List Word} {s t : State} (hl : s.life = .active)
    (h : execProcessBlock g f m xs s = .next t) :
    (xs = [] → t.phase = s.phase) ∧ (xs ≠ [] → AdvancedBy xs.length s.phase t.pinc t.phase) ∧
      SmoothedToward s.gcur t.gtgt t.gcur ∧ SmoothedToward s.fact t.ftgt t.fact := by
  rcases execProcessBlock_eq_next h with ⟨hn, _⟩ | ⟨_, u, hu, ht⟩
  · exact absurd hl hn
  · exact processBlock_smooths_and_advances hu ht

/-- Settles O59, command by command. -/
theorem onlyActivateResetsTheSmoothing : Obligations.OnlyActivateResetsTheSmoothing := by
  intro s t i h
  refine ⟨fun hl => ?_, fun hl => ?_⟩
  · cases (exec_of_not_legal hl).symm.trans h
    exact smoothingKept_raise _ s
  · cases i with
    | construct len sr => exact execConstruct_keeps_smoothing h
    | activate g f => exact execActivate_resets_smoothing (by simpa using hl) h
    | beginBlock g f => exact execBeginBlock_smooths (by simpa using hl) h
    | processSample x m => exact execProcessSample_advances (by simpa using hl) h
    | processBlock g f m xs => exact execProcessBlock_smooths_and_advances (by simpa using hl) h
    | deactivate => exact execDeactivate_keeps_smoothing h
    | destroy => exact execDestroy_clears_smoothing (by simpa using hl) h

end Sys2Proof.Machine
end

section
/-! `STATUS` bit by bit (10_state.md R34). -/

namespace Sys2Proof.Machine

/-- The fields of `STATUS` as one number below 2^7 (10_state.md R34). -/
def statusSum (s : State) : Nat :=
  lifeCode s.life + 4 * waveCode s.modeSel + 16 * s.cfgErr.toNat + 32 * s.seqErr.toNat + 64 * s.illCmd.toNat

theorem lifeCode_lt (l : Life) : lifeCode l < 3 := by cases l <;> decide

theorem waveCode_lt (w : Wave) : waveCode w < 2 := by cases w <;> decide

theorem statusSum_lt (s : State) : statusSum s < 2 ^ 7 := by
  have := lifeCode_lt s.life
  have := waveCode_lt s.modeSel
  have := s.cfgErr.toNat_lt
  have := s.seqErr.toNat_lt
  have := s.illCmd.toNat_lt
  unfold statusSum
  omega

theorem toNat_status (s : State) : s.status.toNat = statusSum s := by
  rw [status_eq, BitVec.toNat_ofNat]
  exact Nat.mod_eq_of_lt ((statusSum_lt s).trans (by decide))

theorem getLsbD_status (s : State) (k : Nat) : s.status.getLsbD k = decide (statusSum s / 2 ^ k % 2 = 1) := by
  rw [BitVec.getLsbD, toNat_status, Nat.testBit_eq_decide_div_mod_eq]

/-- A bit of `STATUS` is the Boolean whose number the sum has at that place. -/
theorem getLsbD_status_eq {s : State} {k : Nat} {b : Bool} (h : statusSum s / 2 ^ k % 2 = b.toNat) :
    s.status.getLsbD k = b := by
  rw [getLsbD_status, h]
  cases b <;> rfl

theorem waveCode_eq_toNat (w : Wave) : waveCode w = (decide (w = .square)).toNat := by cases w <;> rfl

/-- Settles O10: the fields do not overlap in the sum, so each bit is a quotient of it. -/
theorem statusShowsLifeModeAndFlags : Obligations.StatusShowsLifeModeAndFlags := by
  refine ⟨by decide, fun s => ?_⟩
  have hlife := lifeCode_lt s.life
  have hwave := waveCode_lt s.modeSel
  have hcfg := s.cfgErr.toNat_lt
  have hseq := s.seqErr.toNat_lt
  have hill := s.illCmd.toNat_lt
  have hsum : statusSum s = lifeCode s.life + 4 * waveCode s.modeSel + 16 * s.cfgErr.toNat + 32 * s.seqErr.toNat +
    64 * s.illCmd.toNat := rfl
  refine ⟨?life, ?mode, ?reserved, ?cfg, ?seq, ?ill, ?high⟩
  case life =>
    have hbits : (s.status.extractLsb' 0 2).toNat = lifeCode s.life := by
      rw [BitVec.extractLsb'_toNat, toNat_status, Nat.shiftRight_zero]
      omega
    rw [hbits]
    rfl
  case mode => exact getLsbD_status_eq (by rw [← waveCode_eq_toNat]; omega)
  case reserved => exact getLsbD_status_eq (by rw [Bool.toNat_false]; omega)
  case cfg => exact getLsbD_status_eq (by omega)
  case seq => exact getLsbD_status_eq (by omega)
  case ill => exact getLsbD_status_eq (by omega)
  case high =>
    intro k hk
    have hlt : statusSum s < 2 ^ k := (statusSum_lt s).trans_le (Nat.pow_le_pow_right (by decide) hk)
    exact getLsbD_status_eq (by rw [Nat.div_eq_of_lt hlt]; rfl)

end Sys2Proof.Machine
end

section
/-! The two wavetable memories are what their reads say they are (20_memory.md R50, R53, R54). -/

namespace Sys2Proof.Machine

/-- In a table whose entry numbers rise, the listed pairs are exactly the entries that read as a value. -/
theorem mem_iff_tableGet {i : Nat} {v : Word} {t : Table} (h : t.Pairwise fun a b => a.1 < b.1) :
    (i, v) ∈ t ↔ tableGet i t = .value v := by
  induction t with
  | nil => simp [tableGet]
  | cons a rest ih =>
    obtain ⟨j, w⟩ := a
    obtain ⟨hhead, hrest⟩ := List.pairwise_cons.1 h
    by_cases hij : i = j
    · have hnot : (i, v) ∉ rest := fun hmem => (hhead _ hmem).ne hij.symm
      simp [tableGet, hij, hij ▸ hnot, eq_comm]
    · simp [tableGet, hij, ih hrest]

/-- Both tables list the same pairs, and a strictly rising list is determined by its members. -/
theorem table_ext {t t' : Table} (h : t.Pairwise fun a b => a.1 < b.1) (h' : t'.Pairwise fun a b => a.1 < b.1)
    (hget : ∀ i, tableGet i t = tableGet i t') : t = t' := by
  have hmem : ∀ e, e ∈ t ↔ e ∈ t' := fun (i, v) => by rw [mem_iff_tableGet h, mem_iff_tableGet h', hget i]
  have hperm : t.Perm t' := (List.perm_ext_iff_of_nodup (h.imp fun hlt => ne_of_apply_ne Prod.fst hlt.ne)
    (h'.imp fun hlt => ne_of_apply_ne Prod.fst hlt.ne)).2 hmem
  exact hperm.eq_of_pairwise (fun _ _ _ _ hlt hgt => absurd hgt hlt.asymm) h h'

theorem Memory.ext_read {m m' : Memory} (h : m.wf) (h' : m'.wf) (hread : ∀ sel i, m.read sel i = m'.read sel i) :
    m = m' := by
  obtain ⟨sine, square⟩ := m
  obtain ⟨sine', square'⟩ := m'
  obtain rfl : sine = sine' := table_ext h.1 h'.1 (hread .sine)
  obtain rfl : square = square' := table_ext h.2 h'.2 (hread .square)
  rfl

theorem Memory.read_write (m : Memory) (sel sel' : Wave) (i j : Nat) (v : Word) :
    (m.write sel i v).read sel' j = if sel' = sel ∧ j = i then .value v else m.read sel' j := by
  split_ifs with h
  · obtain ⟨rfl, rfl⟩ := h
    exact Memory.read_write_same m sel' j v
  · exact Memory.read_write_other h m v

/-- Both orders keep the canonical form and read alike: an entry that one write names, the other leaves. -/
theorem Memory.write_comm {m : Memory} (h : m.wf) {sel sel' : Wave} {i i' : Nat} (hne : sel ≠ sel' ∨ i ≠ i')
    (v v' : Word) : (m.write sel i v).write sel' i' v' = (m.write sel' i' v').write sel i v := by
  refine Memory.ext_read (write_wf (write_wf h ..) ..) (write_wf (write_wf h ..) ..) fun wave j => ?_
  simp only [Memory.read_write]
  by_cases hfirst : wave = sel ∧ j = i
  · have hother : ¬(wave = sel' ∧ j = i') := fun hsecond =>
      hne.elim (· (hfirst.1.symm.trans hsecond.1)) (· (hfirst.2.symm.trans hsecond.2))
    rw [if_neg hother, if_pos hfirst, if_pos hfirst]
  · rw [if_neg hfirst, if_neg hfirst]

/-- Settles O21: the canonical form makes reads decide equality, and with it the order of two writes. -/
theorem memoryIsWhatItsReadsSay : Obligations.MemoryIsWhatItsReadsSay :=
  ⟨fun _ _ => Memory.ext_read, fun _ _ _ _ _ v v' h hne => Memory.write_comm h hne v v'⟩

end Sys2Proof.Machine
end

section
/-! What a command and a step do to the two memories: a build, an emptying, or nothing (20_memory.md R50, R54). -/

namespace Sys2Proof.Machine

@[simp] theorem raise_mem (f : FaultFlag) (s : State) : (raise f s).mem = s.mem := by cases f <;> rfl

theorem blockUpdate_mem {g f : Word} {s t : State} (h : blockUpdate g f s = .next t) : t.mem = s.mem := by
  rw [blockUpdate_frame h]

theorem sampleStep_mem {x m : Word} {s t : State} (h : sampleStep x m s = .next t) : t.mem = s.mem := by
  obtain ⟨_, _, rfl⟩ := sampleStep_frame h
  rfl

theorem sampleSteps_mem {m : Word} {xs : List Word} {s t : State} (h : sampleSteps m xs s = .next t) :
    t.mem = s.mem := by
  obtain ⟨_, _, _, _, rfl⟩ := sampleSteps_frame h
  rfl

/-- Everything a command can do to the memories: CONSTRUCT builds, DESTROY empties, no other command writes
(41_wavetable.md R122, R124). -/
theorem exec_mem_cases {i : Instr} {s t : State} (h : exec i s = .next t) :
    t.mem = s.mem ∨ t.mem = Memory.empty ∨ ∃ len, t.mem = buildTables len len s.mem := by
  cases i with
  | construct len sr =>
    rcases execConstruct_eq_next h with ⟨_, rfl⟩ | ⟨_, _, rfl⟩ | ⟨_, _, rfl⟩
    · exact .inl (raise_mem _ s)
    · exact .inl (raise_mem _ s)
    · exact .inr (.inr ⟨len.toNat, rfl⟩)
  | activate g f =>
    rcases execActivate_eq_next h with ⟨_, rfl⟩ | ⟨_, rfl⟩
    · exact .inl (raise_mem _ s)
    · exact .inl rfl
  | beginBlock g f =>
    rcases execBeginBlock_eq_next h with ⟨_, rfl⟩ | ⟨_, hupdate⟩
    · exact .inl (raise_mem _ s)
    · exact .inl (blockUpdate_mem hupdate)
  | processSample x m =>
    rcases execProcessSample_eq_next h with ⟨_, rfl⟩ | ⟨_, hsample⟩
    · exact .inl (raise_mem _ s)
    · exact .inl (sampleStep_mem hsample)
  | processBlock g f m xs =>
    rcases execProcessBlock_eq_next h with ⟨_, rfl⟩ | ⟨_, _, hupdate, hsamples⟩
    · exact .inl (raise_mem _ s)
    · exact .inl ((sampleSteps_mem hsamples).trans (blockUpdate_mem hupdate))
  | deactivate =>
    rcases execDeactivate_eq_next h with ⟨_, rfl⟩ | ⟨_, rfl⟩
    · exact .inl (raise_mem _ s)
    · exact .inl rfl
  | destroy =>
    rcases execDestroy_eq_next h with ⟨_, rfl⟩ | ⟨_, rfl⟩
    · exact .inl (raise_mem _ s)
    · exact .inr (.inl rfl)

theorem exec_memWf {i : Instr} {s t : State} (hs : s.mem.wf) (h : exec i s = .next t) : t.mem.wf := by
  rcases exec_mem_cases h with hm | hm | ⟨len, hm⟩
  · exact hm ▸ hs
  · exact hm ▸ Memory.empty_wf
  · exact hm ▸ buildTables_wf len len hs

/-- Settles O55: reset empties the memories, a command keeps their form, every other step leaves them alone. -/
theorem everyStepKeepsTheMemoryForm : Obligations.EveryStepKeepsTheMemoryForm := by
  intro s t hs h
  rcases step_cases s with ⟨_, e⟩ | ⟨_, _, e⟩ | ⟨_, _, _, e⟩ | ⟨_, rest, _, _, _, e⟩ | ⟨i, rest, _, _, _, e⟩ <;>
    rw [e] at h
  · cases h; exact Memory.empty_wf
  · cases h; exact hs
  · cases h; exact hs
  · cases h; exact hs
  · exact exec_memWf (s := { s with cmd := rest }) hs h

end Sys2Proof.Machine
end

section
/-! How many words each command appends to `OUT` (20_memory.md R60, 30_encoding.md R74, R79). -/

namespace Sys2Proof.Machine

/-- `OUT` of `t` is that of `s` and `n` words after it. -/
def AppendsOut (n : Nat) (s t : State) : Prop := ∃ ys, t.out = s.out ++ ys ∧ ys.length = n

theorem appendsOut_zero {s t : State} (h : t.out = s.out) : AppendsOut 0 s t := ⟨[], by simpa using h, rfl⟩

@[simp] theorem raise_out (f : FaultFlag) (s : State) : (raise f s).out = s.out := by cases f <;> rfl

theorem blockUpdate_out {g f : Word} {s t : State} (h : blockUpdate g f s = .next t) : t.out = s.out := by
  rw [blockUpdate_frame h]

theorem sampleStep_appendsOut {x m : Word} {s t : State} (h : sampleStep x m s = .next t) : AppendsOut 1 s t := by
  obtain ⟨y, _, rfl⟩ := sampleStep_frame h
  exact ⟨[y], rfl, rfl⟩

theorem sampleSteps_appendsOut {m : Word} {xs : List Word} {s t : State} (h : sampleSteps m xs s = .next t) :
    AppendsOut xs.length s t := by
  obtain ⟨ys, _, _, hlen, rfl⟩ := sampleSteps_frame h
  exact ⟨ys, rfl, hlen⟩

/-! ### The commands that append nothing, refused or not -/

theorem execConstruct_out {len : Count} {sr : Word} {s t : State} (h : execConstruct len sr s = .next t) :
    t.out = s.out := by
  rcases execConstruct_eq_next h with ⟨_, rfl⟩ | ⟨_, _, rfl⟩ | ⟨_, _, rfl⟩
  · exact raise_out _ s
  · exact raise_out _ s
  · rfl

theorem execActivate_out {g f : Word} {s t : State} (h : execActivate g f s = .next t) : t.out = s.out := by
  rcases execActivate_eq_next h with ⟨_, rfl⟩ | ⟨_, rfl⟩
  · exact raise_out _ s
  · rfl

theorem execBeginBlock_out {g f : Word} {s t : State} (h : execBeginBlock g f s = .next t) : t.out = s.out := by
  rcases execBeginBlock_eq_next h with ⟨_, rfl⟩ | ⟨_, hupdate⟩
  · exact raise_out _ s
  · exact blockUpdate_out hupdate

theorem execDeactivate_out {s t : State} (h : execDeactivate s = .next t) : t.out = s.out := by
  rcases execDeactivate_eq_next h with ⟨_, rfl⟩ | ⟨_, rfl⟩
  · exact raise_out _ s
  · rfl

theorem execDestroy_out {s t : State} (h : execDestroy s = .next t) : t.out = s.out := by
  rcases execDestroy_eq_next h with ⟨_, rfl⟩ | ⟨_, rfl⟩
  · exact raise_out _ s
  · rfl

/-! ### The commands that append their samples -/

theorem execProcessSample_appendsOut {x m : Word} {s t : State} (hl : s.life = .active)
    (h : execProcessSample x m s = .next t) : AppendsOut 1 s t := by
  rcases execProcessSample_eq_next h with ⟨hn, _⟩ | ⟨_, hsample⟩
  · exact absurd hl hn
  · exact sampleStep_appendsOut hsample

/-- The per-block update appends nothing, so the words are those of the samples. -/
theorem execProcessBlock_appendsOut {g f m : Word} {xs : List Word} {s t : State} (hl : s.life = .active)
    (h : execProcessBlock g f m xs s = .next t) : AppendsOut xs.length s t := by
  rcases execProcessBlock_eq_next h with ⟨hn, _⟩ | ⟨_, u, hupdate, hsamples⟩
  · exact absurd hl hn
  · obtain ⟨ys, hout, hlen⟩ := sampleSteps_appendsOut hsamples
    exact ⟨ys, blockUpdate_out hupdate ▸ hout, hlen⟩

/-- An executed command appends its own number of words. -/
theorem exec_appendsOut_of_legal {i : Instr} {s t : State} (hl : legalIn i s.life = true) (h : exec i s = .next t) :
    AppendsOut (outWords i) s t := by
  cases i with
  | construct len sr => exact appendsOut_zero (execConstruct_out h)
  | activate g f => exact appendsOut_zero (execActivate_out h)
  | beginBlock g f => exact appendsOut_zero (execBeginBlock_out h)
  | processSample x m => exact execProcessSample_appendsOut (by simpa using hl) h
  | processBlock g f m xs => exact execProcessBlock_appendsOut (by simpa using hl) h
  | deactivate => exact appendsOut_zero (execDeactivate_out h)
  | destroy => exact appendsOut_zero (execDestroy_out h)

/-- Settles O16: a refused command does nothing but raise `SEQ_ERR`, a legal one appends its words. -/
theorem outGrowsByTheCommandsWords : Obligations.OutGrowsByTheCommandsWords := by
  intro s t i h
  split_ifs with hl
  · exact exec_appendsOut_of_legal hl h
  · cases (exec_of_not_legal (by simpa using hl)).symm.trans h
    exact appendsOut_zero (raise_out _ s)

end Sys2Proof.Machine
end

section
/-! The decoder and the encoder are inverse (30_encoding.md R71 to R77). What the decoder does with a legal header is said once, by the
words that the header calls for; the packet lengths and the step's three answers to waiting words follow. -/

namespace Sys2Proof

/-! ### The decoder after a header of its table -/

theorem decode_header {op n : Nat} (h0 : 0 < op) (ho : op < 8) (hn : n < 2 ^ 24) (hz : op = 1 ∨ op = 5 ∨ n = 0) (ws : List Word) :
    decode (header op n :: ws) = decodeLegal (header op n) ws :=
  decode_legal (illegalHeader_header h0 ho hn hz) ws

theorem decode_construct {n : Nat} (hn : n < 2 ^ 24) (sr : Word) (rest : List Word) :
    decode (header 1 n :: sr :: rest) = .packet (.construct (BitVec.ofNat 24 n) sr) rest := by
  have hfield : nField (header 1 n) = BitVec.ofNat 24 n :=
    BitVec.eq_of_toNat_eq (by rw [nField_header (by decide) hn, BitVec.toNat_ofNat, Nat.mod_eq_of_lt hn])
  rw [decode_header (by decide) (by decide) hn (.inl rfl)]
  simp [decodeLegal, opField_header (op := 1) (by decide) hn, hfield]

theorem decode_processBlock {n : Nat} (hn : n < 2 ^ 24) (g f m : Word) (rest : List Word) :
    decode (header 5 n :: g :: f :: m :: rest) =
      if n ≤ rest.length then .packet (.processBlock g f m (rest.take n)) (rest.drop n) else .incomplete := by
  rw [decode_header (by decide) (by decide) hn (.inr (.inl rfl))]
  simp [decodeLegal, opField_header (op := 5) (by decide) hn, nField_header (op := 5) (by decide) hn]

/-- A well-formed command's packet is read back, whatever words follow. -/
theorem decode_encode {i : Instr} (hw : i.wellFormed = true) (rest : List Word) :
    decode (encode i ++ rest) = .packet i rest := by
  cases i with
  | construct len sr => simpa [encode] using decode_construct len.isLt sr rest
  | activate g f => rfl
  | beginBlock g f => rfl
  | processSample x m => rfl
  | processBlock g f m xs =>
    have hx : xs.length < 2 ^ 24 := by simpa [Instr.wellFormed] using hw
    simpa [encode] using decode_processBlock hx g f m (xs ++ rest)
  | deactivate => rfl
  | destroy => rfl

/-! ### What the decoder can do with a legal header -/

/-- A well-formed command's packet begins with a legal header and is as long as that header calls for. -/
theorem headsItsPacket (i : Instr) : Laws.HeadsItsPacket.Statement i := by
  cases i with
  | construct len sr => exact Laws.HeadsItsPacket.construct len sr
  | activate g f => exact Laws.HeadsItsPacket.activate g f
  | beginBlock g f => exact Laws.HeadsItsPacket.beginBlock g f
  | processSample x m => exact Laws.HeadsItsPacket.processSample x m
  | processBlock g f m xs => exact Laws.HeadsItsPacket.processBlock g f m xs
  | deactivate => exact Laws.HeadsItsPacket.deactivate
  | destroy => exact Laws.HeadsItsPacket.destroy

/-- The legal headers are those of the table of 30_encoding.md R74: the field `N` is free for CONSTRUCT and PROCESS_BLOCK alone. -/
theorem legalHeader_cases {h : Word} (hl : illegalHeader h = none) :
    (∃ len : Count, h = header 1 len.toNat) ∨ h = header 2 0 ∨ h = header 3 0 ∨ h = header 4 0 ∨
      (∃ n : Count, h = header 5 n.toNat) ∨ h = header 6 0 ∨ h = header 7 0 := by
  obtain ⟨h0, h8, hr, hz⟩ := illegalHeader_eq_none.1 hl
  have hh := header_of_fields hr
  obtain ho | ho | ⟨hn, ho⟩ : opField h = 1 ∨ opField h = 5 ∨ (nField h).toNat = 0 ∧
    (opField h = 2 ∨ opField h = 3 ∨ opField h = 4 ∨ opField h = 6 ∨ opField h = 7) := by omega
  · exact .inl ⟨nField h, by rw [← ho, hh]⟩
  · exact .inr (.inr (.inr (.inr (.inl ⟨nField h, by rw [← ho, hh]⟩))))
  · rw [hn] at hh
    rcases ho with ho | ho | ho | ho | ho <;> rw [ho] at hh <;> simp [← hh]

/-- The words `h :: ws` begin with the packet of a well-formed command. -/
def BeginsPacket (h : Word) (ws : List Word) : Prop :=
  ∃ i rest, i.wellFormed = true ∧ encode i ++ rest = h :: ws

/-- The words `h :: ws` are fewer than the header `h` calls for, and the decoder waits. -/
def Waits (h : Word) (ws : List Word) : Prop :=
  decode (h :: ws) = .incomplete ∧ (h :: ws).length < packetLength h

theorem beginsPacket_or_waits_construct (len : Count) (ws : List Word) :
    BeginsPacket (header 1 len.toNat) ws ∨ Waits (header 1 len.toNat) ws := by
  have hop := opField_header (op := 1) (by decide) len.isLt
  have hl := illegalHeader_header (op := 1) (by decide) (by decide) len.isLt (.inl rfl)
  match ws with
  | [] => exact .inr ⟨by simp [decode_legal hl, decodeLegal, hop], by simp [packetLength, hl, hop]⟩
  | sr :: rest => exact .inl ⟨.construct len sr, rest, rfl, rfl⟩

/-- A packet of two operand words and no field: the command, or the wait for an operand. -/
theorem beginsPacket_or_waits_two {h : Word} (c : Word → Word → Instr) (hc : ∀ a b, encode (c a b) = [h, a, b])
    (hw : ∀ a b, (c a b).wellFormed = true) (hlen : packetLength h = 3) (h0 : decode [h] = .incomplete)
    (h1 : ∀ a, decode [h, a] = .incomplete) (ws : List Word) : BeginsPacket h ws ∨ Waits h ws :=
  match ws with
  | [] => .inr ⟨h0, by simp [hlen]⟩
  | [a] => .inr ⟨h1 a, by simp [hlen]⟩
  | a :: b :: rest => .inl ⟨c a b, rest, hw a b, by simp [hc]⟩

theorem beginsPacket_or_waits_processBlock (n : Count) (ws : List Word) :
    BeginsPacket (header 5 n.toNat) ws ∨ Waits (header 5 n.toNat) ws := by
  have hop := opField_header (op := 5) (by decide) n.isLt
  have hn := nField_header (op := 5) (by decide) n.isLt
  have hl := illegalHeader_header (op := 5) (by decide) (by decide) n.isLt (.inr (.inl rfl))
  have hlen : packetLength (header 5 n.toNat) = 4 + n.toNat := by simp [packetLength, hl, hop, hn]
  match ws with
  | [] | [_] | [_, _] => exact .inr ⟨by simp [decode_legal hl, decodeLegal, hop], by simp [hlen]; omega⟩
  | g :: f :: m :: rest =>
    by_cases hr : n.toNat ≤ rest.length
    · exact .inl ⟨.processBlock g f m (rest.take n.toNat), rest.drop n.toNat, by simp [Instr.wellFormed, hr, n.isLt],
        by simp [encode, hr]⟩
    · exact .inr ⟨by rw [decode_processBlock n.isLt, if_neg hr], by simp [hlen]; omega⟩

/-- Everything the decoder can meet after a legal header (30_encoding.md R77, R78). -/
theorem beginsPacket_or_waits {h : Word} (hl : illegalHeader h = none) (ws : List Word) :
    BeginsPacket h ws ∨ Waits h ws := by
  rcases legalHeader_cases hl with ⟨len, rfl⟩ | rfl | rfl | rfl | ⟨n, rfl⟩ | rfl | rfl
  · exact beginsPacket_or_waits_construct len ws
  · exact beginsPacket_or_waits_two .activate (fun _ _ => rfl) (fun _ _ => rfl) rfl rfl (fun _ => rfl) ws
  · exact beginsPacket_or_waits_two .beginBlock (fun _ _ => rfl) (fun _ _ => rfl) rfl rfl (fun _ => rfl) ws
  · exact beginsPacket_or_waits_two .processSample (fun _ _ => rfl) (fun _ _ => rfl) rfl rfl (fun _ => rfl) ws
  · exact beginsPacket_or_waits_processBlock n ws
  · exact .inl ⟨.deactivate, ws, rfl, rfl⟩
  · exact .inl ⟨.destroy, ws, rfl, rfl⟩

/-! ### Decoding and encoding are inverse -/

/-- Settles O1, command by command. -/
theorem decodeReadsBackEncode : Obligations.DecodeReadsBackEncode := fun _ rest hw => decode_encode hw rest

/-- Words that decode to a command begin with a packet, and by `decode_encode` that packet is the decoded command's. -/
theorem encode_of_decode {ws rest : List Word} {i : Instr} (hd : decode ws = .packet i rest) :
    i.wellFormed = true ∧ encode i ++ rest = ws := by
  cases ws with
  | nil => cases hd
  | cons h ws =>
    cases hl : illegalHeader h with
    | some why => cases (decode_illegal hl ws).symm.trans hd
    | none =>
      rcases beginsPacket_or_waits hl ws with ⟨j, tail, hw, he⟩ | ⟨hwait, -⟩
      · rw [← he, decode_encode hw] at hd
        cases hd
        exact ⟨hw, he⟩
      · cases hwait.symm.trans hd

/-- Settles O2. -/
theorem encodeWritesBackDecode : Obligations.EncodeWritesBackDecode := fun _ _ _ => encode_of_decode

/-- Settles O6: each sequence is the encoding of its command, which `decode_encode` reads back. -/
theorem workedEncodingsDecode : Obligations.WorkedEncodingsDecode :=
  ⟨decode_encode (i := .construct 4#24 0x473B8000#32) rfl [],
    decode_encode (i := .activate 0x00000000#32 0x40A00000#32) rfl [],
    decode_encode (i := .beginBlock 0xC1A00000#32 0x40000000#32) rfl [],
    decode_encode (i := .processSample 0x3F800000#32 0x00000000#32) rfl [],
    decode_encode (i := .processBlock 0x00000000#32 0x40A00000#32 0x00000000#32 [0x3F800000#32, 0xBF000000#32]) rfl [],
    decode_encode (i := .deactivate) rfl [], decode_encode (i := .destroy) rfl []⟩

/-! ### Packet lengths -/

/-- A decoded packet is as long as its header calls for. -/
theorem packetLength_of_decode {h : Word} {ws rest : List Word} {i : Instr} (hd : decode (h :: ws) = .packet i rest) :
    packetLength h = (encode i).length := by
  obtain ⟨hw, he⟩ := encode_of_decode hd
  obtain ⟨h', tail, hcons, -, hlen⟩ := headsItsPacket i hw
  rw [hcons, List.cons_append] at he
  rw [← (List.cons.inj he).1, hlen]

theorem nField_of_decode_processBlock {h g f m : Word} {ws rest xs : List Word}
    (hd : decode (h :: ws) = .packet (.processBlock g f m xs) rest) : (nField h).toNat = xs.length := by
  obtain ⟨hw, he⟩ := encode_of_decode hd
  have hx : xs.length < 2 ^ 24 := by simpa [Instr.wellFormed] using hw
  rw [← (List.cons.inj he).1, nField_header (by decide) hx]

theorem decode_eq_illegal_iff {h : Word} {ws rest : List Word} {why : IllegalHeader} :
    decode (h :: ws) = .illegal why rest ↔ illegalHeader h = some why ∧ rest = ws := by
  cases hl : illegalHeader h with
  | some w => simp [decode_illegal hl, eq_comm]
  | none =>
    rcases beginsPacket_or_waits hl ws with ⟨i, tail, hw, he⟩ | ⟨hwait, -⟩
    · simp [← he, decode_encode hw]
    · simp [hwait]

theorem packetLength_le (h : Word) : packetLength h ≤ 4 + 16777215 := by
  have := (nField h).isLt
  unfold packetLength
  split_ifs
  · decide
  · split <;> omega

theorem toNat_extractLsb_nField (h : Word) : (h.extractLsb' 0 24).toNat = (nField h).toNat := by
  rw [BitVec.extractLsb'_toNat, toNat_nField, Nat.shiftRight_zero]

/-- Settles O4: the lengths are those of the encodings. -/
theorem packetLengthsAreThoseOfTheTable : Obligations.PacketLengthsAreThoseOfTheTable := by
  intro h ws rest i
  refine ⟨fun hd => ?_, ?_, fun why hd => ?_, packetLength_le h⟩
  · rw [packetLength_of_decode hd, ← (encode_of_decode hd).2, List.length_append]
    refine ⟨rfl, ?_⟩
    cases i with
    | processBlock g f m xs => exact Nat.add_comm xs.length 4
    | _ => rfl
  · rintro g f m xs rfl hd
    rw [toNat_extractLsb_nField, nField_of_decode_processBlock hd]
  · obtain ⟨hl, rfl⟩ := decode_eq_illegal_iff.1 hd
    exact ⟨by simp [packetLength, hl], rfl⟩

end Sys2Proof
end

section
/-! The step's three answers to the words that wait on `CMD` (30_encoding.md R76 to R78, 60_exceptions.md R193, R196). -/

namespace Sys2Proof.Machine

section Running

variable {s : State} (hr : s.resetIn = false) (hi : s.illCmd = false)
include hr hi

theorem step_of_incomplete (hd : decode s.cmd = .incomplete) : step s = .next s := by
  simp [step, fetch, hr, hi, hd]

theorem step_of_illegal {why : IllegalHeader} {rest : List Word} (hd : decode s.cmd = .illegal why rest) :
    step s = .next { s with cmd := rest, illCmd := true } := by
  simp [step, fetch, hr, hi, hd, raise]

theorem step_of_packet {i : Instr} {rest : List Word} (hd : decode s.cmd = .packet i rest) :
    step s = exec i { s with cmd := rest } := by
  simp [step, fetch, hr, hi, hd]

end Running

/-- Settles O7. -/
theorem stepRunsTheDecodedCommand : Obligations.StepRunsTheDecodedCommand := fun _ _ _ hr hi hd => step_of_packet hr hi hd

/-! ### Illegal headers -/

theorem toNat_extractLsb_opField (h : Word) : (h.extractLsb' 28 4).toNat = opField h := by
  rw [BitVec.extractLsb'_toNat, Nat.shiftRight_eq_div_pow, opField]
  exact Nat.mod_eq_of_lt (Nat.div_lt_of_lt_mul h.isLt)

theorem toNat_extractLsb_rsvField (h : Word) : (h.extractLsb' 24 4).toNat = rsvField h := by
  rw [BitVec.extractLsb'_toNat, Nat.shiftRight_eq_div_pow, rsvField]

/-- The three cases of 30_encoding.md R76, as the complement of the legal headers. -/
theorem exists_illegalHeader_iff {h : Word} :
    (∃ why, illegalHeader h = some why) ↔
      (opField h = 0 ∨ 8 ≤ opField h) ∨ rsvField h ≠ 0 ∨
        ((opField h = 2 ∨ opField h = 3 ∨ opField h = 4 ∨ opField h = 6 ∨ opField h = 7) ∧ (nField h).toNat ≠ 0) := by
  rw [← Option.ne_none_iff_exists', ne_eq, illegalHeader_eq_none]
  omega

/-- Settles O3: the cases are `exists_illegalHeader_iff`, and only an illegal header decodes as one. -/
theorem headerIsIllegalExactlyInThreeCases : Obligations.HeaderIsIllegalExactlyInThreeCases := by
  intro s h rest hr hi hcmd
  dsimp only
  rw [toNat_extractLsb_opField, toNat_extractLsb_rsvField, toNat_extractLsb_nField, ← exists_illegalHeader_iff]
  constructor
  · rintro ⟨why, hl⟩
    have hd : decode s.cmd = .illegal why rest := by rw [hcmd, decode_illegal hl]
    exact ⟨⟨why, hd⟩, step_of_illegal hr hi hd⟩
  · intro hlegal why ws hd
    rw [hcmd] at hd
    exact hlegal ⟨why, (decode_eq_illegal_iff.1 hd).1⟩

/-! ### Incomplete packets -/

/-- Settles O5: a legal header is short of words and waits, or begins a packet, which is read the same whatever follows it. -/
theorem incompletePacketHasNoEffect : Obligations.IncompletePacketHasNoEffect := by
  intro s h ws more hl hr hi hcmd
  rw [hcmd]
  rcases beginsPacket_or_waits hl ws with ⟨i, rest, hw, he⟩ | ⟨hwait, hshort⟩
  · have hd : decode (h :: ws) = .packet i rest := by rw [← he, decode_encode hw]
    refine ⟨fun hshort => ?_, fun _ => ⟨i, rest, hd, ?_⟩⟩
    · rw [packetLength_of_decode hd, ← he, List.length_append] at hshort
      omega
    · rw [← he, List.append_assoc, decode_encode hw]
  · exact ⟨fun _ => step_of_incomplete hr hi (hcmd ▸ hwait), fun hlong => absurd hshort hlong.not_gt⟩

end Sys2Proof.Machine
end

section
/-! The rounding of 40_numerics.md R91 gives a nearest pattern, the even one at a tie, and infinity exactly from half a unit below
2^128 on. -/

namespace Sys2Proof.Machine

/-! ### The bound of the overflow -/

/-- The middle between the largest finite magnitude and 2^128, in units of 2^-149. -/
def overflowBound : Nat := (2 ^ 25 - 1) * 2 ^ 252

theorem roundMag_overflowBound : roundMag overflowBound 1 = infBits := by decide

/-- Below the bound at most 253 bits are dropped, and where it is 253 the significand stays below 2^24. -/
theorem roundMag_lt_inf_of_lt_bound {n d : Nat} (hd : 0 < d) (h : n < overflowBound * d) : roundMag n d < infBits := by
  have hinf : infBits = 253 * 2 ^ 23 + 2 ^ 24 := by decide
  have hsig := significand_le n d
  have hdrop : dropBits n d ≤ 253 :=
    (dropBits_mono hd Nat.one_pos (by omega)).trans_eq (by decide : dropBits overflowBound 1 = 253)
  rw [roundMag_def]
  refine (min_le_left _ _).trans_lt ?_
  rcases Nat.lt_or_eq_of_le hdrop with hlt | heq
  · omega
  · have hup := (roundHalfEven_upper n (d * 2 ^ 253)).1
    rw [← heq, ← significand, heq] at hup
    have hlt : significand n d * (d * 2 ^ 253) < 2 ^ 24 * (d * 2 ^ 253) := by
      unfold overflowBound at h
      omega
    have := Nat.lt_of_mul_lt_mul_right hlt
    omega

theorem roundMag_eq_inf_iff {n d : Nat} (hd : 0 < d) : roundMag n d = infBits ↔ overflowBound * d ≤ n := by
  constructor
  · intro h
    by_contra hlt
    exact (roundMag_lt_inf_of_lt_bound hd (Nat.not_le.1 hlt)).ne h
  · intro h
    refine le_antisymm (roundMag_le_inf n d) ?_
    rw [← roundMag_overflowBound]
    exact roundMag_mono Nat.one_pos hd (by omega)

/-! ### The neighbours of a rounded pattern -/

/-- Every pattern above the rounded one is at least the dropped unit above it. -/
theorem patternMag_above {n d p : Nat} (h : roundMag n d < infBits) (hp : roundMag n d < p) :
    patternMag (roundMag n d) + 2 ^ dropBits n d ≤ patternMag p := by
  refine le_trans ?_ (patternMag_le.2 (Nat.succ_le_of_lt hp))
  rw [patternMag_roundMag h, roundMag_of_lt h]
  have hge := significand_ge (n := n) (d := d)
  have hle := significand_le n d
  generalize significand n d = m at hge hle ⊢
  generalize dropBits n d = k at hge ⊢
  rcases Nat.lt_or_eq_of_le hle with hlt | rfl
  · rw [Nat.succ_eq_add_one, Nat.add_assoc, patternMag_eq (by omega) hlt, Nat.succ_mul]
  · have hnext : (k * 2 ^ 23 + 2 ^ 24).succ = (k + 1) * 2 ^ 23 + (2 ^ 23 + 1) := by omega
    rw [hnext, patternMag_eq (by omega) (by omega), Nat.pow_succ]
    omega

/-- Every pattern below the rounded one is at least the dropped unit below it, unless the quotient was rounded down: the unit
is smaller only below the least normal significand, and no quotient rounds up to that. -/
theorem patternMag_below {n d p : Nat} (h : roundMag n d < infBits) (hp : p < roundMag n d) :
    patternMag p + 2 ^ dropBits n d ≤ patternMag (roundMag n d) ∨ patternMag (roundMag n d) * d ≤ n := by
  by_cases hm : dropBits n d ≠ 0 ∧ significand n d = 2 ^ 23
  · obtain ⟨hk, hm⟩ := hm
    right
    calc patternMag (roundMag n d) * d = 2 ^ (dropBits n d + 23) * d := by
          rw [patternMag_roundMag h, hm, Nat.pow_add, Nat.mul_comm (2 ^ 23)]
      _ ≤ n / d * d := Nat.mul_le_mul_right d (quotient_ge hk)
      _ ≤ n := Nat.div_mul_le_self n d
  · left
    rw [patternMag_roundMag h]
    rw [roundMag_of_lt h] at hp
    have hge := significand_ge (n := n) (d := d)
    have hle := significand_le n d
    generalize significand n d = m at hge hle hp hm ⊢
    generalize dropBits n d = k at hge hp hm ⊢
    obtain ⟨m, rfl⟩ : ∃ j, m = j + 1 := ⟨m - 1, by omega⟩
    have hprev : patternMag p ≤ patternMag (k * 2 ^ 23 + m) := patternMag_le.2 (by omega)
    rw [patternMag_eq (by omega) (by omega)] at hprev
    rw [Nat.succ_mul]
    omega

/-! ### Nearest, and even at a tie -/

/-- Above or below the quotient by exactly half of the dropped unit, the rounded pattern is even. -/
theorem roundMag_even_of_tie {n d : Nat} (hd : 0 < d) (h : roundMag n d < infBits)
    (htie : 2 * (patternMag (roundMag n d) * d) = 2 * n + 2 ^ dropBits n d * d ∨
      2 * n = 2 * (patternMag (roundMag n d) * d) + 2 ^ dropBits n d * d) : roundMag n d % 2 = 0 := by
  have heven : significand n d % 2 = 0 := by
    rw [patternMag_roundMag h, Nat.mul_assoc, Nat.mul_comm _ d] at htie
    have hunit : 0 < d * 2 ^ dropBits n d := by positivity
    exact htie.elim (fun he => (roundHalfEven_upper n _).2 he hunit) (roundHalfEven_lower hunit).2
  rw [roundMag_of_lt h]
  omega

/-- A number within half a unit of `n` is at least as near to it as one that lies a whole unit off, or beyond it on its own side;
and if it is just as near, it is half a unit off. -/
theorem nearer_of_gap {n r q u : Nat} (hup : 2 * r ≤ 2 * n + u) (hlow : 2 * n ≤ 2 * r + u) (hu : 0 < u)
    (hgap : r + u ≤ q ∨ q + u ≤ r ∨ q < r ∧ r ≤ n) :
    |(r : ℤ) - n| ≤ |(q : ℤ) - n| ∧ (|(r : ℤ) - n| = |(q : ℤ) - n| → 2 * r = 2 * n + u ∨ 2 * n = 2 * r + u) := by
  rw [Int.abs_eq_natAbs, Int.abs_eq_natAbs]
  omega

/-- No pattern is nearer to the quotient than the rounded one, and where another is equally near, the rounded one is even. -/
theorem roundMag_nearest {n d p : Nat} (hd : 0 < d) (h : roundMag n d < infBits) :
    |((patternMag (roundMag n d) * d : ℕ) : ℤ) - n| ≤ |((patternMag p * d : ℕ) : ℤ) - n| ∧
      (|((patternMag (roundMag n d) * d : ℕ) : ℤ) - n| = |((patternMag p * d : ℕ) : ℤ) - n| → p ≠ roundMag n d →
        roundMag n d % 2 = 0) := by
  rcases eq_or_ne p (roundMag n d) with rfl | hne
  · exact ⟨le_rfl, fun _ hne => absurd rfl hne⟩
  have hup := roundMag_upper n d h
  have hlow := roundMag_lower hd h
  rw [Nat.mul_comm d] at hup hlow
  have hgap : patternMag (roundMag n d) * d + 2 ^ dropBits n d * d ≤ patternMag p * d ∨
      patternMag p * d + 2 ^ dropBits n d * d ≤ patternMag (roundMag n d) * d ∨
      patternMag p * d < patternMag (roundMag n d) * d ∧ patternMag (roundMag n d) * d ≤ n := by
    rw [← Nat.add_mul, ← Nat.add_mul]
    rcases Nat.lt_or_gt_of_ne hne with hlt | hgt
    · exact .inr ((patternMag_below h hlt).imp (Nat.mul_le_mul_right d)
        fun hle => ⟨Nat.mul_lt_mul_of_pos_right (patternMag_lt.2 hlt) hd, hle⟩)
    · exact .inl (Nat.mul_le_mul_right d (patternMag_above h hgt))
  obtain ⟨hnear, htie⟩ := nearer_of_gap hup hlow (by positivity) hgap
  exact ⟨hnear, fun he _ => roundMag_even_of_tie hd h (htie he)⟩

/-- Settles O41: the bound is `roundMag_eq_inf_iff`, doubled on both sides. -/
theorem roundingIsToNearestEven : Obligations.RoundingIsToNearestEven := by
  intro n d hd
  refine ⟨?_, fun h p _ => roundMag_nearest hd h⟩
  rw [roundMag_eq_inf_iff hd, overflowBound]
  omega

end Sys2Proof.Machine
end

section
/-! The four operations give the exact result rounded once, with the sign of 40_numerics.md R92, and a NaN exactly where that rule
says so. -/

namespace Sys2Proof.Machine

theorem isNaN_of_isInf {w : Word} (h : isInf w = true) : isNaN w = false :=
  isNaN_eq_false.2 (isInf_iff.1 h).le

theorem not_isNaN_of_zero {w : Word} (h : magBits w = 0) : isNaN w = false := isNaN_eq_false.2 (by omega)

theorem value_eq_zero {w : Word} : value w = 0 ↔ magBits w = 0 := by
  rw [← Int.natAbs_eq_zero, value_natAbs, magnitude_eq_zero]

/-! ### Sum and difference -/

section Finite

variable {a b : Word} (nan : Word) (ha : isFinite a = true) (hb : isFinite b = true)
include ha hb

theorem magBits_fadd : magBits (fadd nan a b) = roundMag (value a + value b).natAbs 1 := by
  rw [fadd_of_finite nan ha hb]
  split_ifs with h
  · rw [h, Int.natAbs_zero, roundMag_zero, magBits_pack (by decide)]
  · exact magBits_pack (roundMag_lt _ _)

theorem signBit_fadd (h : value a + value b ≠ 0) : signBit (fadd nan a b) = true ↔ value a + value b < 0 := by
  rw [fadd_of_finite nan ha hb, if_neg h, signBit_pack (roundMag_lt _ _), decide_eq_true_iff]

theorem signBit_fadd_zero (h : value a + value b = 0) :
    signBit (fadd nan a b) = true ↔ signBit a = true ∧ signBit b = true := by
  rw [fadd_of_finite nan ha hb, if_pos h, signBit_pack (by decide), Bool.and_eq_true]

theorem magBits_fsub : magBits (fsub nan a b) = roundMag (value a - value b).natAbs 1 := by
  rw [fsub, magBits_fadd nan ha (by rwa [isFinite_negate]), value_negate, sub_eq_add_neg]

theorem signBit_fsub (h : value a ≠ value b) : signBit (fsub nan a b) = true ↔ value a < value b := by
  rw [fsub, signBit_fadd nan ha (by rwa [isFinite_negate]) (by rw [value_negate]; omega), value_negate]
  omega

theorem signBit_fsub_zero (h : value a = value b) :
    signBit (fsub nan a b) = true ↔ signBit a = true ∧ signBit b = false := by
  rw [fsub, signBit_fadd_zero nan ha (by rwa [isFinite_negate]) (by rw [value_negate]; omega), signBit_negate,
    Bool.not_eq_true']

/-! ### Product and quotient -/

theorem magBits_fmul : magBits (fmul nan a b) = roundMag (value a * value b).natAbs (2 ^ 149) := by
  rw [fmul_of_finite nan ha hb, magBits_pack (roundMag_lt _ _), Int.natAbs_mul, value_natAbs, value_natAbs]

theorem signBit_fmul : signBit (fmul nan a b) = true ↔ signBit a ≠ signBit b := by
  rw [fmul_of_finite nan ha hb, signBit_pack (roundMag_lt _ _), bne_iff_ne]

theorem magBits_fdiv (h : value b ≠ 0) :
    magBits (fdiv nan a b) = roundMag ((value a).natAbs * 2 ^ 149) (value b).natAbs := by
  rw [fdiv_of_finite nan ha hb (mt value_eq_zero.2 h), magBits_pack (roundMag_lt _ _), value_natAbs, value_natAbs]

theorem signBit_fdiv (h : value b ≠ 0) : signBit (fdiv nan a b) = true ↔ signBit a ≠ signBit b := by
  rw [fdiv_of_finite nan ha hb (mt value_eq_zero.2 h), signBit_pack (roundMag_lt _ _), bne_iff_ne]

/-- A quotient by zero: the NaN of 0 / 0, or an infinity. -/
theorem fdiv_by_zero (h : value b = 0) :
    fdiv nan a b = if value a = 0 then nan else pack (signBit a != signBit b) infBits := by
  simp [fdiv, isNaN_of_isFinite ha, isNaN_of_isFinite hb, isInf_of_isFinite ha, isInf_of_isFinite hb,
    value_eq_zero.1 h, value_eq_zero]

end Finite

/-! ### The operands whose result is a NaN -/

section NaNResult

variable {a b : Word} (nan : Word)

theorem fadd_nan (h : isNaN a = true ∨ isNaN b = true) : fadd nan a b = nan := by
  rw [fadd, if_pos (by rwa [Bool.or_eq_true])]

theorem fsub_nan (h : isNaN a = true ∨ isNaN b = true) : fsub nan a b = nan :=
  fadd_nan nan (by rwa [isNaN_negate])

theorem fmul_nan (h : isNaN a = true ∨ isNaN b = true) : fmul nan a b = nan := by
  rw [fmul, if_pos (by rwa [Bool.or_eq_true])]

theorem fdiv_nan (h : isNaN a = true ∨ isNaN b = true) : fdiv nan a b = nan := by
  rw [fdiv, if_pos (by rwa [Bool.or_eq_true])]

theorem fadd_opposite_inf (ha : isInf a = true) (hb : isInf b = true) (hs : signBit a ≠ signBit b) :
    fadd nan a b = nan := by
  simp [fadd, isNaN_of_isInf ha, isNaN_of_isInf hb, ha, hb, hs]

theorem fsub_equal_inf (ha : isInf a = true) (hb : isInf b = true) (hs : signBit a = signBit b) :
    fsub nan a b = nan :=
  fadd_opposite_inf nan ha (by rwa [isInf_negate]) (by rw [signBit_negate, hs]; exact (Bool.not_ne_self _).symm)

theorem fmul_inf_zero (ha : isInf a = true) (hb : magBits b = 0) : fmul nan a b = nan := by
  simp [fmul, isNaN_of_isInf ha, not_isNaN_of_zero hb, ha, hb]

theorem fmul_zero_inf (ha : magBits a = 0) (hb : isInf b = true) : fmul nan a b = nan := by
  simp [fmul, isNaN_of_isInf hb, not_isNaN_of_zero ha, ha, hb]

theorem fdiv_inf_inf (ha : isInf a = true) (hb : isInf b = true) : fdiv nan a b = nan := by
  simp [fdiv, isNaN_of_isInf ha, isNaN_of_isInf hb, ha, hb]

end NaNResult

/-! ### The statements -/

/-- Settles O42. -/
theorem sumAndProductRoundTheExactResult : Obligations.SumAndProductRoundTheExactResult := by
  intro a b nan
  refine ⟨fun ha hb => ⟨⟨?_, ?_, ?_⟩, ?_, ?_⟩, fun h => ⟨fadd_nan nan h, fmul_nan nan h⟩, fadd_opposite_inf nan,
    fun ha hb => ⟨fmul_inf_zero nan ha hb, fmul_zero_inf nan hb ha⟩⟩
  · exact magBits_fadd nan ha hb
  · exact signBit_fadd nan ha hb
  · exact signBit_fadd_zero nan ha hb
  · exact magBits_fmul nan ha hb
  · exact signBit_fmul nan ha hb

/-- Settles O60: the difference by `fsub`'s sum with the sign flipped, the quotient by its divisor being zero or not. -/
theorem differenceAndQuotientRoundTheExactResult : Obligations.DifferenceAndQuotientRoundTheExactResult := by
  intro a b nan
  refine ⟨fun ha hb => ⟨⟨?_, ?_, ?_⟩, fun h => ⟨?_, ?_⟩, fun hz hne => ?_, fun hz hz' => ?_⟩,
    fun h => ⟨fsub_nan nan h, fdiv_nan nan h⟩, fun ha hb => ⟨fdiv_inf_inf nan ha hb, fsub_equal_inf nan ha hb⟩⟩
  · exact magBits_fsub nan ha hb
  · exact signBit_fsub nan ha hb
  · exact signBit_fsub_zero nan ha hb
  · exact magBits_fdiv nan ha hb h
  · exact signBit_fdiv nan ha hb h
  · rw [fdiv_by_zero nan ha hb hz, if_neg hne]
    exact ⟨magBits_pack (by decide), by rw [signBit_pack (by decide), bne_iff_ne]⟩
  · rw [fdiv_by_zero nan ha hb hz, if_pos hz']

end Sys2Proof.Machine
end

section
/-! The conversions between numbers and natural numbers are exact (40_numerics.md R98, R99). -/

namespace Sys2Proof.Machine

/-! ### The number of a word that is not negative -/

/-- 2^-149 as the quotient by a natural number, the form of the floor lemmas. -/
theorem ratValue_of_nonneg {w : Word} (h : 0 ≤ value w) : ratValue w = (magnitude w : ℚ) / (2 ^ 149 : ℕ) := by
  have hv : value w = magnitude w := by rw [← value_natAbs, Int.natAbs_of_nonneg h]
  rw [ratValue, hv, Int.cast_natCast, Nat.cast_pow, Nat.cast_ofNat]

theorem ratValue_pack_false {p : Nat} (h : p < 2 ^ 31) : ratValue (pack false p) = (patternMag p : ℚ) / (2 ^ 149 : ℕ) := by
  rw [ratValue_of_nonneg (by rw [value_pack h]; exact Int.natCast_nonneg _), magnitude_pack h]

/-- A natural number below or at the number of a word is below or at its units. -/
theorem le_ratValue_iff {w : Word} (h : 0 ≤ value w) {n : Nat} : (n : ℚ) ≤ ratValue w ↔ n * 2 ^ 149 ≤ magnitude w := by
  rw [ratValue_of_nonneg h, le_div_iff₀ (by positivity)]
  exact_mod_cast Iff.rfl

theorem isNonNegFinite_iff {v : Word} : isNonNegFinite v = true ↔ isFinite v = true ∧ 0 ≤ value v := by
  rw [isNonNegFinite, Bool.and_eq_true, decide_eq_true_iff]

theorem not_isNonNegFinite {v : Word} (h : isFinite v = false ∨ value v < 0) : ¬isNonNegFinite v = true := by
  rw [isNonNegFinite_iff]
  rintro ⟨hf, h0⟩
  exact h.elim (fun h => absurd hf (by simp [h])) (fun h => absurd h0 (Int.not_le.2 h))

/-! ### `Frac` -/

section Frac

variable {v : Word} (hf : isFinite v = true) (h0 : 0 ≤ value v)
include hf h0

/-- `Frac` keeps the units below 1, which have a pattern. -/
theorem frac_eq_pack : ∃ p, p < cOne.toNat ∧ frac v = some (pack false p) ∧ patternMag p = magnitude v % 2 ^ 149 := by
  obtain ⟨p, hp, he⟩ := exists_pattern_frac (magBits v)
  refine ⟨p, hp, ?_, he⟩
  rw [frac, if_pos (isNonNegFinite_iff.2 ⟨hf, h0⟩), magnitude, ← he, roundMag_exact_one (hp.trans (by decide)).le]

theorem exists_frac : ∃ r, frac v = some r ∧ signBit r = false ∧ isFinite r = true ∧ magnitude r = magnitude v % 2 ^ 149 ∧
    ratValue r = Int.fract (ratValue v) := by
  obtain ⟨p, hp, hfrac, he⟩ := frac_eq_pack hf h0
  have hlt : p < 2 ^ 31 := hp.trans (by decide)
  refine ⟨pack false p, hfrac, signBit_pack hlt, ?_, ?_, ?_⟩
  · rw [isFinite_iff, magBits_pack hlt]
    exact hp.trans (by decide)
  · rw [magnitude_pack hlt, he]
  · rw [ratValue_pack_false hlt, ratValue_of_nonneg h0, he, Int.fract_div_natCast_eq_div_natCast_mod]

end Frac

/-- A number of 2^23 or more is an integer: its significand has no bits below the unit. -/
theorem magnitude_mod_of_large {v : Word} (h : 2 ^ 23 * 2 ^ 149 ≤ magnitude v) : magnitude v % 2 ^ 149 = 0 := by
  unfold magnitude at h ⊢
  obtain ⟨k, m, hp, hk, hm⟩ := pattern_split (magBits v)
  rw [hp, patternMag_eq hk hm.le] at h ⊢
  have hk : 149 ≤ k := by
    by_contra hlt
    have hpow : 2 ^ k ≤ 2 ^ 148 := Nat.pow_le_pow_right (by omega) (by omega)
    have : m * 2 ^ k < 2 ^ 24 * 2 ^ 148 := Nat.mul_lt_mul_of_lt_of_le hm hpow (by positivity)
    omega
  exact Nat.mod_eq_zero_of_dvd (Nat.dvd_mul_left_of_dvd (Nat.pow_dvd_pow 2 hk) m)

/-- Two words of the same sign whose magnitudes agree are the same word. -/
theorem word_ext_magnitude {a b : Word} (hs : signBit a = signBit b) (hm : magnitude a = magnitude b) : a = b :=
  word_ext hs (patternMag_inj.1 hm)

/-- Settles O43: the units of the result are the remainder of those of `v`, so its number is the fractional part. -/
theorem fracIsExactAndBelowOne : Obligations.FracIsExactAndBelowOne := by
  intro v
  refine ⟨fun hf h0 => ?_, fun h => if_neg (not_isNonNegFinite h)⟩
  obtain ⟨r, hr, hs, hfin, hmag, hrat⟩ := exists_frac hf h0
  refine ⟨r, hr, hs, hfin, hrat, hrat ▸ Int.fract_nonneg _, hrat ▸ Int.fract_lt_one _, fun hlt hsign => ?_, fun hge => ?_⟩
  · have hsmall : magnitude v < 1 * 2 ^ 149 := by
      rw [← not_le, ← le_ratValue_iff h0, Nat.cast_one]
      exact not_le.2 hlt
    exact word_ext_magnitude (hs.trans hsign.symm) (by rw [hmag, Nat.mod_eq_of_lt (by omega)])
  · have hlarge : 8388608 * 2 ^ 149 ≤ magnitude v := (le_ratValue_iff h0).1 (by exact_mod_cast hge)
    exact word_ext_magnitude (hs.trans (by decide)) (by rw [hmag, magnitude_mod_of_large hlarge]; decide)

/-! ### `FromNat` and `ToIndex` -/

theorem ratValue_fromNat {n : Nat} (h : n ≤ 2 ^ 24) : isFinite (fromNat n) = true ∧ ratValue (fromNat n) = n := by
  obtain ⟨hlt, he⟩ := fromNat_spec h
  have hlt' : (fromNat n).toNat < 2 ^ 31 := hlt.trans (by decide)
  refine ⟨isFinite_of_lt hlt, ?_⟩
  rw [ratValue_of_nonneg (value_nonneg_of_lt hlt'), magnitude_of_lt hlt', he, Nat.cast_mul, mul_div_cancel_right₀ _ (by positivity)]

theorem toIndex_eq_floor {v : Word} (hf : isFinite v = true) (h0 : 0 ≤ value v) : toIndex v = some ⌊ratValue v⌋₊ := by
  rw [toIndex, if_pos (isNonNegFinite_iff.2 ⟨hf, h0⟩), ratValue_of_nonneg h0, Nat.floor_div_eq_div]

/-- Settles O44. -/
theorem integerConversionsAreExact : Obligations.IntegerConversionsAreExact :=
  ⟨fun _ => ratValue_fromNat, fun _ => toIndex_eq_floor, fun _ h => if_neg (not_isNonNegFinite h)⟩

end Sys2Proof.Machine
end

section
/-! What becomes of an operand on its way to a register (40_numerics.md R101 to R110): the smoothing step, the gain clamp and its
conversion, the sanitisers and the mode selection. -/

namespace Sys2Proof.Machine

/-! ### The smoothing step -/

section SmoothStep

variable {nan : Nat → Word} {c t : Word} (hc : isFinite c = true) (ht : isFinite t = true)
  (hd : isFinite (fsub (nan 0) t c) = true)
include hc ht hd

theorem smooth_not_nan : isNaN (smooth nan c t) = false :=
  fadd_not_nan _ hc (smoothIncrement_between (nan 0) (nan 1) hc ht hd).1

theorem fle_smooth_up (h : fle c t = true) : fle c (smooth nan c t) = true ∧ fle (smooth nan c t) t = true := by
  have hcn := isNaN_of_isFinite hc
  have htn := isNaN_of_isFinite ht
  have hn := smooth_not_nan hc ht hd
  rw [fle_iff hcn hn, fle_iff hn htn]
  exact smooth_up hc ht hd ((fle_iff hcn htn).1 h)

theorem fle_smooth_down (h : fle t c = true) : fle t (smooth nan c t) = true ∧ fle (smooth nan c t) c = true := by
  have hcn := isNaN_of_isFinite hc
  have htn := isNaN_of_isFinite ht
  have hn := smooth_not_nan hc ht hd
  rw [fle_iff htn hn, fle_iff hn hcn]
  exact smooth_down hc ht hd ((fle_iff htn hcn).1 h)

end SmoothStep

/-- On the target the increment is a zero, and a word with sign bit 0 keeps its bits when a zero is added. -/
theorem smooth_on_target {nan : Nat → Word} {w : Word} (hw : isFinite w = true) (hd : isFinite (fsub (nan 0) w w) = true)
    (hs : signBit w = false) : smooth nan w w = w := by
  obtain ⟨-, hup, -⟩ := smoothIncrement_between (nan 0) (nan 1) hw hw hd
  obtain ⟨hlo, hhi⟩ := hup le_rfl
  rw [sub_self] at hhi
  exact fadd_zero (nan 2) hw (value_eq_zero.1 (le_antisymm hhi hlo)) (.inl hs)

theorem lt_infBits_of_sign {w : Word} (hf : isFinite w = true) (hs : signBit w = false) : w.toNat < infBits := by
  rwa [isFinite_iff, magBits_of_lt (lt_of_signBit hs)] at hf

/-- Settles O45. -/
theorem smoothNeverOvershoots : Obligations.SmoothNeverOvershoots := by
  intro nan cur tgt hc ht hd
  refine ⟨fle_smooth_up hc ht hd, fle_smooth_down hc ht hd, ?_, fun hcs hts => ?_⟩
  · rintro rfl hs
    exact smooth_on_target hc hd hs
  · exact signBit_smooth (lt_infBits_of_sign hc hcs) (lt_infBits_of_sign ht hts)

/-! ### The gain clamp -/

theorem isNaN_cDbMin : isNaN cDbMin = false := by decide

theorem isNaN_cDbMax : isNaN cDbMax = false := by decide

/-- The two ends of the clamp, in units of 2^-149. -/
theorem value_cDbMin : value cDbMin = -(120 * 2 ^ 149) := by decide

theorem value_cDbMax : value cDbMax = 0 := by decide

theorem clampDb_low {g : Word} (h : flt g cDbMin = true) : clampDb g = cDbMin := if_pos h

section Clamp

variable {g : Word} (hg : isNaN g = false)
include hg

theorem clampDb_high (h : flt cDbMax g = true) : clampDb g = cDbMax := by
  have hlow : ¬flt g cDbMin = true := by
    rw [flt_iff isNaN_cDbMax hg, value_cDbMax] at h
    rw [flt_iff hg isNaN_cDbMin, value_cDbMin]
    omega
  rw [clampDb, if_neg hlow, if_pos h]

theorem clampDb_between (hmin : fle cDbMin g = true) (hmax : fle g cDbMax = true) : clampDb g = g := by
  rw [fle_iff isNaN_cDbMin hg] at hmin
  rw [fle_iff hg isNaN_cDbMax] at hmax
  rw [clampDb, if_neg (by rw [flt_iff hg isNaN_cDbMin]; omega), if_neg (by rw [flt_iff isNaN_cDbMax hg]; omega)]

theorem clampDb_inRange : fle cDbMin (clampDb g) = true ∧ fle (clampDb g) cDbMax = true := by
  by_cases hlow : flt g cDbMin = true
  · rw [clampDb_low hlow]
    decide
  by_cases hhigh : flt cDbMax g = true
  · rw [clampDb_high hg hhigh]
    decide
  rw [flt_iff hg isNaN_cDbMin, not_lt, ← fle_iff isNaN_cDbMin hg] at hlow
  rw [flt_iff isNaN_cDbMax hg, not_lt, ← fle_iff hg isNaN_cDbMax] at hhigh
  rw [clampDb_between hg hlow hhigh]
  exact ⟨hlow, hhigh⟩

end Clamp

/-- Settles O46. -/
theorem clampDbKeepsItsRange : Obligations.ClampDbKeepsItsRange :=
  ⟨fun _ hg => ⟨clampDb_low, clampDb_high hg, clampDb_between hg, clampDb_inRange hg⟩, fun _ _ => sanG_not_nan⟩

/-! ### The gain conversion -/

theorem not_nan_of_fle_left {a b : Word} (h : fle a b = true) : isNaN a = false := by
  cases hn : isNaN a with
  | false => rfl
  | true => simp [fle, hn] at h

/-- A gain in [−120, 0] is a zero or has sign bit 1, and its units are at most those of 120. -/
theorem gain_units {db : Word} (hmin : fle cDbMin db = true) (hmax : fle db cDbMax = true) :
    isNaN db = false ∧ value db = -(magnitude db : ℤ) ∧ magBits db ≤ magBits cDbMin := by
  have hn := not_nan_of_fle_left hmax
  rw [fle_iff isNaN_cDbMin hn, value_cDbMin] at hmin
  rw [fle_iff hn isNaN_cDbMax, value_cDbMax] at hmax
  have habs := value_natAbs db
  have hunits : magnitude cDbMin = 120 * 2 ^ 149 := by decide
  refine ⟨hn, by omega, patternMag_le.1 ?_⟩
  change magnitude db ≤ magnitude cDbMin
  omega

/-- A gain in [−120, 0] other than −120 is above it: only one pattern stands for −120. -/
theorem flt_cDbMin_of_ne {db : Word} (hmin : fle cDbMin db = true) (hmax : fle db cDbMax = true) (hne : db ≠ cDbMin) :
    flt cDbMin db = true ∧ magBits db < magBits cDbMin := by
  obtain ⟨hn, hv, hle⟩ := gain_units hmin hmax
  have hlt : magBits db < magBits cDbMin := by
    refine lt_of_le_of_ne hle fun he => hne ?_
    have hs : signBit db = true := by
      by_contra hs
      rw [value_nonneg_of_sign (by simpa using hs)] at hv
      have h0 : magnitude db = 0 := by omega
      rw [magnitude_eq_zero, he] at h0
      exact absurd h0 (by decide)
    exact word_ext (hs.trans (by decide)) he
  refine ⟨?_, hlt⟩
  rw [flt_iff isNaN_cDbMin hn, hv, value_neg_of_sign (w := cDbMin) (by decide)]
  have := patternMag_lt.2 hlt
  unfold magnitude
  omega

/-- The pattern of the largest quotient: that of the pattern just below 120, by 20, which rounds to just below 6. -/
theorem roundMag_gain_quotient :
    roundMag (patternMag (magBits cDbMin - 1) * 2 ^ 149) (magnitude cTwenty) < 0x40C00000 := by decide

/-- The quotient by 20 of a gain in (−120, 0] lies in (−6, 0]: it cannot round up to 6, as 120 − 2^-17 does not. -/
theorem pow10Domain_gain_quotient (nan : Word) {db : Word} (hv : value db = -(magnitude db : ℤ))
    (hlt : magBits db < magBits cDbMin) : pow10Domain (fdiv nan db cTwenty) := by
  have hfin : isFinite db = true := isFinite_iff.2 (hlt.trans (by decide))
  have hround : roundMag (magnitude db * 2 ^ 149) (magnitude cTwenty) < 0x40C00000 := by
    refine lt_of_le_of_lt (roundMag_mono (by decide) (by decide) ?_) roundMag_gain_quotient
    exact Nat.mul_le_mul_right _ (Nat.mul_le_mul_right _ (patternMag_le.2 (Nat.le_pred_of_lt hlt)))
  have hq := fdiv_of_finite nan hfin (by decide : isFinite cTwenty = true) (by decide)
  have hsix := patternMag_lt.2 hround
  rw [show patternMag 0x40C00000 = 6 * 2 ^ 149 by decide] at hsix
  have hle : value (fdiv nan db cTwenty) ≤ 0 := by
    rw [hq, value_pack (roundMag_lt _ _), show signBit cTwenty = false by decide, Bool.bne_false]
    cases hs : signBit db with
    | true => simp
    | false =>
      rw [value_nonneg_of_sign hs] at hv
      have h0 : magnitude db = 0 := by omega
      simp [h0]
  have habs : (value (fdiv nan db cTwenty)).natAbs < 6 * 2 ^ 149 := by
    rwa [value_natAbs, hq, magnitude_pack (roundMag_lt _ _)]
  refine ⟨?_, ?_, ?_⟩
  · rw [hq, isFinite_iff, magBits_pack (roundMag_lt _ _)]
    exact hround.trans (by decide)
  · have hgt : (-6 * 2 ^ 149 : ℤ) < value (fdiv nan db cTwenty) := by omega
    rw [ratValue, lt_div_iff₀ (by positivity)]
    exact_mod_cast hgt
  · exact div_nonpos_of_nonpos_of_nonneg (by exact_mod_cast hle) (by positivity)

/-- Settles O47: −120 is the one gain in the range that is not above −120. -/
theorem gainConversionStaysInUnitRange : Obligations.GainConversionStaysInUnitRange := by
  intro db nan hmin hmax
  refine ⟨coefInRange_g2l nan db, ?_, fun hne => ?_, fun hz => ?_⟩
  · rintro rfl
    exact if_neg (by decide)
  · obtain ⟨-, hv, -⟩ := gain_units hmin hmax
    obtain ⟨habove, hlt⟩ := flt_cDbMin_of_ne hmin hmax hne
    exact ⟨if_pos habove, pow10Domain_gain_quotient nan hv hlt⟩
  · have hne : db ≠ cDbMin := by
      rintro rfl
      exact absurd hz (by decide)
    rw [g2l, if_pos (flt_cDbMin_of_ne hmin hmax hne).1]
    refine pow10_zero ?_
    rw [fdiv_of_finite nan (isFinite_iff.2 (by rw [hz]; decide)) (by decide) (by decide), magnitude_eq_zero.2 hz, Nat.zero_mul,
      roundMag_zero, magBits_pack (by decide)]

/-! ### The sanitisers -/

/-- A frequency in range is not below `FREQ_MIN`, so it stays (40_numerics.md R105). -/
theorem sanF_of_inRange {f : Word} (h : freqInRange f) (fb : Word) : sanF f fb = f := by
  obtain ⟨hf, hle⟩ := h
  have hn := isNaN_of_isFinite hf
  rw [fle_iff freqMin_not_nan hn] at hle
  rw [sanF_finite hf, if_neg (by rw [flt_iff hn freqMin_not_nan]; exact not_lt.2 hle)]

/-- Settles O48. -/
theorem sanitisersRepairExactlyTheAnomalies : Obligations.SanitisersRepairExactlyTheAnomalies := by
  intro f g fb gb hfb hgb
  refine ⟨freqInRange_sanF f hfb, fun hf => sanF_not_finite hf fb, fun hf hlt => ?_, fun hf => sanF_of_inRange hf fb,
    sanG_not_nan hgb, fun hg => sanG_nan hg gb, fun hg => sanG_of_not_nan hg gb⟩
  rw [sanF_finite hf, if_pos hlt]

/-! ### The mode selection -/

theorem modeSel_eq_sine {m : Word} : modeSel m = .sine ↔ flt m cHalf = true := by
  unfold modeSel
  split_ifs with h <;> simp [h]

theorem ratValue_lt_half_iff {m : Word} : ratValue m < 1 / 2 ↔ value m < value cHalf := by
  rw [ratValue, div_lt_iff₀ (by positivity), show value cHalf = 2 ^ 148 by decide,
    show (1 / 2 * 2 ^ 149 : ℚ) = ((2 ^ 148 : ℤ) : ℚ) by norm_num, Int.cast_lt]

/-- Settles O49: a NaN is not below 0.5. -/
theorem modeSelectsByRoundingAwayFromZero : Obligations.ModeSelectsByRoundingAwayFromZero := by
  intro m
  rw [modeSel_eq_sine, ratValue_lt_half_iff]
  cases hn : isNaN m with
  | true => simp [flt_nan_left hn]
  | false => simp [flt_iff hn (show isNaN cHalf = false by decide)]

end Sys2Proof.Machine
end

section
/-! Where a NaN can be (40_numerics.md R94): in no register and no table entry of a safe state. -/

namespace Sys2Proof.Machine

theorem isNaN_of_lt_inf {w : Word} (h : w.toNat < infBits) : isNaN w = false := isNaN_of_isFinite (isFinite_of_lt h)

theorem freqInRange_lt {w : Word} (h : freqInRange w) : w.toNat < infBits := (freqInRange_iff.1 h).2

theorem rateInRange_lt {w : Word} (h : rateInRange w) : w.toNat < infBits := (rateInRange_iff.1 h).2

/-- No range of a number register contains a NaN (10_state.md R22 to R30). -/
theorem RegistersInRange.reg_not_nan {s : State} (h : RegistersInRange s) {r : NumReg} {w : Word}
    (hw : s.reg r = .value w) : isNaN w = false := by
  cases r with
  | phase => exact isNaN_of_lt_inf (phaseInRange_lt (h.phase w hw))
  | pinc => exact isNaN_of_lt_inf (incInRange_lt (h.pinc w hw))
  | gdb => exact h.gdb w hw
  | gcur => exact isNaN_of_lt_inf (coefInRange_lt (h.gcur w hw))
  | gtgt => exact isNaN_of_lt_inf (coefInRange_lt (h.gtgt w hw))
  | ftgt => exact isNaN_of_lt_inf (freqInRange_lt (h.ftgt w hw))
  | flast => exact isNaN_of_lt_inf (freqInRange_lt (h.flast w hw))
  | fact => exact isNaN_of_lt_inf (freqInRange_lt (h.fact w hw))
  | srate => exact isNaN_of_lt_inf (rateInRange_lt (h.srate w hw))

/-- Every entry of built tables that holds a value holds one of −1 to 1 (20_memory.md R50). -/
theorem TablesBuilt.waveInRange_of_read {s : State} (h : TablesBuilt s) {sel : Wave} {i : Nat} {w : Word}
    (hw : s.mem.read sel i = .value w) : waveInRange w := by
  obtain ⟨len, -, hsine, hsquare, habove⟩ := h.built
  rcases Nat.lt_or_ge i len.toNat with hi | hi
  · cases sel with
    | sine =>
      cases (hsine i hi).symm.trans hw
      exact waveInRange_sinTab _ _
    | square =>
      cases (hsquare i hi).symm.trans hw
      exact waveInRange_squareEntry _
  · cases (habove sel i hi).symm.trans hw

theorem Invariant.entry_not_nan {s : State} (h : Invariant s) {sel : Wave} {i : Nat} {w : Word}
    (hw : s.mem.read sel i = .value w) : isNaN w = false := by
  by_cases hl : s.life = .unbuilt
  · obtain ⟨-, -, hmem⟩ := h.unbuilt hl
    rw [hmem, Memory.read_empty] at hw
    cases hw
  · exact isNaN_of_isFinite (isFinite_of_waveInRange ((h.built hl).waveInRange_of_read hw))

/-- Settles O57. -/
theorem noRegisterEverHoldsANaN : Obligations.NoRegisterEverHoldsANaN :=
  fun _ hs => ⟨fun _ _ => hs.ranges.reg_not_nan, fun _ _ _ => hs.entry_not_nan⟩

end Sys2Proof.Machine
end

section
/-! Which NaN is drawn reaches an output word that is a NaN and nothing else (40_numerics.md R94, 70_reset_and_hazards.md R219): every
operation whose result enters the state has operands that give no NaN, and the last product of a sample goes to `OUT` alone. -/

namespace Sys2Proof.Machine

/-! ### Operations on finite operands do not depend on the draw -/

section Finite

variable {a b : Word} (ha : isFinite a = true) (hb : isFinite b = true) (nan nan' : Word)
include ha hb

theorem fadd_draw_of_finite : fadd nan a b = fadd nan' a b := by
  rw [fadd_of_finite nan ha hb, fadd_of_finite nan' ha hb]

theorem fsub_draw_of_finite : fsub nan a b = fsub nan' a b :=
  fadd_draw_of_finite ha (by rwa [isFinite_negate]) nan nan'

theorem fmul_draw_of_finite : fmul nan a b = fmul nan' a b := by
  rw [fmul_of_finite nan ha hb, fmul_of_finite nan' ha hb]

theorem fdiv_draw_of_finite (h : magBits b ≠ 0) : fdiv nan a b = fdiv nan' a b := by
  rw [fdiv_of_finite nan ha hb h, fdiv_of_finite nan' ha hb h]

end Finite

/-! ### The per-block update does not depend on the draws -/

/-- The gain that reaches the conversion is clamped, so its quotient by 20 is no NaN. -/
theorem g2l_clampDb_draw {g : Word} (h : isNaN g = false) (nan nan' : Word) :
    g2l nan (clampDb g) = g2l nan' (clampDb g) := g2l_draw (clampDb_finite h) nan nan'

theorem newGainTarget_draw {gdb : Word} (h : isNaN gdb = false) (nan nan' g gtgt : Word) :
    newGainTarget nan g gdb gtgt = newGainTarget nan' g gdb gtgt := by
  rw [newGainTarget, g2l_clampDb_draw (sanG_not_nan h) nan nan', newGainTarget]

theorem smooth_draw {c t : Word} (hc : c.toNat < infBits) (ht : t.toNat < infBits) (nan nan' : Nat → Word) :
    smooth nan c t = smooth nan' c t := by
  have hcf := isFinite_of_lt hc
  have htf := isFinite_of_lt ht
  have hd : isFinite (fsub (nan' 0) t c) = true := fsub_finite _ ht hc
  obtain ⟨hinc, -⟩ := smoothIncrement_between (nan' 0) (nan' 1) hcf htf hd
  rw [smooth, fsub_draw_of_finite htf hcf (nan 0) (nan' 0), fmul_draw_of_finite (by decide) hd (nan 1) (nan' 1),
    fadd_draw_of_finite hcf hinc (nan 2) (nan' 2), smooth]

theorem newInc_draw {fact sr : Word} (hf : freqInRange fact) (hr : rateInRange sr) (nan nan' : Word) (pinc : Held Word) :
    newInc nan fact sr pinc = newInc nan' fact sr pinc := by
  obtain ⟨hr0, hri⟩ := rateInRange_iff.1 hr
  have hne : magBits sr ≠ 0 := by
    rw [magBits_of_lt (hri.trans (by decide))]
    exact hr0.ne'
  rw [newInc, fdiv_draw_of_finite (isFinite_of_lt (freqInRange_lt hf)) (isFinite_of_lt hri) nan nan' hne, newInc]

/-! ### The mix factor does not depend on the draws -/

theorem waveInRange_of_coefInRange {w : Word} (h : coefInRange w) : waveInRange w := (Nat.mod_le _ _).trans h

theorem waveInRange_negate {w : Word} (h : waveInRange w) : waveInRange (negate w) := by
  rwa [waveInRange, magBits_negate]

/-- A word in [−1, 1] has at most the units of 1.0. -/
theorem magnitude_le_of_waveInRange {w : Word} (h : waveInRange w) : magnitude w ≤ 2 ^ 149 :=
  (patternMag_le.2 h).trans_eq patternMag_one

/-- A product with at most the units of 1.0 stays in [−1, 1]. -/
theorem waveInRange_fmul_of_le (nan : Word) {a b : Word} (ha : isFinite a = true) (hb : isFinite b = true)
    (h : magnitude a * magnitude b ≤ 2 ^ 149 * 2 ^ 149) : waveInRange (fmul nan a b) := by
  rw [waveInRange, fmul_of_finite nan ha hb, magBits_pack (roundMag_lt _ _)]
  exact roundMag_le_of_le (p := cOne.toNat) (by positivity) (by decide) (by rwa [patternMag_one])

/-- Half of one plus a word in [−1, 1], as the mix factor takes it of the coefficient and of its negative (44_nco_mixer.md R169). -/
def halfOnePlus (nan nan' w : Word) : Word := fmul nan' cHalf (fadd nan cOne w)

theorem mixFactor_eq (nan : Nat → Word) (coef w : Word) :
    mixFactor nan coef w =
      fadd (nan 5) (halfOnePlus (nan 0) (nan 1) coef) (fmul (nan 4) (halfOnePlus (nan 2) (nan 3) (negate coef)) w) := rfl

/-- One plus a word in [−1, 1] has at most the units of 2.0. -/
theorem magBits_onePlus_le (nan : Word) {w : Word} (h : waveInRange w) : magBits (fadd nan cOne w) ≤ 0x40000000 := by
  have htwo : patternMag 0x40000000 = 2 * 2 ^ 149 := by decide
  have hone : value cOne = 2 ^ 149 := by decide
  have hw := magnitude_le_of_waveInRange h
  rw [magBits_fadd nan (by decide) (isFinite_of_waveInRange h)]
  refine roundMag_le_of_le Nat.one_pos (by decide) ?_
  rw [← value_natAbs] at hw
  omega

theorem isFinite_onePlus (nan : Word) {w : Word} (h : waveInRange w) : isFinite (fadd nan cOne w) = true :=
  isFinite_iff.2 ((magBits_onePlus_le nan h).trans_lt (by decide))

theorem waveInRange_halfOnePlus (nan nan' : Word) {w : Word} (h : waveInRange w) :
    waveInRange (halfOnePlus nan nan' w) := by
  have hhalf : magnitude cHalf = 2 ^ 148 := by decide
  have hsum := (patternMag_le.2 (magBits_onePlus_le nan h)).trans_eq (show _ = 2 * 2 ^ 149 by decide)
  refine waveInRange_fmul_of_le nan' (by decide) (isFinite_onePlus nan h) ?_
  rw [hhalf]
  exact (Nat.mul_le_mul_left _ hsum).trans (by decide)

theorem halfOnePlus_draw {w : Word} (h : waveInRange w) (n₁ n₂ n₁' n₂' : Word) :
    halfOnePlus n₁ n₂ w = halfOnePlus n₁' n₂' w := by
  rw [halfOnePlus, fadd_draw_of_finite (by decide) (isFinite_of_waveInRange h) n₁ n₁',
    fmul_draw_of_finite (by decide) (isFinite_onePlus n₁' h) n₂ n₂', halfOnePlus]

theorem mixFactor_draw {coef w : Word} (hc : coefInRange coef) (hw : waveInRange w) (nan nan' : Nat → Word) :
    mixFactor nan coef w = mixFactor nan' coef w := by
  have hc := waveInRange_of_coefInRange hc
  have hn := waveInRange_negate hc
  have hplus := waveInRange_halfOnePlus (nan' 0) (nan' 1) hc
  have hminus := waveInRange_halfOnePlus (nan' 2) (nan' 3) hn
  have hprod : waveInRange (fmul (nan' 4) (halfOnePlus (nan' 2) (nan' 3) (negate coef)) w) :=
    waveInRange_fmul_of_le _ (isFinite_of_waveInRange hminus) (isFinite_of_waveInRange hw)
      (Nat.mul_le_mul (magnitude_le_of_waveInRange hminus) (magnitude_le_of_waveInRange hw))
  rw [mixFactor_eq, halfOnePlus_draw hc (nan 0) (nan 1) (nan' 0) (nan' 1),
    halfOnePlus_draw hn (nan 2) (nan 3) (nan' 2) (nan' 3),
    fmul_draw_of_finite (isFinite_of_waveInRange hminus) (isFinite_of_waveInRange hw) (nan 4) (nan' 4),
    fadd_draw_of_finite (isFinite_of_waveInRange hplus) (isFinite_of_waveInRange hprod) (nan 5) (nan' 5), mixFactor_eq]

/-! ### The output word depends on the draw only where it is a NaN -/

/-- A product is the NaN drawn or has nothing of it. -/
theorem fmul_sameOutput {nan nan' : Word} (hn : isNaN nan = true) (hn' : isNaN nan' = true) (a b : Word) :
    sameOutput (fmul nan a b) (fmul nan' a b) := by
  unfold fmul
  split_ifs
  · exact .inr ⟨hn, hn'⟩
  · exact .inr ⟨hn, hn'⟩
  · exact .inl rfl
  · exact .inl rfl

theorem mixSample_sameOutput {coef w : Word} (hc : coefInRange coef) (hw : waveInRange w) (x : Word) (k k' : Nat) :
    sameOutput (mixSample (drawsFrom k) coef w x) (mixSample (drawsFrom k') coef w x) := by
  rw [mixSample, mixSample, mixFactor_draw hc hw (drawsFrom k) (drawsFrom k')]
  exact fmul_sameOutput (drawsFrom_isNaN k 6) (drawsFrom_isNaN k' 6) x _

/-! ### States that agree up to the draws -/

theorem sameOutput_refl (w : Word) : sameOutput w w := .inl rfl

/-- The states that agree with `s` up to the draws are `s` with another counter and an `OUT` that agrees word for word. -/
theorem sameUpToDraws_iff {s s' : State} :
    sameUpToDraws s s' ↔ ∃ o k, s' = { s with out := o, nanDraws := k } ∧ List.Forall₂ sameOutput s.out o := by
  constructor
  · rintro ⟨hfields, hout⟩
    refine ⟨s'.out, s'.nanDraws, ?_, hout⟩
    exact congrArg (fun u : State => { u with out := s'.out, nanDraws := s'.nanDraws }) hfields.symm
  · rintro ⟨o, k, rfl, hout⟩
    exact ⟨rfl, hout⟩

theorem sameUpToDraws_withDraws (s : State) (k : Nat) : sameUpToDraws s { s with nanDraws := k } :=
  ⟨rfl, List.forall₂_same.2 fun w _ => sameOutput_refl w⟩

/-! ### Commands from such states -/

/-- What completes from `s` completes from a state that agrees with it, in a state that agrees with the one it leaves. -/
theorem answers_andThen_draws {r r' : Result} {k : State → Result} {t : State} (h : andThen r k = .next t)
    (hr : ∀ u, r = .next u → Answers r' (sameUpToDraws u))
    (hk : ∀ u u', r = .next u → k u = .next t → sameUpToDraws u u' → Answers (k u') (sameUpToDraws t)) :
    Answers (andThen r' k) (sameUpToDraws t) := by
  obtain ⟨u, hu, ht⟩ := andThen_eq_next h
  exact (hr u hu).andThen fun u' => hk u u' hu ht

theorem answers_ifLegal_draws {c : Bool} {s s' t : State} {r r' : Result} (h : ifLegal c s r = .next t)
    (hs : sameUpToDraws s s') (hr : c = true → r = .next t → Answers r' (sameUpToDraws t)) :
    Answers (ifLegal c s' r') (sameUpToDraws t) := by
  rcases ifLegal_eq_next h with ⟨rfl, hnext⟩ | ⟨rfl, rfl⟩
  · exact hr rfl hnext
  · obtain ⟨o, k, rfl, hout⟩ := sameUpToDraws_iff.1 hs
    exact answers_next ⟨rfl, hout⟩

theorem blockUpdate_draws {g f : Word} {s s' t : State} (hs : SafeActive s) (hss : sameUpToDraws s s')
    (h : blockUpdate g f s = .next t) : Answers (blockUpdate g f s') (sameUpToDraws t) := by
  obtain ⟨o, k, rfl, hout⟩ := sameUpToDraws_iff.1 hss
  obtain ⟨-, -, ⟨gdb, egdb, hgdb⟩, ⟨gcur, egcur, hgcur⟩, ⟨gtgt, egtgt, hgtgt⟩, ⟨ftgt, eftgt, hftgt⟩,
    ⟨flast, eflast, hflast⟩, ⟨fact, efact, hfact⟩⟩ := hs.datapathHeld
  obtain ⟨sr, esr, hsr⟩ := hs.tablesBuilt.rate
  rw [blockUpdate_value egdb egcur egtgt eftgt eflast efact esr] at h
  cases h
  rw [blockUpdate_value (s := { s with out := o, nanDraws := k }) egdb egcur egtgt eftgt eflast efact esr]
  have hgain := newGainTarget_draw hgdb (nanAt k) (nanAt s.nanDraws) g gtgt
  have hgt := coefInRange_newGainTarget (nanAt s.nanDraws) g gdb hgtgt
  have hft := freqInRange_newFreqTarget f hflast hftgt
  have hgs := smooth_draw (coefInRange_lt hgcur) (coefInRange_lt hgt) (drawsFrom (k + 1)) (drawsFrom (s.nanDraws + 1))
  have hfs := smooth_draw (freqInRange_lt hfact) (freqInRange_lt hft) (drawsFrom (k + 1 + 3))
    (drawsFrom (s.nanDraws + 1 + 3))
  have hinc := newInc_draw (freqInRange_smooth (drawsFrom (s.nanDraws + 1 + 3)) hfact hft) hsr
    (nanAt (k + 1 + 3 + 3)) (nanAt (s.nanDraws + 1 + 3 + 3)) s.pinc
  refine answers_next (sameUpToDraws_iff.2 ⟨o, k + 1 + 3 + 3 + 1, ?_, hout⟩)
  simp only [blockUpdateState, hgain, hgs, hfs, hinc]

theorem sampleStep_draws {x m : Word} {s s' t : State} (hs : SafeActive s) (hss : sameUpToDraws s s')
    (h : sampleStep x m s = .next t) : Answers (sampleStep x m s') (sameUpToDraws t) := by
  obtain ⟨o, k, rfl, hout⟩ := sameUpToDraws_iff.1 hss
  obtain ⟨phase, coef, pinc, w, next, len, idx, hp, hl, hi, hlt, hw, hc, hn, hf, rfl⟩ := sampleStep_eq_next h
  have hranges := hs.invariant.ranges
  have hphase : isFinite phase = true := isFinite_of_lt (phaseInRange_lt (hranges.phase phase hp))
  have hlen : isFinite (fromNat len.toNat) = true := isFinite_of_lt (fromNat_spec len.isLt.le).1
  rw [fmul_draw_of_finite hphase hlen _ (nanAt k)] at hi
  have hf' := frac_fadd_draw (nanAt_isNaN _) hf (nanAt (k + 1 + 7))
  refine ⟨_, sampleStep_value (s := { s with out := o, nanDraws := k }) hp hl hi hlt hw hc hn hf', rfl, ?_⟩
  exact List.rel_append hout (.cons (mixSample_sameOutput (hranges.gcur coef hc) (hs.tablesBuilt.waveInRange_of_read hw) x _ _) .nil)

theorem sampleSteps_draws {m : Word} {xs : List Word} {s s' t : State} (hs : SafeActive s) (hss : sameUpToDraws s s')
    (h : sampleSteps m xs s = .next t) : Answers (sampleSteps m xs s') (sameUpToDraws t) := by
  induction xs generalizing s s' with
  | nil =>
    cases h
    exact answers_next hss
  | cons x xs ih =>
    exact answers_andThen_draws h (fun _ => sampleStep_draws hs hss)
      fun _ _ hu ht huu => ih ((sampleStep_answers x m hs).of_eq_next hu) huu ht

theorem execConstruct_draws {len : Count} {sr : Word} {s s' t : State} (hss : sameUpToDraws s s')
    (h : execConstruct len sr s = .next t) : Answers (execConstruct len sr s') (sameUpToDraws t) := by
  obtain ⟨o, k, rfl, hout⟩ := sameUpToDraws_iff.1 hss
  refine answers_ifLegal_draws h hss fun _ ht => ?_
  split_ifs at ht ⊢
  · cases ht
    exact answers_next ⟨rfl, hout⟩
  · cases ht
    exact answers_next ⟨rfl, hout⟩

theorem execActivate_draws {g f : Word} {s s' t : State} (hss : sameUpToDraws s s')
    (h : execActivate g f s = .next t) : Answers (execActivate g f s') (sameUpToDraws t) := by
  obtain ⟨o, k, rfl, hout⟩ := sameUpToDraws_iff.1 hss
  refine answers_ifLegal_draws h hss fun _ ht => ?_
  cases ht
  dsimp only
  rw [g2l_clampDb_draw (sanG_not_nan (by decide)) (nanAt k) (nanAt s.nanDraws)]
  exact answers_next ⟨rfl, hout⟩

theorem execDeactivate_draws {s s' t : State} (hss : sameUpToDraws s s') (h : execDeactivate s = .next t) :
    Answers (execDeactivate s') (sameUpToDraws t) := by
  obtain ⟨o, k, rfl, hout⟩ := sameUpToDraws_iff.1 hss
  refine answers_ifLegal_draws h hss fun _ ht => ?_
  cases ht
  exact answers_next ⟨rfl, hout⟩

theorem execDestroy_draws {s s' t : State} (hss : sameUpToDraws s s') (h : execDestroy s = .next t) :
    Answers (execDestroy s') (sameUpToDraws t) := by
  obtain ⟨o, k, rfl, hout⟩ := sameUpToDraws_iff.1 hss
  refine answers_ifLegal_draws h hss fun _ ht => ?_
  cases ht
  exact answers_next ⟨rfl, hout⟩

/-- The lifecycle state is the same in states that agree up to the draws, so both runs pass the check or neither does. -/
theorem sameUpToDraws.life {s s' : State} (h : sameUpToDraws s s') : s'.life = s.life := by
  obtain ⟨o, k, rfl, -⟩ := sameUpToDraws_iff.1 h
  rfl

theorem execBeginBlock_draws {g f : Word} {s s' t : State} (hs : Invariant s) (hss : sameUpToDraws s s')
    (h : execBeginBlock g f s = .next t) : Answers (execBeginBlock g f s') (sameUpToDraws t) := by
  rw [execBeginBlock, hss.life]
  exact answers_ifLegal_draws h hss fun hl => blockUpdate_draws (.of_beq hs hl) hss

theorem execProcessSample_draws {x m : Word} {s s' t : State} (hs : Invariant s) (hss : sameUpToDraws s s')
    (h : execProcessSample x m s = .next t) : Answers (execProcessSample x m s') (sameUpToDraws t) := by
  rw [execProcessSample, hss.life]
  exact answers_ifLegal_draws h hss fun hl => sampleStep_draws (.of_beq hs hl) hss

theorem execProcessBlock_draws {g f m : Word} {xs : List Word} {s s' t : State} (hs : Invariant s)
    (hss : sameUpToDraws s s') (h : execProcessBlock g f m xs s = .next t) :
    Answers (execProcessBlock g f m xs s') (sameUpToDraws t) := by
  rw [execProcessBlock, hss.life]
  refine answers_ifLegal_draws h hss fun hl ht => ?_
  have hs := SafeActive.of_beq hs hl
  exact answers_andThen_draws ht (fun _ => blockUpdate_draws hs hss)
    fun _ _ hu hsteps huu => sampleSteps_draws ((blockUpdate_answers g f hs).of_eq_next hu) huu hsteps

/-- A command from two states that agree up to the draws leaves two that agree. -/
theorem exec_draws {i : Instr} {s s' t : State} (hs : Invariant s) (hss : sameUpToDraws s s') (h : exec i s = .next t) :
    Answers (exec i s') (sameUpToDraws t) := by
  cases i with
  | construct len sr => exact execConstruct_draws hss h
  | activate g f => exact execActivate_draws hss h
  | beginBlock g f => exact execBeginBlock_draws hs hss h
  | processSample x m => exact execProcessSample_draws hs hss h
  | processBlock g f m xs => exact execProcessBlock_draws hs hss h
  | deactivate => exact execDeactivate_draws hss h
  | destroy => exact execDestroy_draws hss h

/-- Settles O58, command by command. -/
theorem drawsReachOnlyNaNOutputs : Obligations.DrawsReachOnlyNaNOutputs :=
  fun s _ _ k hs h => exec_draws hs (sameUpToDraws_withDraws s k) h

end Sys2Proof.Machine
end

section
/-! CONSTRUCT and DESTROY (41_wavetable.md): what they leave, that between them no step writes the engine, the two tables with their
length and sample rate, and that a Square entry follows the Sine entry it stands beside. -/

namespace Sys2Proof.Machine

/-! ### CONSTRUCT -/

/-- Settles O17: outside `UNBUILT` the command is refused; with good operands it is one build, whose reads are known. -/
theorem constructBuildsBothTables : Obligations.ConstructBuildsBothTables := by
  refine fun s len sr => ⟨rfl, fun hl => exec_of_not_legal (by simpa using hl), fun hl h₁ hcap hfin hpos => ?_⟩
  have hrate : rateInRange sr := Bool.and_eq_true_iff.2 ⟨hfin, hpos⟩
  have hok : constructOk len sr = true := constructOk_iff.2 ⟨⟨h₁, hcap⟩, hrate⟩
  have hread := buildTables_read len.toNat len.toNat s.mem
  exact ⟨buildTables len.toNat len.toNat s.mem, (ifLegal_pos (by simpa using hl) s _).trans (if_pos hok),
    fun i hi => (hread .sine i).trans (if_pos hi), fun i hi => (hread .square i).trans (if_pos hi),
    fun sel i hi => (hread sel i).trans (if_neg (Nat.not_lt.2 hi))⟩

/-- A CONSTRUCT that takes the block from `UNBUILT` to `INACTIVE` raised no flag: it built. -/
theorem execConstruct_mem_of_built {len : Count} {sr : Word} {s t : State} (hs : s.life = .unbuilt)
    (ht : t.life = .inactive) (h : execConstruct len sr s = .next t) :
    t.mem = buildTables len.toNat len.toNat s.mem := by
  rcases execConstruct_eq_next h with ⟨hne, _⟩ | ⟨_, _, rfl⟩ | ⟨_, _, rfl⟩
  · exact absurd hs hne
  · cases hs.symm.trans ht
  · rfl

/-! ### DESTROY -/

/-- Settles O18: in `UNBUILT` the command is refused; elsewhere the state it answers is read field by field. -/
theorem destroyLeavesNoValue : Obligations.DestroyLeavesNoValue := by
  refine fun s => ⟨rfl, fun hl => exec_of_not_legal (by simpa using hl), fun hl => ?_⟩
  exact ⟨_, ifLegal_pos (by simpa using hl) s _, rfl, fun r => by cases r <;> rfl, rfl, Memory.read_empty, rfl,
    fun f => by cases f <;> rfl, rfl, rfl, rfl, rfl⟩

/-! ### Between CONSTRUCT and DESTROY -/

/-- The engine of `t` is that of `s`: the tables, `TLEN` and `SRATE` (41_wavetable.md R125). -/
def EngineKept (s t : State) : Prop := t.mem = s.mem ∧ t.tlen = s.tlen ∧ t.srate = s.srate

theorem EngineKept.trans {s t u : State} (h : EngineKept s t) (h' : EngineKept t u) : EngineKept s u := by
  obtain ⟨hm, ht, hr⟩ := h
  obtain ⟨hm', ht', hr'⟩ := h'
  exact ⟨hm'.trans hm, ht'.trans ht, hr'.trans hr⟩

theorem engineKept_raise (f : FaultFlag) (s : State) : EngineKept s (raise f s) := by
  cases f <;> exact ⟨rfl, rfl, rfl⟩

theorem blockUpdate_keeps_engine {g f : Word} {s t : State} (h : blockUpdate g f s = .next t) : EngineKept s t := by
  rw [blockUpdate_frame h]
  exact ⟨rfl, rfl, rfl⟩

theorem sampleStep_keeps_engine {x m : Word} {s t : State} (h : sampleStep x m s = .next t) : EngineKept s t := by
  obtain ⟨_, _, rfl⟩ := sampleStep_frame h
  exact ⟨rfl, rfl, rfl⟩

theorem sampleSteps_keeps_engine {m : Word} {xs : List Word} {s t : State} (h : sampleSteps m xs s = .next t) :
    EngineKept s t := by
  obtain ⟨_, _, _, _, rfl⟩ := sampleSteps_frame h
  exact ⟨rfl, rfl, rfl⟩

/-- Only CONSTRUCT, which is refused in a built block, and DESTROY, which leaves none, write the engine. -/
theorem exec_keeps_engine {i : Instr} {s t : State} (hs : s.life ≠ .unbuilt) (ht : t.life ≠ .unbuilt)
    (h : exec i s = .next t) : EngineKept s t := by
  cases i with
  | construct len sr =>
    rcases execConstruct_eq_next h with ⟨_, rfl⟩ | ⟨hu, _⟩ | ⟨hu, _⟩
    · exact engineKept_raise _ s
    · exact absurd hu hs
    · exact absurd hu hs
  | activate g f =>
    rcases execActivate_eq_next h with ⟨_, rfl⟩ | ⟨_, rfl⟩
    · exact engineKept_raise _ s
    · exact ⟨rfl, rfl, rfl⟩
  | beginBlock g f =>
    rcases execBeginBlock_eq_next h with ⟨_, rfl⟩ | ⟨_, hupdate⟩
    · exact engineKept_raise _ s
    · exact blockUpdate_keeps_engine hupdate
  | processSample x m =>
    rcases execProcessSample_eq_next h with ⟨_, rfl⟩ | ⟨_, hsample⟩
    · exact engineKept_raise _ s
    · exact sampleStep_keeps_engine hsample
  | processBlock g f m xs =>
    rcases execProcessBlock_eq_next h with ⟨_, rfl⟩ | ⟨_, _, hupdate, hsamples⟩
    · exact engineKept_raise _ s
    · exact (blockUpdate_keeps_engine hupdate).trans (sampleSteps_keeps_engine hsamples)
  | deactivate =>
    rcases execDeactivate_eq_next h with ⟨_, rfl⟩ | ⟨_, rfl⟩
    · exact engineKept_raise _ s
    · exact ⟨rfl, rfl, rfl⟩
  | destroy =>
    rcases execDestroy_eq_next h with ⟨hu, _⟩ | ⟨_, rfl⟩
    · exact absurd hu hs
    · exact absurd rfl ht

theorem step_keeps_engine {s t : State} (hs : s.life ≠ .unbuilt) (ht : t.life ≠ .unbuilt) (h : step s = .next t) :
    EngineKept s t := by
  rcases step_cases s with ⟨_, e⟩ | ⟨_, _, e⟩ | ⟨_, _, _, e⟩ | ⟨_, rest, _, _, _, e⟩ | ⟨i, rest, _, _, _, e⟩ <;>
    rw [e] at h
  · cases h; exact absurd rfl ht
  · cases h; exact ⟨rfl, rfl, rfl⟩
  · cases h; exact ⟨rfl, rfl, rfl⟩
  · cases h; exact engineKept_raise .illCmd { s with cmd := rest }
  · exact exec_keeps_engine (s := { s with cmd := rest }) hs ht h

/-- Settles O19: below the length a build overwrites what was there, and a step that starts and ends built keeps the engine. -/
theorem tablesAreAPureFunctionAndImmutable : Obligations.TablesAreAPureFunctionAndImmutable := by
  refine ⟨fun s s' t t' len sr sr' hs hs' h h' ht ht' sel i hi => ?_, fun _ _ h hs ht => step_keeps_engine hs ht h⟩
  rw [execConstruct_mem_of_built hs ht h, execConstruct_mem_of_built hs' ht' h', buildTables_read, buildTables_read,
    if_pos hi, if_pos hi]

/-! ### Square entries -/

theorem flt_cZero_iff {w : Word} (h : isNaN w = false) : flt cZero w = true ↔ 0 < ratValue w := by
  have hzero : value cZero = 0 := by decide
  rw [flt_iff (by decide) h, hzero, ratValue_pos_iff]

theorem squareEntry_eq_cOne_iff {w : Word} (h : isNaN w = false) : squareEntry w = cOne ↔ 0 < ratValue w := by
  have hne : cOne ≠ cMOne := by decide
  rw [squareEntry, hne.ite_eq_left_iff, flt_cZero_iff h]

/-- Settles O20: the tables are as built, and the Sine entry is no NaN, so its comparison with zero is that of the numbers. -/
theorem squareFollowsTheStoredSine : Obligations.SquareFollowsTheStoredSine := by
  intro s len i hs hbuilt hlen hi
  obtain ⟨len', hlen', hsine, hsquare, -⟩ := (hs.built hbuilt).built
  cases hlen.symm.trans hlen'
  have hnan : isNaN (sinTab i len.toNat) = false :=
    isNaN_of_isFinite (isFinite_of_waveInRange (waveInRange_sinTab i len.toNat))
  exact ⟨_, _, hsine i hi, hsquare i hi, squareEntry_cases _, squareEntry_eq_cOne_iff hnan⟩

end Sys2Proof.Machine
end

section
/-! The lifecycle (42_lifecycle.md): what a misplaced command does (R136, R141), the edges of `LIFE` (R135), what ACTIVATE leaves
and what the first commands after it find (R137, R139), and DEACTIVATE (R138). -/

namespace Sys2Proof.Machine

/-! ### Legal and refused commands -/

@[simp] theorem raise_life (f : FaultFlag) (s : State) : (raise f s).life = s.life := by cases f <;> rfl

/-- `LIFE` and `SEQ_ERR` of `t` are those of `s`, as after the work of every processing command (42_lifecycle.md R135, R141). -/
def LifecycleKept (s t : State) : Prop := t.life = s.life ∧ t.seqErr = s.seqErr

theorem LifecycleKept.trans {s t u : State} (h : LifecycleKept s t) (h' : LifecycleKept t u) : LifecycleKept s u :=
  ⟨h'.1.trans h.1, h'.2.trans h.2⟩

theorem blockUpdate_keeps_lifecycle {g f : Word} {s t : State} (h : blockUpdate g f s = .next t) : LifecycleKept s t := by
  rw [blockUpdate_frame h]
  exact ⟨rfl, rfl⟩

theorem sampleStep_keeps_lifecycle {x m : Word} {s t : State} (h : sampleStep x m s = .next t) : LifecycleKept s t := by
  obtain ⟨_, _, rfl⟩ := sampleStep_frame h
  exact ⟨rfl, rfl⟩

theorem sampleSteps_keeps_lifecycle {m : Word} {xs : List Word} {s t : State} (h : sampleSteps m xs s = .next t) :
    LifecycleKept s t := by
  obtain ⟨_, _, _, _, rfl⟩ := sampleSteps_frame h
  exact ⟨rfl, rfl⟩

/-- Only the lifecycle check writes `SEQ_ERR`: a legal command leaves it (60_exceptions.md R192). -/
theorem exec_keeps_seqErr_of_legal {i : Instr} {s t : State} (hl : legalIn i s.life = true) (h : exec i s = .next t) :
    t.seqErr = s.seqErr := by
  cases i with
  | construct len sr =>
    rcases execConstruct_eq_next h with ⟨hn, _⟩ | ⟨_, _, rfl⟩ | ⟨_, _, rfl⟩
    · exact absurd (by simpa using hl) hn
    · rfl
    · rfl
  | activate g f =>
    rcases execActivate_eq_next h with ⟨hu, _⟩ | ⟨_, rfl⟩
    · exact absurd hu (by simpa using hl)
    · rfl
  | beginBlock g f =>
    rcases execBeginBlock_eq_next h with ⟨hn, _⟩ | ⟨_, hupdate⟩
    · exact absurd (by simpa using hl) hn
    · exact (blockUpdate_keeps_lifecycle hupdate).2
  | processSample x m =>
    rcases execProcessSample_eq_next h with ⟨hn, _⟩ | ⟨_, hsample⟩
    · exact absurd (by simpa using hl) hn
    · exact (sampleStep_keeps_lifecycle hsample).2
  | processBlock g f m xs =>
    rcases execProcessBlock_eq_next h with ⟨hn, _⟩ | ⟨_, _, hupdate, hsamples⟩
    · exact absurd (by simpa using hl) hn
    · exact ((blockUpdate_keeps_lifecycle hupdate).trans (sampleSteps_keeps_lifecycle hsamples)).2
  | deactivate =>
    rcases execDeactivate_eq_next h with ⟨hn, _⟩ | ⟨_, rfl⟩
    · exact absurd (by simpa using hl) hn
    · rfl
  | destroy =>
    rcases execDestroy_eq_next h with ⟨hu, _⟩ | ⟨_, rfl⟩
    · exact absurd hu (by simpa using hl)
    · rfl

/-- Settles O11: the step executes the command with its packet consumed, and the command's own check decides. -/
theorem misplacedCommandOnlySetsSeqErr : Obligations.MisplacedCommandOnlySetsSeqErr := by
  intro s i rest hr hi hd
  rw [step_of_packet hr hi hd]
  exact ⟨fun hl => exec_of_not_legal (s := { s with cmd := rest }) hl,
    fun hl _ ht => exec_keeps_seqErr_of_legal (s := { s with cmd := rest }) hl ht⟩

/-! ### The edges of `LIFE` -/

theorem Life.eq_inactive {l : Life} (hu : l ≠ .unbuilt) (ha : l ≠ .active) : l = .inactive := by
  cases l with
  | unbuilt => exact absurd rfl hu
  | inactive => rfl
  | active => exact absurd rfl ha

/-- Settles O15: a refused command and a processing command leave `LIFE`; each other command has its one edge. -/
theorem lifeMovesOnlyAlongItsEdges : Obligations.LifeMovesOnlyAlongItsEdges := by
  intro s t i h hne
  cases i with
  | construct len sr =>
    rcases execConstruct_eq_next h with ⟨_, rfl⟩ | ⟨_, _, rfl⟩ | ⟨hu, _, rfl⟩
    · exact absurd (raise_life _ s) hne
    · exact absurd (raise_life _ s) hne
    · exact .inl ⟨hu, rfl, len, sr, rfl⟩
  | activate g f =>
    rcases execActivate_eq_next h with ⟨_, rfl⟩ | ⟨hu, rfl⟩
    · exact absurd (raise_life _ s) hne
    · exact .inr (.inl ⟨Life.eq_inactive hu hne.symm, rfl, g, f, rfl⟩)
  | beginBlock g f =>
    rcases execBeginBlock_eq_next h with ⟨_, rfl⟩ | ⟨_, hupdate⟩
    · exact absurd (raise_life _ s) hne
    · exact absurd (blockUpdate_keeps_lifecycle hupdate).1 hne
  | processSample x m =>
    rcases execProcessSample_eq_next h with ⟨_, rfl⟩ | ⟨_, hsample⟩
    · exact absurd (raise_life _ s) hne
    · exact absurd (sampleStep_keeps_lifecycle hsample).1 hne
  | processBlock g f m xs =>
    rcases execProcessBlock_eq_next h with ⟨_, rfl⟩ | ⟨_, _, hupdate, hsamples⟩
    · exact absurd (raise_life _ s) hne
    · exact absurd ((blockUpdate_keeps_lifecycle hupdate).trans (sampleSteps_keeps_lifecycle hsamples)).1 hne
  | deactivate =>
    rcases execDeactivate_eq_next h with ⟨_, rfl⟩ | ⟨ha, rfl⟩
    · exact absurd (raise_life _ s) hne
    · exact .inr (.inr (.inl ⟨ha, rfl, rfl⟩))
  | destroy =>
    rcases execDestroy_eq_next h with ⟨_, rfl⟩ | ⟨hu, rfl⟩
    · exact absurd (raise_life _ s) hne
    · exact .inr (.inr (.inr ⟨hu, rfl, rfl⟩))

/-! ### DEACTIVATE -/

/-- Settles O26: outside `ACTIVE` the command is refused; in it, it is one write. -/
theorem deactivateOnlyLeavesActive : Obligations.DeactivateOnlyLeavesActive :=
  fun s => ⟨rfl, fun hl => exec_of_not_legal (by simpa using hl), fun hl => ifLegal_pos (by simpa using hl) s _⟩

/-! ### The operands of ACTIVATE -/

/-- With `FREQ_MIN` as its fallback the sanitiser keeps what is finite and not below `FREQ_MIN`, and gives `FREQ_MIN` for all else. -/
theorem sanF_freqMin (f : Word) : sanF f freqMin = if isFinite f && fle freqMin f then f else freqMin := by
  cases hf : isFinite f with
  | false => exact sanF_not_finite hf freqMin
  | true =>
    have hn := isNaN_of_isFinite hf
    rw [sanF_finite hf, Bool.true_and]
    by_cases hlt : flt f freqMin = true
    · rw [if_pos hlt, if_neg]
      rw [flt_iff hn freqMin_not_nan] at hlt
      rw [fle_iff freqMin_not_nan hn]
      exact not_le.2 hlt
    · rw [if_neg hlt, if_pos]
      rw [flt_iff hn freqMin_not_nan, not_lt] at hlt
      exact (fle_iff freqMin_not_nan hn).2 hlt

theorem sanF_freqMin_of_bad {f : Word} (h : isFinite f = false ∨ flt f freqMin = true) : sanF f freqMin = freqMin := by
  rcases h with h | h
  · exact sanF_not_finite h freqMin
  · simp [sanF, h]

/-- A frequency sanitised once falls back on nothing new. -/
theorem sanF_sanF (f fb : Word) : sanF f (sanF f fb) = sanF f fb := by
  cases hf : isFinite f with
  | false => rw [sanF_not_finite hf, sanF_not_finite hf]
  | true => rw [sanF_finite hf, sanF_finite hf]

theorem sanG_sanG (g fb : Word) : sanG g (sanG g fb) = sanG g fb := by
  cases hg : isNaN g with
  | true => rw [sanG_nan hg, sanG_nan hg]
  | false => rw [sanG_of_not_nan hg, sanG_of_not_nan hg]

theorem not_nan_of_fle_right {a b : Word} (h : fle a b = true) : isNaN b = false := by
  cases hn : isNaN b with
  | false => rfl
  | true => simp [fle, hn] at h

/-- A zero of either sign converts to 1.0 (40_numerics.md R102). -/
theorem g2l_of_zero (nan : Word) {db : Word} (hz : magBits db = 0) : g2l nan db = cOne := by
  have hn := not_isNaN_of_zero hz
  have hv := value_eq_zero.2 hz
  have hmin : fle cDbMin db = true := by rw [fle_iff isNaN_cDbMin hn, hv, value_cDbMin]; decide
  have hmax : fle db cDbMax = true := by rw [fle_iff hn isNaN_cDbMax, hv, value_cDbMax]
  obtain ⟨-, -, -, hone⟩ := gainConversionStaysInUnitRange db nan hmin hmax
  exact hone hz

/-- A gain at or above zero is clamped to a zero. -/
theorem magBits_clampDb_of_nonneg {g : Word} (h : fle cDbMax g = true) : magBits (clampDb g) = 0 := by
  have hn := not_nan_of_fle_right h
  by_cases hhigh : flt cDbMax g = true
  · rw [clampDb_high hn hhigh]; decide
  · rw [fle_iff isNaN_cDbMax hn, value_cDbMax] at h
    rw [flt_iff isNaN_cDbMax hn, value_cDbMax] at hhigh
    have hmin : fle cDbMin g = true := by rw [fle_iff isNaN_cDbMin hn, value_cDbMin]; omega
    have hmax : fle g cDbMax = true := by rw [fle_iff hn isNaN_cDbMax, value_cDbMax]; omega
    rw [clampDb_between hn hmin hmax]
    exact value_eq_zero.1 (by omega)

/-- A gain at or below −120 is clamped to what is not above −120, and converts to +0.0. -/
theorem g2l_clampDb_of_le_min (nan : Word) {g : Word} (h : fle g cDbMin = true) : g2l nan (clampDb g) = cZero := by
  have hn := not_nan_of_fle_left h
  refine if_neg ?_
  by_cases hlow : flt g cDbMin = true
  · rw [clampDb_low hlow]; decide
  · rw [fle_iff hn isNaN_cDbMin, value_cDbMin] at h
    rw [flt_iff hn isNaN_cDbMin, value_cDbMin] at hlow
    have hmin : fle cDbMin g = true := by rw [fle_iff isNaN_cDbMin hn, value_cDbMin]; omega
    have hmax : fle g cDbMax = true := by rw [fle_iff hn isNaN_cDbMax, value_cDbMax]; omega
    rw [clampDb_between hn hmin hmax, flt_iff isNaN_cDbMin hn, value_cDbMin]
    omega

/-! ### ACTIVATE -/

/-- The state that ACTIVATE leaves where it is legal (42_lifecycle.md R137). -/
def activatedState (nan g f : Word) (s : State) : State :=
  { s with
    phase := .value cZero
    pinc := .value cZero
    gdb := .value (sanG g cZero)
    gcur := .value (g2l nan (clampDb (sanG g cZero)))
    gtgt := .value (g2l nan (clampDb (sanG g cZero)))
    fact := .value (sanF f freqMin)
    ftgt := .value (sanF f freqMin)
    flast := .value (sanF f freqMin)
    modeSel := .sine
    life := .active
    nanDraws := s.nanDraws + 1 }

/-- The one conversion of ACTIVATE has a clamped operand, so the state it leaves is the same whichever NaN would be drawn. -/
theorem exec_activate_of_built {s : State} (hl : s.life ≠ .unbuilt) (nan g f : Word) :
    exec (.activate g f) s = .next (activatedState nan g f s) := by
  have hg : isNaN (sanG g cZero) = false := sanG_not_nan (by decide)
  rw [activatedState, g2l_clampDb_draw hg nan (nanAt s.nanDraws)]
  exact ifLegal_pos (by simpa using hl) s _

theorem eq_activatedState {s t : State} {g f : Word} (hl : s.life ≠ .unbuilt) (h : exec (.activate g f) s = .next t)
    (nan : Word) : t = activatedState nan g f s := by
  rw [exec_activate_of_built hl nan] at h
  injection h with h
  exact h.symm

/-- Settles O22: in `UNBUILT` the command is refused; elsewhere it leaves `activatedState`. -/
theorem activateResetsOscillatorAndSmoothers : Obligations.ActivateResetsOscillatorAndSmoothers := by
  refine fun s g f nan => ⟨rfl, fun hl => exec_of_not_legal (by simpa using hl), fun hl => ⟨s.nanDraws + 1, ?_⟩⟩
  rw [exec_activate_of_built hl nan, activatedState, sanF_freqMin]
  rfl

/-- Settles O23: one drawn NaN serves both runs, and of the registers only `SRATE` is read from the old state. -/
theorem activateForgetsTheHistory : Obligations.ActivateForgetsTheHistory := by
  refine fun s s' g f hl hl' => ⟨_, _, exec_activate_of_built hl (nanAt 0) g f,
    exec_activate_of_built hl' (nanAt 0) g f, ?_, rfl, rfl⟩
  intro r hr
  cases r with
  | srate => exact absurd rfl hr
  | _ => rfl

/-- Settles O24: the gain that ACTIVATE stores, and where its clamp lies, in each case. -/
theorem activateCornerOperands : Obligations.ActivateCornerOperands := by
  intro s t g f hl h
  obtain rfl := eq_activatedState hl h (nanAt 0)
  have hstored {g₁ c : Word} (hg : sanG g cZero = g₁) (hc : g2l (nanAt 0) (clampDb g₁) = c) :
      (activatedState (nanAt 0) g f s).gdb = .value g₁ ∧ (activatedState (nanAt 0) g f s).gcur = .value c := by
    subst hg hc
    exact ⟨rfl, rfl⟩
  refine ⟨fun hg => ?_, fun hg => ?_, fun hg => ?_, rfl, fun hf => ?_⟩
  · exact hstored (sanG_nan hg cZero) (g2l_of_zero _ (by decide))
  · exact hstored (sanG_of_not_nan (not_nan_of_fle_right hg) cZero) (g2l_of_zero _ (magBits_clampDb_of_nonneg hg))
  · exact hstored (sanG_of_not_nan (not_nan_of_fle_left hg) cZero) (g2l_clampDb_of_le_min _ hg)
  · have hmin : Held.value (sanF f freqMin) = .value freqMin := congrArg _ (sanF_freqMin_of_bad hf)
    exact ⟨hmin, hmin, hmin⟩

/-! ### The first commands after ACTIVATE -/

theorem activatedState_safe {s : State} (hs : Invariant s) (hl : s.life ≠ .unbuilt) (nan g f : Word) :
    SafeActive (activatedState nan g f s) :=
  ⟨(execActivate_answers g f hs).of_eq_next (exec_activate_of_built hl nan g f), rfl⟩

/-- A word that is no NaN does not differ from itself. -/
theorem differs_self {w : Word} (h : isNaN w = false) : differs w w = false := by simp [differs, fne, feq, h]

/-- A finite word with sign bit 0 that is its own target stays bit for bit (40_numerics.md R110). -/
theorem smooth_self (nan : Nat → Word) {w : Word} (h : w.toNat < infBits) : smooth nan w w = w :=
  smooth_on_target (isFinite_of_lt h) (fsub_finite _ h h) (signBit_of_lt (h.trans (by decide)))

/-- An operand that is already stored is no new gain, so the target stays (43_smoother.md R151). -/
theorem newGainTarget_of_stored (nan g fb gtgt : Word) (hfb : isNaN fb = false) :
    newGainTarget nan g (sanG g fb) gtgt = gtgt := by
  rw [newGainTarget, sanG_sanG, differs_self (sanG_not_nan hfb)]
  rfl

/-- An operand that is already stored is no new frequency, so the target stays (43_smoother.md R152). -/
theorem newFreqTarget_of_stored (f ftgt : Word) {fb : Word} (hfb : freqInRange fb) :
    newFreqTarget f (sanF f fb) ftgt = ftgt := by
  rw [newFreqTarget, sanF_sanF, differs_self (isNaN_of_isFinite (freqInRange_sanF f hfb).1)]
  rfl

/-- BEGIN_BLOCK with the operands of the ACTIVATE before it finds both smoothers on their targets. -/
theorem blockUpdate_after_activate {s : State} (hs : Invariant s) (hl : s.life ≠ .unbuilt) (nan g f : Word) :
    Answers (blockUpdate g f (activatedState nan g f s)) fun u =>
      u.gtgt = (activatedState nan g f s).gtgt ∧ u.ftgt = (activatedState nan g f s).ftgt ∧
        u.gcur = (activatedState nan g f s).gcur ∧ u.fact = (activatedState nan g f s).fact := by
  obtain ⟨sr, hsr, -⟩ := (hs.built hl).rate
  have hfreq : freqInRange (sanF f freqMin) := freqInRange_sanF f freqInRange_freqMin
  rw [blockUpdate_value (s := activatedState nan g f s) rfl rfl rfl rfl rfl rfl hsr]
  refine answers_next ?_
  simp only [blockUpdateState, newGainTarget_of_stored _ g cZero _ (by decide), newFreqTarget_of_stored f _ freqInRange_freqMin,
    smooth_self _ (coefInRange_lt (coefInRange_g2l _ _)), smooth_self _ (freqInRange_lt hfreq)]
  exact ⟨rfl, rfl, rfl, rfl⟩

theorem fmul_cZero (nan : Word) {b : Word} (hb : b.toNat < infBits) : fmul nan cZero b = cZero := by
  rw [fmul_nonneg nan (by decide) hb, show patternMag cZero.toNat = 0 by decide, Nat.zero_mul, roundMag_zero]
  rfl

theorem toIndex_fmul_cZero (nan : Word) (len : Count) : toIndex (fmul nan cZero (fromNat len.toNat)) = some 0 := by
  rw [fmul_cZero nan (fromNat_spec len.isLt.le).1]
  decide

theorem frac_fadd_cZero (nan : Word) : frac (fadd nan cZero cZero) = some cZero := by
  rw [fadd_zero nan (by decide) (by decide) (.inl (by decide))]
  decide

/-- A sample at phase +0.0 with increment +0.0 reads entry 0 and leaves the phase (44_nco_mixer.md R165). -/
theorem sampleStep_at_zero {s : State} (h : SafeActive s) (hp : s.phase = .value cZero) (hi : s.pinc = .value cZero)
    (x m : Word) : ∃ coef w, s.gcur = .value coef ∧ s.mem.read (modeSel m) 0 = .value w ∧
      sampleStep x m s = .next (sampleState x m coef w cZero s) := by
  obtain ⟨coef, hcoef, -⟩ := h.datapathHeld.gcur
  obtain ⟨len, hlen, -⟩ := h.tablesBuilt.built
  have hpos : 0 < len.toNat := (h.invariant.ranges.tlen len hlen).1
  obtain ⟨w, hw⟩ := h.tablesBuilt.read hlen (modeSel m) hpos
  exact ⟨coef, w, hcoef, hw, sampleStep_value hp hlen (toIndex_fmul_cZero _ len) hpos hw hcoef hi (frac_fadd_cZero _)⟩

/-- The mix of operands in range depends on the NaNs drawn only where it is one (44_nco_mixer.md R169). -/
theorem mixSample_sameOutput_of_nan {nan nan' : Nat → Word} (hn : ∀ j, isNaN (nan j) = true) (hn' : ∀ j, isNaN (nan' j) = true)
    {coef w : Word} (hc : coefInRange coef) (hw : waveInRange w) (x : Word) :
    sameOutput (mixSample nan coef w x) (mixSample nan' coef w x) := by
  rw [mixSample, mixSample, mixFactor_draw hc hw nan nan']
  exact fmul_sameOutput (hn 6) (hn' 6) x _

/-- Settles O25: ACTIVATE leaves a safe active block on its targets, with the phase and its increment +0.0. -/
theorem firstCommandsAfterActivate : Obligations.FirstCommandsAfterActivate := by
  intro s t g f hs hl h
  obtain rfl := eq_activatedState hl h (nanAt 0)
  have hsafe := activatedState_safe hs hl (nanAt 0) g f
  refine ⟨blockUpdate_after_activate hs hl (nanAt 0) g f, fun x m => ?_⟩
  obtain ⟨coef, w, hcoef, hw, hstep⟩ := sampleStep_at_zero hsafe rfl rfl x m
  refine ⟨_, w, _, hstep, hw, rfl, rfl, fun nan hnan c hc => ?_⟩
  cases hcoef.symm.trans hc
  exact mixSample_sameOutput_of_nan (drawsFrom_isNaN _) hnan (hsafe.invariant.ranges.gcur coef hcoef)
    (hsafe.tablesBuilt.waveInRange_of_read hw) x

end Sys2Proof.Machine
end

section
/-! The per-block update and BEGIN_BLOCK (43_smoother.md): the targets it latches (R151, R152, R157), the steps it takes toward them
(R153, R156), and the command in one equation (R150). -/

namespace Sys2Proof.Machine

/-! ### An operand that does not differ from the stored one -/

theorem signBit_eq_of_value_ne_zero {w : Word} (h : value w ≠ 0) : signBit w = decide (value w < 0) := by
  cases hs : signBit w with
  | false =>
    rw [value_nonneg_of_sign hs]
    exact (decide_eq_false (by omega)).symm
  | true =>
    rw [value_neg_of_sign hs] at h ⊢
    exact (decide_eq_true (by omega)).symm

/-- A number other than zero has one word (40_numerics.md R90). -/
theorem eq_of_value_eq {a b : Word} (h : value a = value b) (h0 : value b ≠ 0) : a = b := by
  apply word_ext_magnitude
  · rw [signBit_eq_of_value_ne_zero (h ▸ h0), signBit_eq_of_value_ne_zero h0, h]
  · rw [← value_natAbs, ← value_natAbs, h]

theorem not_differs_iff {a b : Word} (ha : isNaN a = false) (hb : isNaN b = false) :
    differs a b = false ↔ value a = value b := by
  rw [differs, ← Bool.not_eq_true, fne_iff ha hb, not_not]

theorem g2l_clampDb_of_zero (nan : Word) {g : Word} (h : value g = 0) : g2l nan (clampDb g) = cOne := by
  have hn := not_isNaN_of_zero (value_eq_zero.1 h)
  exact g2l_of_zero nan (magBits_clampDb_of_nonneg (by rw [fle_iff isNaN_cDbMax hn, h, value_cDbMax]))

/-- Gains that do not differ have one coefficient: only the two zeros are distinct words, and both convert to 1.0. -/
theorem g2l_clampDb_of_not_differs (nan : Word) {a b : Word} (ha : isNaN a = false) (hb : isNaN b = false)
    (h : differs a b = false) : g2l nan (clampDb a) = g2l nan (clampDb b) := by
  rw [not_differs_iff ha hb] at h
  by_cases h0 : value b = 0
  · rw [g2l_clampDb_of_zero nan h0, g2l_clampDb_of_zero nan (h.trans h0)]
  · rw [eq_of_value_eq h h0]

/-- Frequencies that do not differ are the same word: they are above zero. -/
theorem eq_of_not_differs {a b : Word} (ha : freqInRange a) (hb : freqInRange b) (h : differs a b = false) : a = b := by
  obtain ⟨hmin, hlt⟩ := freqInRange_iff.1 hb
  rw [not_differs_iff (isNaN_of_isFinite ha.1) (isNaN_of_isFinite hb.1)] at h
  refine eq_of_value_eq h fun h0 => ?_
  have hz : magBits b = 0 := value_eq_zero.1 h0
  rw [magBits_of_lt (hlt.trans (by decide))] at hz
  have := freqMin_range.1
  omega

/-! ### The targets as an unconditional latch would write them -/

/-- Where the stored target is the conversion of the stored gain, the new one is that of the new gain (43_smoother.md R157). -/
theorem newGainTarget_of_follows {gdb gtgt : Word} (hg : isNaN gdb = false) (h : ∀ nan, g2l nan (clampDb gdb) = gtgt)
    (nan nan' g : Word) : newGainTarget nan g gdb gtgt = g2l nan' (clampDb (sanG g gdb)) := by
  have hs : isNaN (sanG g gdb) = false := sanG_not_nan hg
  cases hd : differs (sanG g gdb) gdb with
  | true => rw [newGainTarget, if_pos hd, g2l_clampDb_draw hs nan nan']
  | false => rw [newGainTarget, if_neg (ne_true_of_eq_false hd), g2l_clampDb_of_not_differs nan' hs hg hd, h]

/-- Where the stored target is the stored frequency, the new one is the new frequency (43_smoother.md R157). -/
theorem newFreqTarget_of_follows {flast : Word} (hf : freqInRange flast) (f : Word) :
    newFreqTarget f flast flast = sanF f flast := by
  cases hd : differs (sanF f flast) flast with
  | true => exact if_pos hd
  | false => rw [newFreqTarget, if_neg (ne_true_of_eq_false hd), eq_of_not_differs (freqInRange_sanF f hf) hf hd]

/-! ### Keeping the relations -/

theorem TargetsFollow.congr {s t : State} (h : TargetsFollow s) (hgdb : t.gdb = s.gdb) (hgtgt : t.gtgt = s.gtgt)
    (hftgt : t.ftgt = s.ftgt) (hflast : t.flast = s.flast) : TargetsFollow t :=
  ⟨fun g c eg ec => h.gain g c (hgdb.symm.trans eg) (hgtgt.symm.trans ec), hftgt.trans (h.freq.trans hflast.symm)⟩

/-- A state without a gain has no gain target to speak of. -/
theorem TargetsFollow.of_noValue {t : State} (hgdb : t.gdb = .noValue) (hfreq : t.ftgt = t.flast) : TargetsFollow t :=
  ⟨fun _ _ eg => (nomatch hgdb.symm.trans eg), hfreq⟩

theorem TargetsFollow.of_latched {t : State} {g : Word} (hgdb : t.gdb = .value g)
    (hgtgt : ∀ nan, t.gtgt = .value (g2l nan (clampDb g))) (hfreq : t.ftgt = t.flast) : TargetsFollow t := by
  refine ⟨fun g' c eg ec nan => ?_, hfreq⟩
  cases hgdb.symm.trans eg
  cases (hgtgt nan).symm.trans ec
  rfl

theorem TargetsFollow.raise {s : State} (h : TargetsFollow s) (f : FaultFlag) : TargetsFollow (raise f s) :=
  h.congr (raise_reg f s .gdb) (raise_reg f s .gtgt) (raise_reg f s .ftgt) (raise_reg f s .flast)

/-- What a per-block update stores and latches where the targets followed: the sanitised operands, whether or not they changed. -/
structure Latched (g f gdb flast : Word) (t : State) : Prop where
  storedGain : t.gdb = .value (sanG g gdb)
  gainTarget : ∀ nan, t.gtgt = .value (g2l nan (clampDb (sanG g gdb)))
  storedFreq : t.flast = .value (sanF f flast)
  freqTarget : t.ftgt = .value (sanF f flast)

theorem Latched.targetsFollow {g f gdb flast : Word} {t : State} (h : Latched g f gdb flast t) : TargetsFollow t :=
  .of_latched h.storedGain h.gainTarget (h.freqTarget.trans h.storedFreq.symm)

theorem blockUpdate_latches {g f gdb flast : Word} {s t : State} (hs : SafeActive s) (hf : TargetsFollow s)
    (hgdb : s.gdb = .value gdb) (hflast : s.flast = .value flast) (h : blockUpdate g f s = .next t) :
    Latched g f gdb flast t := by
  have hd := hs.datapathHeld
  obtain ⟨gcur, egcur, -⟩ := hd.gcur
  obtain ⟨gtgt, egtgt, -⟩ := hd.gtgt
  obtain ⟨fact, efact, -⟩ := hd.fact
  obtain ⟨sr, esr, -⟩ := hs.tablesBuilt.rate
  rw [blockUpdate_value hgdb egcur egtgt (hf.freq.trans hflast) hflast efact esr] at h
  cases h
  have hranges := hs.invariant.ranges
  exact
    { storedGain := rfl
      gainTarget := fun nan => congrArg Held.value
        (newGainTarget_of_follows (hranges.gdb gdb hgdb) (hf.gain gdb gtgt hgdb egtgt) _ nan g)
      storedFreq := rfl
      freqTarget := congrArg Held.value (newFreqTarget_of_follows (hranges.flast flast hflast) f) }

theorem blockUpdate_keeps_targets {g f : Word} {s t : State} (hs : SafeActive s) (hf : TargetsFollow s)
    (h : blockUpdate g f s = .next t) : TargetsFollow t := by
  obtain ⟨gdb, hgdb, -⟩ := hs.datapathHeld.gdb
  obtain ⟨flast, hflast, -⟩ := hs.datapathHeld.flast
  exact (blockUpdate_latches hs hf hgdb hflast h).targetsFollow

theorem sampleStep_keeps_targets {x m : Word} {s t : State} (hf : TargetsFollow s) (h : sampleStep x m s = .next t) :
    TargetsFollow t := by
  obtain ⟨_, _, rfl⟩ := sampleStep_frame h
  exact hf.congr rfl rfl rfl rfl

theorem sampleSteps_keeps_targets {m : Word} {xs : List Word} {s t : State} (hf : TargetsFollow s)
    (h : sampleSteps m xs s = .next t) : TargetsFollow t := by
  obtain ⟨_, _, _, _, rfl⟩ := sampleSteps_frame h
  exact hf.congr rfl rfl rfl rfl

/-- ACTIVATE and the per-block update write the targets with their operands, DESTROY takes both away, and no other command writes any
of the four registers (43_smoother.md R157). -/
theorem exec_keeps_targets {i : Instr} {s t : State} (hs : Invariant s) (hf : TargetsFollow s) (h : exec i s = .next t) :
    TargetsFollow t := by
  cases i with
  | construct len sr =>
    rcases execConstruct_eq_next h with ⟨_, rfl⟩ | ⟨_, _, rfl⟩ | ⟨_, _, rfl⟩
    · exact hf.raise _
    · exact hf.raise _
    · exact hf.congr rfl rfl rfl rfl
  | activate g f =>
    rcases execActivate_eq_next h with ⟨_, rfl⟩ | ⟨_, rfl⟩
    · exact hf.raise _
    · exact .of_latched rfl (fun nan => congrArg Held.value (g2l_clampDb_draw (sanG_not_nan (by decide)) _ nan)) rfl
  | beginBlock g f =>
    rcases execBeginBlock_eq_next h with ⟨_, rfl⟩ | ⟨hl, hupdate⟩
    · exact hf.raise _
    · exact blockUpdate_keeps_targets ⟨hs, hl⟩ hf hupdate
  | processSample x m =>
    rcases execProcessSample_eq_next h with ⟨_, rfl⟩ | ⟨_, hsample⟩
    · exact hf.raise _
    · exact sampleStep_keeps_targets hf hsample
  | processBlock g f m xs =>
    rcases execProcessBlock_eq_next h with ⟨_, rfl⟩ | ⟨hl, _, hupdate, hsamples⟩
    · exact hf.raise _
    · exact sampleSteps_keeps_targets (blockUpdate_keeps_targets ⟨hs, hl⟩ hf hupdate) hsamples
  | deactivate =>
    rcases execDeactivate_eq_next h with ⟨_, rfl⟩ | ⟨_, rfl⟩
    · exact hf.raise _
    · exact hf.congr rfl rfl rfl rfl
  | destroy =>
    rcases execDestroy_eq_next h with ⟨_, rfl⟩ | ⟨_, rfl⟩
    · exact hf.raise _
    · exact .of_noValue rfl rfl

theorem step_keeps_targets {s t : State} (hs : Invariant s) (hf : TargetsFollow s) (h : step s = .next t) :
    TargetsFollow t := by
  have hcmd (rest : List Word) : TargetsFollow { s with cmd := rest } := hf.congr rfl rfl rfl rfl
  rcases step_cases s with ⟨_, e⟩ | ⟨_, _, e⟩ | ⟨_, _, _, e⟩ | ⟨_, rest, _, _, _, e⟩ | ⟨i, rest, _, _, _, e⟩ <;>
    rw [e] at h
  · cases h; exact .of_noValue rfl rfl
  · cases h; exact hf
  · cases h; exact hf
  · cases h; exact (hcmd rest).raise _
  · exact exec_keeps_targets (hs.withCmd rest) (hcmd rest) h

/-- BEGIN_BLOCK in `ACTIVE` is the per-block update (43_smoother.md R150). -/
theorem exec_beginBlock_of_active {s : State} (hl : s.life = .active) (g f : Word) :
    exec (.beginBlock g f) s = blockUpdate g f s := ifLegal_pos (by simpa using hl) s _

/-- Settles O28: the relations through every step, and what the latch of an active block writes. -/
theorem targetsFollowTheStoredOperands : Obligations.TargetsFollowTheStoredOperands := by
  refine ⟨fun _ _ => step_keeps_targets, fun s t g f gdb flast nan hs hf hl hgdb hflast h => ?_⟩
  rw [exec_beginBlock_of_active hl] at h
  have hlatched := blockUpdate_latches ⟨hs, hl⟩ hf hgdb hflast h
  exact ⟨hlatched.gainTarget nan, hlatched.freqTarget⟩

/-! ### BEGIN_BLOCK in one equation -/

/-- Settles O27: the update's own equation, in which no operation's result depends on the NaN it would draw. -/
theorem beginBlockTakesItsFourSteps : Obligations.BeginBlockTakesItsFourSteps := by
  refine fun s g f => ⟨rfl, fun hl => exec_of_not_legal (by simpa using hl), ?_⟩
  intro gdb gcur gtgt ftgt flast fact sr hl egdb egcur egtgt eftgt eflast efact esr hgdb hgcur hgtgt hftgt hflast hfact hsr nan
  have hgt := coefInRange_newGainTarget (nan 0) g gdb hgtgt
  have hft := freqInRange_newFreqTarget f hflast hftgt
  have hfa := freqInRange_smooth nan hfact hft
  refine ⟨s.nanDraws + 1 + 3 + 3 + 1, ?_⟩
  rw [exec_beginBlock_of_active hl, blockUpdate_value egdb egcur egtgt eftgt eflast efact esr]
  simp only [blockUpdateState, newGainTarget_draw hgdb _ (nan 0), smooth_draw (coefInRange_lt hgcur) (coefInRange_lt hgt) _ nan,
    smooth_draw (freqInRange_lt hfact) (freqInRange_lt hft) _ nan, newInc_draw hfa hsr _ (nan 0)]
  rfl

/-! ### The steps toward the targets -/

/-- One smoothing step between words with sign bit 0 goes toward the target and not past it, and stays on it (40_numerics.md R110). -/
theorem smooth_approaches (nan : Nat → Word) {c v : Word} (hc : c.toNat < infBits) (hv : v.toNat < infBits) :
    (fle c v = true → fle c (smooth nan c v) = true ∧ fle (smooth nan c v) v = true) ∧
      (fle v c = true → fle v (smooth nan c v) = true ∧ fle (smooth nan c v) c = true) ∧
      (c = v → smooth nan c v = c) := by
  have hd : isFinite (fsub (nan 0) v c) = true := fsub_finite _ hv hc
  refine ⟨fle_smooth_up (isFinite_of_lt hc) (isFinite_of_lt hv) hd,
    fle_smooth_down (isFinite_of_lt hc) (isFinite_of_lt hv) hd, ?_⟩
  rintro rfl
  exact smooth_self nan hc

/-- Settles O29: both smoothers take one step toward what the update leaves, and the invariant keeps all four registers in range. -/
theorem blockUpdateApproachesItsTargets : Obligations.BlockUpdateApproachesItsTargets := by
  intro s t g f hs hl h
  have ht := (execBeginBlock_answers g f hs).of_eq_next h
  obtain ⟨-, ⟨c, ct, nan, -, hc, hct, hc'⟩, ⟨a, at', nan', -, ha, hat, ha'⟩⟩ := execBeginBlock_smooths hl h
  obtain ⟨hgup, hgdown, hgstay⟩ :=
    smooth_approaches nan (coefInRange_lt (hs.ranges.gcur c hc)) (coefInRange_lt (ht.ranges.gtgt ct hct))
  obtain ⟨hfup, hfdown, hfstay⟩ :=
    smooth_approaches nan' (freqInRange_lt (hs.ranges.fact a ha)) (freqInRange_lt (ht.ranges.ftgt at' hat))
  exact ⟨c, _, ct, a, _, at', hc, hc', hct, ha, ha', hat, hgup, hgdown, hfup, hfdown, hgstay, hfstay⟩

end Sys2Proof.Machine
end

section
/-! The oscillator and the per-sample step (44_nco_mixer.md): the table index (R167), the phase advance (R171), PROCESS_SAMPLE in one
equation (R165), and that no sample reaches a register (R174). -/

namespace Sys2Proof.Machine

/-! ### The table index and the phase advance -/

/-- Settles O31. -/
theorem tableIndexIsAlwaysInBounds : Obligations.TableIndexIsAlwaysInBounds := fun _ nan _ => tableIndex_lt nan

/-- `Frac` keeps a number below 1 with sign bit 0 (40_numerics.md R99). -/
theorem frac_of_lt_one {v : Word} (h : v.toNat < cOne.toNat) : frac v = some v := by
  obtain ⟨r, hr, -, hmag⟩ := frac_nonneg (h.trans (by decide))
  have hv : patternMag v.toNat < 2 ^ 149 := (patternMag_lt.2 h).trans_eq patternMag_one
  rw [hr, BitVec.eq_of_toNat_eq (patternMag_inj.1 (hmag.trans (Nat.mod_eq_of_lt hv)))]

/-- `Frac` of a number of 2^23 or more is +0.0 (40_numerics.md R99). -/
theorem frac_of_large {v : Word} (hv : v.toNat < infBits) (h : 0x4B000000 ≤ v.toNat) : frac v = some cZero := by
  obtain ⟨r, hr, -, hmag⟩ := frac_nonneg hv
  have hle : 2 ^ 23 * 2 ^ 149 ≤ magnitude v := by
    rw [magnitude_of_lt (hv.trans (by decide))]
    exact (show 2 ^ 23 * 2 ^ 149 = patternMag 0x4B000000 by decide).trans_le (patternMag_le.2 h)
  have hzero := magnitude_mod_of_large hle
  rw [magnitude_of_lt (hv.trans (by decide)), ← hmag, patternMag_eq_zero] at hzero
  rw [hr, BitVec.eq_of_toNat_eq (hzero.trans (by decide : 0 = cZero.toNat))]

/-- Settles O32: the sum is finite with sign bit 0, so its fractional part is its own where it is below 1 and +0.0 from 2^23 on. -/
theorem phaseAdvanceWrapsIntoRange : Obligations.PhaseAdvanceWrapsIntoRange := by
  intro phase pinc nan hp hi
  have hsum := phaseSum_finite nan hp hi
  obtain ⟨next, hnext, hrange⟩ := phaseAdvance_inRange nan hp hi
  refine ⟨isFinite_of_lt hsum, next, hnext, hrange, fun hlt => ?_, fun hge => ?_, fun hzero => ?_⟩
  · have hone := (flt_of_nonneg hsum.le (by decide)).1 hlt
    exact Option.some.inj (hnext.symm.trans (frac_of_lt_one hone))
  · have hlarge := (fle_of_nonneg (by decide) hsum.le).1 hge
    exact Option.some.inj (hnext.symm.trans (frac_of_large hsum hlarge))
  · have hkeep : fadd nan phase pinc = phase :=
      fadd_zero nan (isFinite_of_lt (phaseInRange_lt hp)) (by rw [hzero]; decide)
        (.inl (signBit_of_lt ((phaseInRange_lt hp).trans (by decide))))
    rw [hkeep] at hnext
    exact Option.some.inj (hnext.symm.trans (frac_of_lt_one (Nat.lt_succ_of_le hp)))

/-! ### PROCESS_SAMPLE -/

/-- PROCESS_SAMPLE in `ACTIVE` is the per-sample step (44_nco_mixer.md R165). -/
theorem exec_processSample_of_active {s : State} (hl : s.life = .active) (x m : Word) :
    exec (.processSample x m) s = sampleStep x m s := ifLegal_pos (by simpa using hl) s _

/-- Settles O30: the per-sample step's own equation, its index and its phase the same whichever NaN would be drawn. -/
theorem processSampleReadsMixesAdvances : Obligations.ProcessSampleReadsMixesAdvances := by
  refine fun s x m => ⟨rfl, fun hl => exec_of_not_legal (by simpa using hl), ?_⟩
  intro phase pinc coef len hl hphase hpinc hcoef hlen hp hi hc hpos htab nan hnan
  obtain ⟨idx, hidx, hlt⟩ := tableIndex_lt (nan 0) hp hpos len.isLt
  obtain ⟨w, hw, hwave⟩ := htab idx hlt
  obtain ⟨next, hnext, -⟩ := phaseAdvance_inRange (nan 0) hp hi
  have hidx' := hidx
  rw [fmul_draw_of_finite (isFinite_of_lt (phaseInRange_lt hp)) (isFinite_of_lt (fromNat_spec len.isLt.le).1) (nan 0)
    (nanAt s.nanDraws)] at hidx'
  have hstep := sampleStep_value (x := x) hphase hlen hidx' hlt hw hcoef hpinc (frac_fadd_draw (hnan 0) hnext _)
  exact ⟨idx, w, _, next, _, hidx, hlt, hw, hnext, mixSample_sameOutput_of_nan (drawsFrom_isNaN _) hnan hc hwave x,
    (exec_processSample_of_active hl x m).trans hstep⟩

/-! ### The audio path is memoryless -/

/-- The two states agree in everything but the words on `OUT`, and in how many there are (44_nco_mixer.md R174). -/
def SameButOut (s t : State) : Prop := { s with out := [] } = { t with out := [] } ∧ s.out.length = t.out.length

theorem SameButOut.refl (s : State) : SameButOut s s := ⟨rfl, rfl⟩

/-- The states that agree with `s` but for `OUT` are `s` with as many other words there. -/
theorem sameButOut_iff {s t : State} : SameButOut s t ↔ ∃ o, t = { s with out := o } ∧ s.out.length = o.length := by
  constructor
  · rintro ⟨hfields, hout⟩
    exact ⟨t.out, congrArg (fun u : State => { u with out := t.out }) hfields.symm, hout⟩
  · rintro ⟨o, rfl, hout⟩
    exact ⟨rfl, hout⟩

/-- One sample decides one word on `OUT` and nothing else: its coefficient, wave and next phase come from the registers and the
table (44_nco_mixer.md R165, R174). -/
theorem sampleStep_sameButOut {x x' m : Word} {s s' t t' : State} (hs : SameButOut s s') (h : sampleStep x m s = .next t)
    (h' : sampleStep x' m s' = .next t') : SameButOut t t' := by
  obtain ⟨o, rfl, hout⟩ := sameButOut_iff.1 hs
  obtain ⟨phase, coef, pinc, w, next, len, idx, hp, hl, hi, hlt, hw, hc, hn, hf, rfl⟩ := sampleStep_eq_next h
  rw [sampleStep_value (s := { s with out := o }) hp hl hi hlt hw hc hn hf] at h'
  cases h'
  exact ⟨rfl, by simp [sampleState, hout]⟩

theorem sampleSteps_sameButOut {m : Word} {xs xs' : List Word} (hlen : xs.length = xs'.length) {s s' t t' : State}
    (hs : SameButOut s s') (h : sampleSteps m xs s = .next t) (h' : sampleSteps m xs' s' = .next t') : SameButOut t t' := by
  induction xs generalizing xs' s s' with
  | nil =>
    obtain rfl := List.length_eq_zero_iff.1 hlen.symm
    cases h
    cases h'
    exact hs
  | cons x xs ih =>
    obtain ⟨x', xs', rfl⟩ := List.exists_cons_of_length_eq_add_one hlen.symm
    obtain ⟨u, hu, ht⟩ := andThen_eq_next h
    obtain ⟨u', hu', ht'⟩ := andThen_eq_next h'
    exact ih (Nat.succ.inj hlen) (sampleStep_sameButOut hs hu hu') ht ht'

/-- Settles O36: both blocks are refused alike, or start their samples from the one state that the per-block update left. -/
theorem audioNeverEntersTheState : Obligations.AudioNeverEntersTheState := by
  intro s t t' g f m xs xs' hlen h h'
  rcases execProcessBlock_eq_next h with ⟨hl, rfl⟩ | ⟨hl, u, hu, ht⟩
  · rw [exec_of_not_legal (by simpa using hl)] at h'
    cases h'
    exact SameButOut.refl _
  · obtain ⟨u', hu', ht'⟩ := andThen_eq_next ((ifLegal_pos (by simpa using hl) s _).symm.trans h')
    cases hu.symm.trans hu'
    exact sampleSteps_sameButOut hlen (.refl u) ht ht'

end Sys2Proof.Machine
end

section
/-! The mix (44_nco_mixer.md R169): the two halves of its factor and how far their sum is from 1, the range and the exact cases of the
factor (R172, R175), and what becomes of each kind of input sample (R172, R173). -/

namespace Sys2Proof.Machine

/-! ### One rounding inside a binade, and halving -/

theorem patternMag_two_pow (k : Nat) : patternMag (k * 2 ^ 23 + 2 ^ 24) = 2 ^ (k + 24) := by
  rw [patternMag_eq (.inr (by omega)) le_rfl, Nat.pow_add, Nat.mul_comm]

theorem dropBits_of_binade {n k : Nat} (hlo : 2 ^ (k + 23) ≤ n) (hhi : n < 2 ^ (k + 24)) : dropBits n 1 = k := by
  have hlog : Nat.log2 n = k + 23 := (Nat.log2_eq_iff ((Nat.two_pow_pos _).trans_le hlo).ne').2 ⟨hlo, hhi⟩
  rw [dropBits, Nat.div_one, hlog, Nat.add_sub_cancel]

/-- A number of units in [2^(k+23), 2^(k+24)] rounds to a multiple of 2^k, by at most half of that (40_numerics.md R91). -/
theorem roundMag_in_binade {n k : Nat} (hlo : 2 ^ (k + 23) ≤ n) (hhi : n ≤ 2 ^ (k + 24)) (hk : k < 253) :
    ∃ m, patternMag (roundMag n 1) = m * 2 ^ k ∧ 2 * (m * 2 ^ k) ≤ 2 * n + 2 ^ k ∧ 2 * n ≤ 2 * (m * 2 ^ k) + 2 ^ k := by
  have hinf : k * 2 ^ 23 + 2 ^ 24 < infBits := by
    unfold infBits
    omega
  rcases Nat.lt_or_eq_of_le hhi with hlt | h
  · have hdrop := dropBits_of_binade hlo hlt
    have hfin : roundMag n 1 < infBits :=
      (roundMag_le_of_le Nat.one_pos hinf.le (by rwa [patternMag_two_pow, Nat.mul_one])).trans_lt hinf
    have hup := roundMag_upper n 1 hfin
    have hdown := roundMag_lower Nat.one_pos hfin
    have heq := patternMag_roundMag hfin
    rw [hdrop, Nat.one_mul, Nat.mul_one] at hup hdown
    rw [hdrop] at heq
    rw [heq] at hup hdown
    exact ⟨significand n 1, heq, hup, hdown⟩
  · have he : n = 2 ^ 24 * 2 ^ k := by rw [h, Nat.pow_add, Nat.mul_comm]
    have hround : patternMag (roundMag n 1) = 2 ^ 24 * 2 ^ k := by
      rw [h, ← patternMag_two_pow, roundMag_exact_one hinf.le, patternMag_two_pow, ← h, he]
    exact ⟨2 ^ 24, hround, by rw [he]; exact Nat.le_add_right _ _, by rw [he]; exact Nat.le_add_right _ _⟩

/-- One step of the exponent field is a factor of two. -/
theorem patternMag_eq_two_mul {p : Nat} (h : 2 ^ 24 ≤ p) : patternMag p = 2 * patternMag (p - 2 ^ 23) := by
  obtain ⟨k, m, rfl, hk, hm⟩ := pattern_split p
  obtain ⟨k, rfl⟩ : ∃ j, k = j + 1 := ⟨k - 1, by omega⟩
  have hsub : (k + 1) * 2 ^ 23 + m - 2 ^ 23 = k * 2 ^ 23 + m := by omega
  rw [hsub, patternMag_eq hk hm.le, patternMag_eq (.inr (hk.resolve_left (by omega))) hm.le, Nat.pow_succ]
  ring

/-- Half of a finite word with sign bit 0 is exact where it is a zero or not subnormal. -/
theorem fmul_cHalf (nan : Word) {w : Word} (hw : w.toNat < infBits) (h : patternMag w.toNat = 0 ∨ 2 ^ 24 ≤ patternMag w.toNat) :
    (fmul nan cHalf w).toNat < infBits ∧ 2 * patternMag (fmul nan cHalf w).toNat = patternMag w.toNat := by
  have hhalf : patternMag cHalf.toNat = 2 ^ 148 := by decide
  rw [fmul_nonneg nan (by decide) hw, hhalf, toNat_pack_false (roundMag_lt _ _)]
  rcases h with h | h
  · rw [h, Nat.mul_zero, roundMag_zero]
    decide
  · have hp : 2 ^ 24 ≤ w.toNat := by
      rw [← patternMag_le]
      exact (show patternMag (2 ^ 24) = 2 ^ 24 by decide).trans_le h
    have hdouble := patternMag_eq_two_mul hp
    have hround : roundMag (2 ^ 148 * patternMag w.toNat) (2 ^ 149) = w.toNat - 2 ^ 23 := by
      rw [hdouble, show 2 ^ 148 * (2 * patternMag (w.toNat - 2 ^ 23)) = patternMag (w.toNat - 2 ^ 23) * 2 ^ 149 by ring,
        roundMag_exact (by omega) (by positivity)]
    rw [hround]
    exact ⟨by omega, hdouble.symm⟩

/-! ### 1 + coef and 1 − coef, rounded -/

/-- A number in [0.5, 1] is a multiple of 2^-24. -/
theorem dvd_patternMag_of_half_le {p : Nat} (h : cHalf.toNat ≤ p) : 2 ^ 125 ∣ patternMag p := by
  obtain ⟨k, m, rfl, hk, hm⟩ := pattern_split p
  have hhalf : cHalf.toNat = 126 * 2 ^ 23 := by decide
  rw [patternMag_eq hk hm.le]
  exact Nat.dvd_mul_left_of_dvd (Nat.pow_dvd_pow 2 (by omega)) m

/-- What is left of 1 by a number in [0.5, 1] has a pattern, so the difference is exact. -/
theorem roundMag_oneMinus_of_half_le {p : Nat} (h : cHalf.toNat ≤ p) :
    patternMag (roundMag (2 ^ 149 - patternMag p) 1) = 2 ^ 149 - patternMag p := by
  obtain ⟨j, hj⟩ := dvd_patternMag_of_half_le h
  obtain ⟨q, hq⟩ := exists_pattern 125 (2 ^ 24 - j) (by omega)
  have he : patternMag q = 2 ^ 149 - patternMag p := by omega
  rw [← he, roundMag_exact_one]
  rw [← patternMag_le, he]
  exact (Nat.sub_le _ _).trans (by decide)

/-- The rounded 1 + C and 1 − C lie in [1, 2] and in [0, 1] and add to 2 up to 2^-24: below 0.5 both are multiples of 2^-24, and from 0.5
on the difference is exact. -/
theorem roundMag_onePlus_oneMinus {p : Nat} (hp : p ≤ cOne.toNat) :
    let plus := patternMag (roundMag (2 ^ 149 + patternMag p) 1)
    let minus := patternMag (roundMag (2 ^ 149 - patternMag p) 1)
    2 ^ 149 ≤ plus ∧ plus ≤ 2 ^ 150 ∧ minus ≤ 2 ^ 149 ∧ (minus = 0 ∨ 2 ^ 125 ≤ minus) ∧
      2 ^ 150 ≤ plus + minus + 2 ^ 125 ∧ plus + minus ≤ 2 ^ 150 + 2 ^ 125 := by
  intro plus minus
  have hC : patternMag p ≤ 2 ^ 149 := (patternMag_le.2 hp).trans_eq patternMag_one
  obtain ⟨m, hplus, hup, hdown⟩ := roundMag_in_binade (n := 2 ^ 149 + patternMag p) (k := 126) (by omega) (by omega) (by omega)
  change plus = _ at hplus
  rcases Nat.lt_or_ge p cHalf.toNat with h | h
  · have hlt : patternMag p < 2 ^ 148 := (patternMag_lt.2 h).trans_eq (by decide)
    obtain ⟨m', hminus, hup', hdown'⟩ :=
      roundMag_in_binade (n := 2 ^ 149 - patternMag p) (k := 125) (by omega) (by omega) (by omega)
    change minus = _ at hminus
    omega
  · have hminus : minus = 2 ^ 149 - patternMag p := roundMag_oneMinus_of_half_le h
    obtain ⟨j, hj⟩ := dvd_patternMag_of_half_le h
    omega

/-! ### The two terms of the factor -/

/-- The term 0.5·(1 + coef) of the factor (44_nco_mixer.md R169). -/
def mixPlus (nan : Nat → Word) (coef : Word) : Word := fmul (nan 1) cHalf (fadd (nan 0) cOne coef)

/-- The coefficient 0.5·(1 − coef) of the wave (44_nco_mixer.md R169). -/
def mixMinus (nan : Nat → Word) (coef : Word) : Word := fmul (nan 3) cHalf (fsub (nan 2) cOne coef)

/-- The term of the wave (44_nco_mixer.md R169). -/
def mixWave (nan : Nat → Word) (coef w : Word) : Word := fmul (nan 4) (mixMinus nan coef) w

theorem mixFactor_eq_fadd (nan : Nat → Word) (coef w : Word) :
    mixFactor nan coef w = fadd (nan 5) (mixPlus nan coef) (mixWave nan coef w) := rfl

theorem mixSample_eq_fmul (nan : Nat → Word) (coef w x : Word) :
    mixSample nan coef w x = fmul (nan 6) x (mixFactor nan coef w) := rfl

section Terms

variable {coef : Word} (nan : Nat → Word) (hc : coefInRange coef)
include hc

theorem mixPlus_units : (mixPlus nan coef).toNat < infBits ∧
    2 * patternMag (mixPlus nan coef).toNat = patternMag (roundMag (2 ^ 149 + patternMag coef.toNat) 1) := by
  obtain ⟨hge, hle, -⟩ := roundMag_onePlus_oneMinus hc
  have hsum : (fadd (nan 0) cOne coef).toNat = roundMag (2 ^ 149 + patternMag coef.toNat) 1 := by
    rw [fadd_nonneg _ (by decide) (coefInRange_lt hc), toNat_pack_false (roundMag_lt _ _), patternMag_one]
  have hfin : (fadd (nan 0) cOne coef).toNat < infBits := by
    rw [hsum, ← patternMag_lt]
    exact hle.trans_lt (by decide)
  rw [← hsum] at hge ⊢
  exact fmul_cHalf (nan 1) hfin (.inr (by omega))

theorem mixMinus_units : (mixMinus nan coef).toNat < infBits ∧
    2 * patternMag (mixMinus nan coef).toNat = patternMag (roundMag (2 ^ 149 - patternMag coef.toNat) 1) := by
  obtain ⟨-, -, hle, hzero, -⟩ := roundMag_onePlus_oneMinus hc
  have hdiff : (fsub (nan 2) cOne coef).toNat = roundMag (2 ^ 149 - patternMag coef.toNat) 1 := by
    rw [fsub_nonneg (a := cOne) _ (by decide) (coefInRange_lt hc) hc, toNat_pack_false (roundMag_lt _ _), patternMag_one]
  have hfin : (fsub (nan 2) cOne coef).toNat < infBits := by
    rw [hdiff, ← patternMag_lt]
    exact hle.trans_lt (by decide)
  rw [← hdiff] at hzero ⊢
  exact fmul_cHalf (nan 3) hfin (hzero.imp_right fun h => by omega)

/-- 0.5 ≤ 0.5·(1 + coef) ≤ 1 (44_nco_mixer.md R175). -/
theorem mixPlus_range : cHalf.toNat ≤ (mixPlus nan coef).toNat ∧ (mixPlus nan coef).toNat ≤ cOne.toNat := by
  have hhalf : patternMag cHalf.toNat = 2 ^ 148 := by decide
  obtain ⟨hge, hle, -⟩ := roundMag_onePlus_oneMinus hc
  obtain ⟨-, hunits⟩ := mixPlus_units nan hc
  constructor <;> rw [← patternMag_le]
  · omega
  · rw [patternMag_one]
    omega

/-- 0.5·(1 − coef) is at most 0.5 (44_nco_mixer.md R175). -/
theorem mixMinus_le : (mixMinus nan coef).toNat ≤ cHalf.toNat := by
  have hhalf : patternMag cHalf.toNat = 2 ^ 148 := by decide
  obtain ⟨-, -, hle, -⟩ := roundMag_onePlus_oneMinus hc
  obtain ⟨-, hunits⟩ := mixMinus_units nan hc
  rw [← patternMag_le, hhalf]
  omega

/-- The two terms add to 1 up to 2^-25, half the distance from 1 to the number below it. -/
theorem mixPlus_add_mixMinus :
    2 ^ 149 ≤ patternMag (mixPlus nan coef).toNat + patternMag (mixMinus nan coef).toNat + 2 ^ 124 ∧
      patternMag (mixPlus nan coef).toNat + patternMag (mixMinus nan coef).toNat ≤ 2 ^ 149 + 2 ^ 124 := by
  obtain ⟨-, -, -, -, hge, hle⟩ := roundMag_onePlus_oneMinus hc
  obtain ⟨-, hplus⟩ := mixPlus_units nan hc
  obtain ⟨-, hminus⟩ := mixMinus_units nan hc
  omega

theorem mixPlus_finite : isFinite (mixPlus nan coef) = true := isFinite_of_lt (mixPlus_units nan hc).1

theorem mixMinus_finite : isFinite (mixMinus nan coef) = true := isFinite_of_lt (mixMinus_units nan hc).1

theorem value_mixPlus : value (mixPlus nan coef) = patternMag (mixPlus nan coef).toNat :=
  value_of_lt ((mixPlus_units nan hc).1.trans (by decide))

theorem magnitude_mixMinus : magnitude (mixMinus nan coef) = patternMag (mixMinus nan coef).toNat :=
  magnitude_of_lt ((mixMinus_units nan hc).1.trans (by decide))

section Wave

variable {w : Word} (hw : waveInRange w)
include hw

/-- The wave's term is in magnitude at most its coefficient (44_nco_mixer.md R175). -/
theorem magBits_mixWave_le : magBits (mixWave nan coef w) ≤ magBits (mixMinus nan coef) := by
  rw [mixWave, fmul_of_finite _ (mixMinus_finite nan hc) (isFinite_of_waveInRange hw), magBits_pack (roundMag_lt _ _)]
  exact roundMag_le_of_le (by positivity) (isFinite_iff.1 (mixMinus_finite nan hc)).le
    (Nat.mul_le_mul_left _ (magnitude_le_of_waveInRange hw))

theorem mixWave_finite : isFinite (mixWave nan coef w) = true :=
  isFinite_iff.2 ((magBits_mixWave_le nan hc hw).trans_lt (isFinite_iff.1 (mixMinus_finite nan hc)))

theorem magnitude_mixWave_le : magnitude (mixWave nan coef w) ≤ patternMag (mixMinus nan coef).toNat :=
  (patternMag_le.2 (magBits_mixWave_le nan hc hw)).trans_eq (magnitude_mixMinus nan hc)

end Wave

end Terms

/-! ### The factor -/

/-- 2^-25 above 1 is less than half the distance to the next number. -/
theorem roundMag_le_one {n : Nat} (h : n ≤ 2 ^ 149 + 2 ^ 124) : roundMag n 1 ≤ cOne.toNat :=
  (roundMag_mono Nat.one_pos Nat.one_pos (Nat.mul_le_mul_right 1 h)).trans_eq (by decide)

/-- 2^-25 below 1 is half the distance to the number before, and 1 is the even one of the two. -/
theorem one_le_roundMag {n : Nat} (h : 2 ^ 149 ≤ n + 2 ^ 124) : cOne.toNat ≤ roundMag n 1 :=
  (show cOne.toNat = roundMag (2 ^ 149 - 2 ^ 124) 1 by decide).trans_le
    (roundMag_mono Nat.one_pos Nat.one_pos (Nat.mul_le_mul_right 1 (by omega)))

/-- More than 2^-25 below 1 does not round to 1. -/
theorem le_add_of_one_le_roundMag {n : Nat} (h : cOne.toNat ≤ roundMag n 1) : 2 ^ 149 ≤ n + 2 ^ 124 := by
  by_contra hlt
  have hmono := roundMag_mono (n₁ := n) (n₂ := 2 ^ 149 - 2 ^ 124 - 1) Nat.one_pos Nat.one_pos (by omega)
  have hbelow : roundMag (2 ^ 149 - 2 ^ 124 - 1) 1 < cOne.toNat := by decide
  omega

theorem roundMag_eq_zero {n : Nat} : roundMag n 1 = 0 ↔ n = 0 := by
  refine ⟨fun h => ?_, fun h => by rw [h, roundMag_zero]⟩
  by_contra hne
  have := le_roundMag_of_le (n := n) (d := 1) (p := 1) Nat.one_pos (by decide) (by rw [show patternMag 1 = 1 by decide]; omega)
  omega

/-- A product with a number of magnitude 1 is the other operand, its sign flipped by a sign bit of 1. -/
theorem fmul_unit (nan : Word) {x u : Word} (hx : isFinite x = true) (hu : magBits u = cOne.toNat) :
    fmul nan x u = pack (signBit x != signBit u) (magBits x) := by
  have huf : isFinite u = true := isFinite_iff.2 (by rw [hu]; decide)
  rw [fmul_of_finite nan hx huf, magnitude, magnitude, hu, patternMag_one, roundMag_exact (isFinite_iff.1 hx).le (by positivity)]

theorem fmul_cOne_of_finite (nan : Word) {x : Word} (hx : isFinite x = true) : fmul nan x cOne = x := by
  rw [fmul_unit nan hx (by decide), show signBit cOne = false by decide, Bool.bne_false, pack_eta]

theorem fmul_cMOne (nan : Word) {x : Word} (hx : isFinite x = true) : fmul nan x cMOne = negate x := by
  rw [fmul_unit nan hx (by decide), show signBit cMOne = true by decide, Bool.bne_true, negate]

/-- 0.5 of a number in [−1, 1] is 0.5 only of 1.0 and −1.0. -/
theorem magBits_eq_one_of_half_le_product {w : Word} (nan : Word) (hw : waveInRange w)
    (h : cHalf.toNat ≤ magBits (fmul nan cHalf w)) : magBits w = cOne.toNat := by
  refine le_antisymm hw (le_of_not_gt fun hlt => ?_)
  have hbelow : patternMag (magBits w) ≤ 2 * patternMag 0x3EFFFFFF :=
    (patternMag_le.2 (Nat.le_pred_of_lt hlt)).trans_eq (by decide)
  have hround : magBits (fmul nan cHalf w) ≤ 0x3EFFFFFF := by
    rw [fmul_of_finite nan (by decide) (isFinite_of_waveInRange hw), magBits_pack (roundMag_lt _ _),
      show magnitude cHalf = 2 ^ 148 by decide]
    refine roundMag_le_of_le (by positivity) (by decide) ?_
    rw [magnitude]
    omega
  exact absurd (h.trans hround) (by decide)

section Factor

variable {coef w : Word} (nan : Nat → Word) (hc : coefInRange coef) (hw : waveInRange w)
include hc hw

/-- The wave's term never outweighs the other one, which is at least 0.5, and their sum exceeds 1 by at most 2^-25. -/
theorem mixTerms_sum_range : 0 ≤ value (mixPlus nan coef) + value (mixWave nan coef w) ∧
    value (mixPlus nan coef) + value (mixWave nan coef w) ≤ 2 ^ 149 + 2 ^ 124 := by
  have hplus := patternMag_le.2 (mixPlus_range nan hc).1
  have hminus := patternMag_le.2 (mixMinus_le nan hc)
  have hwave := magnitude_mixWave_le nan hc hw
  obtain ⟨-, hsum⟩ := mixPlus_add_mixMinus nan hc
  rw [value_mixPlus nan hc]
  rw [← value_natAbs] at hwave
  omega

/-- The factor is in [0, 1] with sign bit 0 (44_nco_mixer.md R175). -/
theorem coefInRange_mixFactor : coefInRange (mixFactor nan coef w) := by
  have hplus : signBit (mixPlus nan coef) = false := signBit_of_lt ((mixPlus_units nan hc).1.trans (by decide))
  obtain ⟨hge, hle⟩ := mixTerms_sum_range nan hc hw
  have hsign := signBit_fadd_nonneg (nan 5) (mixPlus_finite nan hc) (mixWave_finite nan hc hw) hplus hge
  rw [mixFactor_eq_fadd, coefInRange, ← magBits_of_lt (lt_of_signBit hsign),
    magBits_fadd _ (mixPlus_finite nan hc) (mixWave_finite nan hc hw)]
  exact roundMag_le_one (by omega)

/-- The factor is +0.0 exactly where the two terms cancel. -/
theorem mixFactor_eq_zero : mixFactor nan coef w = cZero ↔ value (mixPlus nan coef) + value (mixWave nan coef w) = 0 := by
  have hlt : (mixFactor nan coef w).toNat < 2 ^ 31 := (coefInRange_lt (coefInRange_mixFactor nan hc hw)).trans (by decide)
  have hmag := magBits_fadd (nan 5) (mixPlus_finite nan hc) (mixWave_finite nan hc hw)
  rw [← mixFactor_eq_fadd, magBits_of_lt hlt] at hmag
  rw [← Int.natAbs_eq_zero, ← roundMag_eq_zero, ← hmag]
  exact ⟨fun h => by rw [h]; decide, fun h => BitVec.eq_of_toNat_eq (h.trans (by decide))⟩

/-- Two terms that cancel are both 0.5, and the wave is −1.0. -/
theorem halves_of_cancel (h : value (mixPlus nan coef) + value (mixWave nan coef w) = 0) :
    mixPlus nan coef = cHalf ∧ mixMinus nan coef = cHalf ∧ w = cMOne := by
  have hplus := patternMag_le.2 (mixPlus_range nan hc).1
  have hminus := patternMag_le.2 (mixMinus_le nan hc)
  have hwave := magnitude_mixWave_le nan hc hw
  have hhalf : patternMag cHalf.toNat = 2 ^ 148 := by decide
  have hvalue := value_natAbs (mixWave nan coef w)
  rw [value_mixPlus nan hc] at h
  have hp : mixPlus nan coef = cHalf := BitVec.eq_of_toNat_eq (patternMag_inj.1 (by omega))
  have hm : mixMinus nan coef = cHalf := BitVec.eq_of_toNat_eq (patternMag_inj.1 (by omega))
  have hmag : cHalf.toNat ≤ magBits (mixWave nan coef w) := patternMag_le.1 (show _ ≤ magnitude _ by omega)
  have hsign : signBit (mixWave nan coef w) = true := by
    rw [signBit_eq_of_value_ne_zero (by omega), decide_eq_true_iff]
    omega
  rw [mixWave, hm] at hsign hmag
  refine ⟨hp, hm, word_ext ?_ (magBits_eq_one_of_half_le_product (nan 4) hw hmag)⟩
  rw [signBit_fmul _ (by decide) (isFinite_of_waveInRange hw),
    show signBit cHalf = false by decide] at hsign
  rw [show signBit cMOne = true by decide]
  simpa using hsign

end Factor

section Cases

variable {coef w : Word} (nan : Nat → Word) (hc : coefInRange coef)
include hc

/-- Both terms are 0.5 exactly for a coefficient up to 2^-25. -/
theorem mixTerms_halves : mixPlus nan coef = cHalf ∧ mixMinus nan coef = cHalf ↔ coef.toNat ≤ 0x33000000 := by
  have hhalf : 2 * patternMag cHalf.toNat = patternMag cOne.toNat := by decide
  have hbound : patternMag 0x33000000 = 2 ^ 124 := by decide
  obtain ⟨-, hplus⟩ := mixPlus_units nan hc
  obtain ⟨-, hminus⟩ := mixMinus_units nan hc
  rw [← patternMag_le, hbound]
  constructor
  · rintro ⟨-, hm⟩
    rw [hm, hhalf, patternMag_inj] at hminus
    have := le_add_of_one_le_roundMag hminus.le
    omega
  · intro hle
    have hone : ∀ {n}, 2 ^ 149 ≤ n + 2 ^ 124 → n ≤ 2 ^ 149 + 2 ^ 124 → patternMag (roundMag n 1) = 2 * patternMag cHalf.toNat :=
      fun h h' => by rw [hhalf, le_antisymm (roundMag_le_one h') (one_le_roundMag h)]
    rw [hone (by omega) (by omega)] at hplus hminus
    exact ⟨BitVec.eq_of_toNat_eq (patternMag_inj.1 (by omega)), BitVec.eq_of_toNat_eq (patternMag_inj.1 (by omega))⟩

/-- At wave −1.0 the factor is the rounded difference of the two terms (44_nco_mixer.md R172). -/
theorem mixFactor_cMOne : mixFactor nan coef cMOne = fadd (nan 5) (mixPlus nan coef) (negate (mixMinus nan coef)) := by
  rw [mixFactor_eq_fadd, mixWave, fmul_cMOne _ (mixMinus_finite nan hc)]

/-- The factor is +0.0 exactly at wave −1.0 with a coefficient up to 2^-25 (44_nco_mixer.md R175). -/
theorem mixFactor_eq_zero_iff (hw : waveInRange w) :
    mixFactor nan coef w = cZero ↔ w = cMOne ∧ coef.toNat ≤ 0x33000000 := by
  rw [mixFactor_eq_zero nan hc hw]
  constructor
  · intro h
    obtain ⟨hp, hm, hw⟩ := halves_of_cancel nan hc hw h
    exact ⟨hw, (mixTerms_halves nan hc).1 ⟨hp, hm⟩⟩
  · rintro ⟨rfl, hle⟩
    obtain ⟨hp, hm⟩ := (mixTerms_halves nan hc).2 hle
    rw [mixWave, fmul_cMOne _ (mixMinus_finite nan hc), value_negate, hp, hm]
    decide

/-- At wave 1.0 the terms add to 1.0 (44_nco_mixer.md R172). -/
theorem mixFactor_cOne : mixFactor nan coef cOne = cOne := by
  have hplus := mixPlus_units nan hc
  have hminus := mixMinus_units nan hc
  obtain ⟨hge, hle⟩ := mixPlus_add_mixMinus nan hc
  rw [mixFactor_eq_fadd, mixWave, fmul_cOne_of_finite _ (mixMinus_finite nan hc), fadd_nonneg _ hplus.1 hminus.1,
    le_antisymm (roundMag_le_one hle) (one_le_roundMag hge)]
  decide

/-- Where the wave's term is a zero the factor is the other term (44_nco_mixer.md R172). -/
theorem mixFactor_of_zero_wave (h : magBits (mixWave nan coef w) = 0) : mixFactor nan coef w = mixPlus nan coef :=
  fadd_zero _ (mixPlus_finite nan hc) h (.inl (signBit_of_lt ((mixPlus_units nan hc).1.trans (by decide))))

end Cases

/-- With coefficient 1.0 the wave's term is a zero and the other one 1.0 (44_nco_mixer.md R172). -/
theorem mixFactor_of_coef_one (nan : Nat → Word) {w : Word} (hw : waveInRange w) : mixFactor nan cOne w = cOne := by
  have hc : coefInRange cOne := Nat.le_refl _
  obtain ⟨-, hplus⟩ := mixPlus_units nan hc
  obtain ⟨-, hminus⟩ := mixMinus_units nan hc
  have hzero : magBits (mixWave nan cOne w) = 0 := by
    rw [← magnitude_eq_zero]
    have := magnitude_mixWave_le nan hc hw
    rw [patternMag_one, Nat.sub_self, roundMag_zero, patternMag_zero] at hminus
    omega
  rw [mixFactor_of_zero_wave nan hc hzero]
  have htwo : patternMag (roundMag (2 ^ 149 + patternMag cOne.toNat) 1) = 2 * patternMag cOne.toNat := by decide
  exact BitVec.eq_of_toNat_eq (patternMag_inj.1 (by omega))

/-! ### A sample times a factor in [0, 1] -/

section Sample

variable {x f : Word} (nan : Word) (hf : coefInRange f)
include hf

/-- A finite sample stays finite, with its sign and no greater in magnitude (44_nco_mixer.md R173). -/
theorem fmul_finite_sample (hx : isFinite x = true) : isFinite (fmul nan x f) = true ∧ signBit (fmul nan x f) = signBit x ∧
    magBits (fmul nan x f) ≤ magBits x := by
  have hxm := isFinite_iff.1 hx
  have hle : roundMag (magnitude x * magnitude f) (2 ^ 149) ≤ magBits x :=
    roundMag_le_of_le (by positivity) hxm.le
      (Nat.mul_le_mul_left _ (magnitude_le_of_waveInRange (waveInRange_of_coefInRange hf)))
  rw [fmul_of_finite nan hx (isFinite_of_lt (coefInRange_lt hf)), isFinite_iff, magBits_pack (roundMag_lt _ _),
    signBit_pack (roundMag_lt _ _), signBit_of_lt ((coefInRange_lt hf).trans (by decide)), Bool.bne_false]
  exact ⟨hle.trans_lt hxm, rfl, hle⟩

/-- A zero sample passes with its sign (44_nco_mixer.md R173). -/
theorem fmul_zero_sample (hx : magBits x = 0) : fmul nan x f = x := by
  obtain ⟨-, hsign, hmag⟩ := fmul_finite_sample nan hf (isFinite_iff.2 (by rw [hx]; decide))
  exact word_ext hsign (by omega)

/-- An infinite sample passes under a factor above zero (44_nco_mixer.md R173). -/
theorem fmul_inf_sample (hx : isInf x = true) (h0 : f.toNat ≠ 0) : fmul nan x f = x := by
  have hlt : f.toNat < 2 ^ 31 := (coefInRange_lt hf).trans (by decide)
  have hxm := isInf_iff.1 hx
  have hx0 : magnitude x ≠ 0 := by rw [Ne, magnitude_eq_zero, hxm]; decide
  have hf0 : magnitude f ≠ 0 := by rwa [Ne, magnitude_eq_zero, magBits_of_lt hlt]
  have hprod : fmul nan x f = pack (signBit x != signBit f) infBits := by
    simp [fmul, isNaN_of_isInf hx, isNaN_of_lt_inf (coefInRange_lt hf), hx, hx0, hf0]
  rw [hprod, signBit_of_lt hlt, Bool.bne_false, ← hxm, pack_eta]

end Sample

/-- Every sample that is no NaN passes a factor of 1.0 bit for bit (44_nco_mixer.md R172). -/
theorem fmul_cOne (nan : Word) {x : Word} (hx : isNaN x = false) : fmul nan x cOne = x := by
  rcases Nat.lt_or_eq_of_le (isNaN_eq_false.1 hx) with hlt | heq
  · exact fmul_cOne_of_finite nan (isFinite_iff.2 hlt)
  · exact fmul_inf_sample nan (Nat.le_refl _) (isInf_iff.2 heq) (by decide)

/-- A finite sample under the factor +0.0 becomes the zero of its sign (44_nco_mixer.md R172). -/
theorem fmul_finite_cZero (nan : Word) {x : Word} (hx : isFinite x = true) :
    fmul nan x cZero = if signBit x then 0x80000000#32 else 0x00000000#32 := by
  rw [fmul_of_finite nan hx (by decide), show magnitude cZero = 0 by decide, Nat.mul_zero, roundMag_zero,
    show signBit cZero = false by decide, Bool.bne_false]
  cases signBit x <;> decide

/-! ### The statements -/

/-- Settles O34: the two terms in their ranges, the wave's term no larger than its coefficient, so the sum is in [0, 1]. -/
theorem mixFactorStaysInUnitRange : Obligations.MixFactorStaysInUnitRange := by
  intro nan coef w hc hw
  have hplus := (mixPlus_units nan hc).1.le
  have hminus := (mixMinus_units nan hc).1.le
  obtain ⟨hge, hle⟩ := mixPlus_range nan hc
  exact ⟨⟨(fle_of_nonneg (by decide) hplus).2 hge, (fle_of_nonneg hplus (by decide)).2 hle⟩,
    ⟨(fle_of_nonneg (by decide) hminus).2 (Nat.zero_le _), (fle_of_nonneg hminus (by decide)).2 (mixMinus_le nan hc)⟩,
    patternMag_le.2 (magBits_mixWave_le nan hc hw), coefInRange_mixFactor nan hc hw, mixFactor_eq_zero_iff nan hc hw⟩

/-- Settles O33: the factor in each exact case, and what a sample becomes under the factors 1.0 and +0.0. -/
theorem mixHasItsExactCases : Obligations.MixHasItsExactCases := by
  intro nan coef w x hc hw
  have hunit : mixFactor nan coef w = cOne → isNaN x = false → mixSample nan coef w x = x := fun hfac hx => by
    rw [mixSample_eq_fmul, hfac, fmul_cOne _ hx]
  refine ⟨?_, ?_, ?_, ?_, fun h => mixFactor_of_zero_wave nan hc ?_⟩
  · rintro rfl
    have hfac := mixFactor_of_coef_one nan hw
    exact ⟨hfac, hunit hfac, fun hnan hx => by rw [mixSample_nan nan _ w hx]; exact hnan 6⟩
  · rintro rfl rfl
    have hfac := (mixFactor_eq_zero_iff nan hc hw).2 ⟨rfl, by decide⟩
    exact ⟨hfac, fun hx => by rw [mixSample_eq_fmul, hfac, fmul_finite_cZero _ hx]⟩
  · rintro rfl
    have hfac := mixFactor_cOne nan hc
    exact ⟨hfac, hunit hfac⟩
  · rintro rfl
    refine ⟨mixFactor_cMOne nan hc, ?_, ?_⟩
    · rintro rfl
      exact (mixFactor_draw hc hw nan fun _ => 0#32).trans (by decide)
    · rintro rfl
      exact (mixFactor_draw hc hw nan fun _ => 0#32).trans (by decide)
  · rw [mixWave, magBits_fmul _ (mixMinus_finite nan hc) (isFinite_of_waveInRange hw), value_eq_zero.2 h, mul_zero,
      Int.natAbs_zero, roundMag_zero]

/-- Settles O35: the factor is in [0, 1], so each kind of sample comes out of the product as its own lemma says. -/
theorem specialSamplesMixAsStated : Obligations.SpecialSamplesMixAsStated := by
  intro nan coef w x hc hw hnan
  have hfac := coefInRange_mixFactor nan hc hw
  rw [mixSample_eq_fmul]
  refine ⟨fun hx => ?_, fun hx hpos => ?_, fun hx h0 => ?_, fmul_zero_sample _ hfac, fun hx => ?_⟩
  · rw [fmul_nan_left _ _ hx]
    exact hnan 6
  · have hlt := (flt_of_nonneg (by decide) (coefInRange_lt hfac).le).1 hpos
    exact fmul_inf_sample _ hfac hx (Nat.ne_of_gt hlt)
  · rw [h0, fmul_inf_zero _ hx (by decide)]
    exact hnan 6
  · obtain ⟨hfin, hsign, hmag⟩ := fmul_finite_sample (nan 6) hfac hx
    exact ⟨hfin, hsign, patternMag_le.2 hmag⟩

end Sys2Proof.Machine
end

section
/-! The block driver (45_block.md): PROCESS_BLOCK as the sequence of its parts (R182), its empty block (R181), what it writes and what
it leaves (R180), and when splitting a block cannot be observed (R183). -/

namespace Sys2Proof.Machine

/-! ### Commands in sequence -/

/-- Two continuations that agree on the state reached give the same outcome. -/
theorem andThen_congr {r : Result} {k l : State → Result} (h : ∀ u, r = .next u → k u = l u) : andThen r k = andThen r l := by
  cases r with
  | next u => exact h u rfl
  | fault e => rfl
  | refused e => rfl

theorem execAll_cons (i : Instr) (is : List Instr) (s : State) :
    execAll (i :: is) s = andThen (exec i s) (execAll is) := rfl

theorem execAll_singleton (i : Instr) (s : State) : execAll [i] s = exec i s := by
  rw [execAll_cons]
  cases exec i s <;> rfl

theorem raise_seqErr_of_set {s : State} (h : s.seqErr = true) : raise .seqErr s = s :=
  congrArg (fun b => { s with seqErr := b }) h.symm

/-- Where `SEQ_ERR` is set already, commands that are all refused change nothing (42_lifecycle.md R141). -/
theorem execAll_of_refused {is : List Instr} {s : State} (hl : ∀ i ∈ is, legalIn i s.life = false) (he : s.seqErr = true) :
    execAll is s = .next s := by
  induction is with
  | nil => rfl
  | cons i is ih =>
    rw [execAll_cons, exec_of_not_legal (hl i List.mem_cons_self), raise_seqErr_of_set he, andThen_next]
    exact ih fun j hj => hl j (List.mem_cons_of_mem i hj)

theorem sampleSteps_cons (m x : Word) (xs : List Word) (s : State) :
    sampleSteps m (x :: xs) s = andThen (sampleStep x m s) (sampleSteps m xs) := rfl

/-- The samples of a block in two parts (45_block.md R180). -/
theorem sampleSteps_append (m : Word) (xs ys : List Word) (s : State) :
    sampleSteps m (xs ++ ys) s = andThen (sampleSteps m xs s) (sampleSteps m ys) := by
  induction xs generalizing s with
  | nil => rfl
  | cons x xs ih =>
    rw [List.cons_append, sampleSteps_cons, sampleSteps_cons, andThen_assoc]
    exact andThen_congr fun u _ => ih u

/-- In `ACTIVE`, one PROCESS_SAMPLE for each sample makes the samples of a block (45_block.md R180). -/
theorem execAll_processSample_of_active {s : State} (hl : s.life = .active) (m : Word) (xs : List Word) :
    execAll (xs.map fun x => .processSample x m) s = sampleSteps m xs s := by
  induction xs generalizing s with
  | nil => rfl
  | cons x xs ih =>
    rw [List.map_cons, execAll_cons, exec_processSample_of_active hl, sampleSteps_cons]
    exact andThen_congr fun u hu => ih ((sampleStep_keeps_lifecycle hu).1.trans hl)

/-! ### PROCESS_BLOCK and its parts -/

/-- PROCESS_BLOCK in `ACTIVE` is the per-block update and then the samples (45_block.md R180). -/
theorem exec_processBlock_of_active {s : State} (hl : s.life = .active) (g f m : Word) (xs : List Word) :
    exec (.processBlock g f m xs) s = andThen (blockUpdate g f s) (sampleSteps m xs) :=
  ifLegal_pos (by simpa using hl) s _

/-- Outside `ACTIVE` the first of the parts sets `SEQ_ERR`, and each one after it sets it again (45_block.md R182). -/
theorem execAll_parts_of_not_active {s : State} (hl : s.life ≠ .active) (g f m : Word) (xs : List Word) :
    execAll (.beginBlock g f :: xs.map fun x => .processSample x m) s = .next (raise .seqErr s) := by
  rw [execAll_cons, exec_of_not_legal (by simpa using hl), andThen_next]
  refine execAll_of_refused (fun i hi => ?_) rfl
  obtain ⟨x, -, rfl⟩ := List.mem_map.1 hi
  simpa using hl

/-- Settles O39: in `ACTIVE` the update leaves `ACTIVE`, where the PROCESS_SAMPLEs make the samples; elsewhere both forms are
refused. -/
theorem processBlockEqualsItsParts : Obligations.ProcessBlockEqualsItsParts := by
  refine fun s g f m xs => ⟨?_, fun hl => execAll_parts_of_not_active hl g f m xs⟩
  by_cases hl : s.life = .active
  · rw [exec_processBlock_of_active hl, execAll_cons, exec_beginBlock_of_active hl]
    exact andThen_congr fun u hu =>
      (execAll_processSample_of_active ((blockUpdate_keeps_lifecycle hu).1.trans hl) m xs).symm
  · rw [execAll_parts_of_not_active hl, exec_of_not_legal (by simpa using hl)]

/-! ### The empty block -/

/-- BEGIN_BLOCK, refused or not, leaves the oscillator and its mode (43_smoother.md R150). -/
theorem execBeginBlock_keeps_oscillator {g f : Word} {s t : State} (h : execBeginBlock g f s = .next t) :
    t.phase = s.phase ∧ t.modeSel = s.modeSel := by
  rcases execBeginBlock_eq_next h with ⟨_, rfl⟩ | ⟨_, hupdate⟩
  · exact ⟨rfl, rfl⟩
  · rw [blockUpdate_frame hupdate]
    exact ⟨rfl, rfl⟩

/-- Settles O38: the sequence of an empty block's parts is BEGIN_BLOCK alone. -/
theorem emptyBlockIsBeginBlock : Obligations.EmptyBlockIsBeginBlock := by
  intro s g f m
  have hexec : exec (.processBlock g f m []) s = exec (.beginBlock g f) s :=
    (processBlockEqualsItsParts s g f m []).1.trans (execAll_singleton _ s)
  refine ⟨rfl, hexec, fun t h => ?_⟩
  rw [hexec] at h
  exact ⟨execBeginBlock_out h, execBeginBlock_keeps_oscillator h⟩

/-! ### The effect of a block -/

/-- The update writes no flag and neither of the block's inputs (43_smoother.md R150). -/
theorem blockUpdate_keeps_flags_and_inputs {g f : Word} {s t : State} (h : blockUpdate g f s = .next t) :
    (∀ fl, t.flag fl = s.flag fl) ∧ t.cmd = s.cmd ∧ t.resetIn = s.resetIn := by
  rw [blockUpdate_frame h]
  exact ⟨fun _ => rfl, rfl, rfl⟩

/-- Settles O37: a safe `ACTIVE` state completes the update and every sample. The samples write only the mode, the phase and `OUT`,
so the smoothers are the update's and the rest is as it was before. -/
theorem processBlockUpdatesThenProcessesEverySample : Obligations.ProcessBlockUpdatesThenProcessesEverySample := by
  refine fun s g f m xs => ⟨fun _ => rfl, fun hl => exec_of_not_legal (by simpa using hl), fun hs hl => ?_⟩
  obtain ⟨u, hu, husafe⟩ := blockUpdate_answers g f ⟨hs, hl⟩
  obtain ⟨t, ht, -⟩ := sampleSteps_answers m xs husafe
  have hupdate := (exec_beginBlock_of_active hl g f).trans hu
  have hsamples := (execAll_processSample_of_active husafe.2 m xs).trans ht
  have hblock : exec (.processBlock g f m xs) s = .next t := by
    rw [exec_processBlock_of_active hl, hu, andThen_next, ht]
  have hout := blockUpdate_out hu
  obtain ⟨hmem, htlen, hsrate⟩ := blockUpdate_keeps_engine hu
  obtain ⟨hlife, -⟩ := blockUpdate_keeps_lifecycle hu
  obtain ⟨hflags, hcmd, hreset⟩ := blockUpdate_keeps_flags_and_inputs hu
  obtain ⟨ys, _, _, hlen, rfl⟩ := sampleSteps_frame ht
  exact ⟨u, _, ys, hupdate, hsamples, hblock, congrArg (· ++ ys) hout, hlen, rfl, rfl, rfl, rfl, rfl, rfl, rfl,
    hsrate, htlen, hmem, hlife, hflags, hcmd, hreset⟩

/-! ### Splitting a block -/

/-- The operands are those stored, and both smoothers sit on their targets (45_block.md R183, 40_numerics.md R110 (b)). -/
structure OnTarget (g f : Word) (s : State) : Prop where
  gain : s.gdb = .value g
  freq : s.flast = .value f
  gainReached : s.gcur = s.gtgt
  freqReached : s.fact = s.ftgt

/-- On target, the update computes `PINC` and writes nothing else but what is there already (45_block.md R183). -/
theorem blockUpdate_on_target {g f fact sr : Word} {s : State} (hs : SafeActive s) (ht : OnTarget g f s)
    (hfact : s.fact = .value fact) (hsr : s.srate = .value sr) (nan : Word) :
    blockUpdate g f s = .next { s with pinc := newInc nan fact sr s.pinc, nanDraws := s.nanDraws + 8 } := by
  obtain ⟨hgdb, hflast, hgcur, hftgt⟩ := ht
  obtain ⟨coef, hcoef, hc⟩ := hs.datapathHeld.gcur
  have hranges := hs.invariant.ranges
  have hg : isNaN g = false := hranges.gdb g hgdb
  have hf : freqInRange f := hranges.flast f hflast
  have hfa : freqInRange fact := hranges.fact fact hfact
  rw [blockUpdate_value hgdb hcoef (hgcur.symm.trans hcoef) (hftgt.symm.trans hfact) hflast hfact hsr]
  simp only [blockUpdateState, newGainTarget, newFreqTarget, sanG_of_not_nan hg, sanF_of_inRange hf, differs_self hg,
    differs_self (isNaN_of_isFinite hf.1), Bool.false_eq_true, if_false, smooth_self _ (coefInRange_lt hc),
    smooth_self _ (freqInRange_lt hfa), newInc_draw hfa (hranges.srate sr hsr) _ nan]
  rw [← hgdb, ← hflast, ← hcoef, ← hfact, ← hgcur, ← hftgt]

/-- Computing `PINC` again from the same `FACT` and `SRATE` changes nothing (43_smoother.md R154). -/
theorem newInc_newInc (nan fact sr : Word) (pinc : Held Word) :
    newInc nan fact sr (newInc nan fact sr pinc) = newInc nan fact sr pinc := by
  unfold newInc
  split_ifs <;> rfl

/-- After an update on target, and any samples, the same update passes draws and does nothing else (45_block.md R183). -/
theorem blockUpdate_again {g f m : Word} {xs : List Word} {s u v : State} (hs : SafeActive s) (ht : OnTarget g f s)
    (hu : blockUpdate g f s = .next u) (hv : sampleSteps m xs u = .next v) :
    blockUpdate g f v = .next { v with nanDraws := v.nanDraws + 8 } := by
  obtain ⟨fact, hfact, -⟩ := hs.datapathHeld.fact
  obtain ⟨sr, hsr, -⟩ := hs.tablesBuilt.rate
  have husafe := (blockUpdate_answers g f hs).of_eq_next hu
  have hvsafe := (sampleSteps_answers m xs husafe).of_eq_next hv
  rw [blockUpdate_on_target hs ht hfact hsr cZero] at hu
  cases hu
  obtain ⟨_, _, _, -, rfl⟩ := sampleSteps_frame hv
  obtain ⟨hgain, hfreq, hgcur, hftgt⟩ := ht
  rw [blockUpdate_on_target hvsafe ⟨hgain, hfreq, hgcur, hftgt⟩ hfact hsr cZero, newInc_newInc]

/-- Settles O40: the second block's update passes draws alone, and from states that agree up to the draws its samples leave states
that agree. -/
theorem splittingIsInvisibleOnTarget : Obligations.SplittingIsInvisibleOnTarget := by
  intro s t g f m xs ys hs hl hgdb hflast hgcur hfact h
  have hsafe : SafeActive s := ⟨hs, hl⟩
  rw [exec_processBlock_of_active hl] at h
  obtain ⟨u, hu, hut⟩ := andThen_eq_next h
  rw [sampleSteps_append] at hut
  obtain ⟨v, hv, hvt⟩ := andThen_eq_next hut
  have hvsafe := (sampleSteps_answers m xs ((blockUpdate_answers g f hsafe).of_eq_next hu)).of_eq_next hv
  have hagain := blockUpdate_again hsafe ⟨hgdb, hflast, hgcur, hfact⟩ hu hv
  rw [execAll_cons, exec_processBlock_of_active hl, hu, andThen_next, hv, andThen_next, execAll_singleton,
    exec_processBlock_of_active hvsafe.2, hagain, andThen_next]
  exact sampleSteps_draws hvsafe (sameUpToDraws_withDraws v _) hvt

end Sys2Proof.Machine
end

section
/-! The three fault flags (60_exceptions.md): what each command and each step can do to them (R191, R192, R196, R198), the halt that
an illegal header begins and hardware reset ends (R193), and that no command reads `CFG_ERR` or `SEQ_ERR` (10_state.md R33). -/

namespace Sys2Proof.Machine

/-! ### What a command does to the flags -/

theorem sampleStep_keeps_flags {x m : Word} {s t : State} (h : sampleStep x m s = .next t) (f : FaultFlag) :
    t.flag f = s.flag f := by
  obtain ⟨_, _, rfl⟩ := sampleStep_frame h
  rfl

theorem sampleSteps_keeps_flags {m : Word} {xs : List Word} {s t : State} (h : sampleSteps m xs s = .next t)
    (f : FaultFlag) : t.flag f = s.flag f := by
  obtain ⟨_, _, _, _, rfl⟩ := sampleSteps_frame h
  rfl

/-- Everything a legal command can do to the flags: a CONSTRUCT with bad operands sets `CFG_ERR` and does nothing else, every other
command leaves all three (60_exceptions.md R191, R195). -/
theorem exec_flag_cases_of_legal {i : Instr} {s t : State} (hl : legalIn i s.life = true) (h : exec i s = .next t) :
    (∀ f, t.flag f = s.flag f) ∨
      s.life = .unbuilt ∧ t = raise .cfgErr s ∧ ∃ len sr, i = .construct len sr ∧ constructOk len sr = false := by
  cases i with
  | construct len sr =>
    rcases execConstruct_eq_next h with ⟨hn, _⟩ | ⟨hu, hbad, ht⟩ | ⟨_, _, rfl⟩
    · exact absurd (by simpa using hl) hn
    · exact .inr ⟨hu, ht, len, sr, rfl, hbad⟩
    · exact .inl fun _ => rfl
  | activate g f =>
    rcases execActivate_eq_next h with ⟨hu, _⟩ | ⟨_, rfl⟩
    · exact absurd hu (by simpa using hl)
    · exact .inl fun _ => rfl
  | beginBlock g f =>
    rcases execBeginBlock_eq_next h with ⟨hn, _⟩ | ⟨_, hupdate⟩
    · exact absurd (by simpa using hl) hn
    · exact .inl (blockUpdate_keeps_flags_and_inputs hupdate).1
  | processSample x m =>
    rcases execProcessSample_eq_next h with ⟨hn, _⟩ | ⟨_, hsample⟩
    · exact absurd (by simpa using hl) hn
    · exact .inl (sampleStep_keeps_flags hsample)
  | processBlock g f m xs =>
    rcases execProcessBlock_eq_next h with ⟨hn, _⟩ | ⟨_, _, hupdate, hsamples⟩
    · exact absurd (by simpa using hl) hn
    · exact .inl fun fl => (sampleSteps_keeps_flags hsamples fl).trans ((blockUpdate_keeps_flags_and_inputs hupdate).1 fl)
  | deactivate =>
    rcases execDeactivate_eq_next h with ⟨hn, _⟩ | ⟨_, rfl⟩
    · exact absurd (by simpa using hl) hn
    · exact .inl fun _ => rfl
  | destroy =>
    rcases execDestroy_eq_next h with ⟨hu, _⟩ | ⟨_, rfl⟩
    · exact absurd hu (by simpa using hl)
    · exact .inl fun _ => rfl

/-! ### A bad CONSTRUCT -/

/-- A rate that CONSTRUCT rejects is not finite, or is at or below zero (41_wavetable.md R123). -/
theorem isPositiveFinite_eq_false_iff {sr : Word} :
    isPositiveFinite sr = false ↔ isFinite sr = false ∨ fle sr cZero = true := by
  unfold isPositiveFinite
  cases hf : isFinite sr with
  | false => simp
  | true =>
    have hz : isNaN cZero = false := by decide
    have hn := isNaN_of_isFinite hf
    rw [Bool.true_and, ← Bool.not_eq_true, flt_iff hz hn, not_lt, fle_iff hn hz]
    simp

/-- The bad operands of 60_exceptions.md R191 are those that CONSTRUCT rejects. -/
theorem constructOk_eq_false_iff {len : Count} {sr : Word} :
    constructOk len sr = false ↔
      len.toNat = 0 ∨ tableCap < len.toNat ∨ isFinite sr = false ∨ fle sr cZero = true := by
  rw [← isPositiveFinite_eq_false_iff, ← Bool.not_eq_true, constructOk_iff, rateInRange, ← Bool.not_eq_true,
    not_and_or, not_and_or, Nat.not_le, Nat.not_le, Nat.lt_one_iff, or_assoc]

theorem exec_construct_of_bad {len : Count} {sr : Word} {s : State} (hl : s.life = .unbuilt)
    (hbad : constructOk len sr = false) : exec (.construct len sr) s = .next (raise .cfgErr s) :=
  (ifLegal_pos (by simpa using hl) s _).trans (if_neg (by simpa using hbad))

/-- Settles O12: a refused command sets another flag, and of the legal ones `exec_flag_cases_of_legal` leaves the bad CONSTRUCT. -/
theorem badConstructOnlySetsCfgErr : Obligations.BadConstructOnlySetsCfgErr := by
  refine ⟨fun s len sr hl hbad => exec_construct_of_bad hl (constructOk_eq_false_iff.2 hbad), fun s t i h hne => ?_⟩
  cases hl : legalIn i s.life with
  | false =>
    cases (exec_of_not_legal hl).symm.trans h
    exact absurd rfl hne
  | true =>
    rcases exec_flag_cases_of_legal hl h with hkeep | ⟨hu, ht, len, sr, hi, hbad⟩
    · exact absurd (hkeep .cfgErr) hne
    · exact ⟨hu, ht, len, sr, hi, constructOk_eq_false_iff.1 hbad⟩

/-! ### What a step does to the flags -/

/-- The flags of `t` are those of `s`, or those of `s` with one of them raised (60_exceptions.md R196). -/
def RaisesAtMostOne (s t : State) : Prop :=
  (∀ f, t.flag f = s.flag f) ∨ ∃ raised, ∀ f, t.flag f = (raise raised s).flag f

theorem raisesAtMostOne_exec {i : Instr} {s t : State} (h : exec i s = .next t) : RaisesAtMostOne s t := by
  cases hl : legalIn i s.life with
  | false =>
    cases (exec_of_not_legal hl).symm.trans h
    exact .inr ⟨.seqErr, fun _ => rfl⟩
  | true =>
    rcases exec_flag_cases_of_legal hl h with hkeep | ⟨_, rfl, _⟩
    · exact .inl hkeep
    · exact .inr ⟨.cfgErr, fun _ => rfl⟩

theorem raisesAtMostOne_step {s t : State} (hr : s.resetIn = false) (h : step s = .next t) : RaisesAtMostOne s t := by
  rcases step_cases s with ⟨hr', _⟩ | ⟨_, _, e⟩ | ⟨_, _, _, e⟩ | ⟨_, rest, _, _, _, e⟩ | ⟨i, rest, _, _, _, e⟩
  · cases hr.symm.trans hr'
  · cases e.symm.trans h; exact .inl fun _ => rfl
  · cases e.symm.trans h; exact .inl fun _ => rfl
  · cases e.symm.trans h; exact .inr ⟨.illCmd, fun _ => rfl⟩
  · have hexec : RaisesAtMostOne { s with cmd := rest } t := raisesAtMostOne_exec (e.symm.trans h)
    exact hexec.imp id fun ⟨raised, hraised⟩ => ⟨raised, fun f => (hraised f).trans (by rw [raise_flag, raise_flag]; rfl)⟩

/-- A flag that became set is the one raised. -/
theorem eq_of_raised {s : State} {f raised : FaultFlag} (hclear : s.flag f = false)
    (hset : (raise raised s).flag f = true) : f = raised := by
  by_contra hne
  rw [raise_flag, if_neg hne, hclear] at hset
  cases hset

/-- Settles O13. -/
theorem flagsAreStickyAndRaisedSingly : Obligations.FlagsAreStickyAndRaisedSingly := by
  intro s t hr h
  rcases raisesAtMostOne_step hr h with hkeep | ⟨raised, hraised⟩
  · exact ⟨fun f hf => (hkeep f).trans hf, fun f _ hf ht => by cases hf.symm.trans ((hkeep f).symm.trans ht)⟩
  · refine ⟨fun f hf => ?_, fun f g hf htf hg htg => ?_⟩
    · rw [hraised, raise_flag, hf, ite_self]
    · rw [hraised] at htf htg
      exact (eq_of_raised hf htf).trans (eq_of_raised hg htg).symm

/-! ### The halt after an illegal header -/

/-- With `ILL_CMD` set and no reset asserted a step changes nothing, whatever waits on `CMD` (60_exceptions.md R193). -/
theorem step_of_halted {s : State} (hr : s.resetIn = false) (hi : s.illCmd = true) : step s = .next s := by
  simp [step, fetch, hr, hi]

theorem run_of_halted {s : State} (hr : s.resetIn = false) (hi : s.illCmd = true) (n : Nat) :
    Host.Core.run core n s = .next s := by
  induction n with
  | zero => exact run_zero s
  | succ n ih =>
    rw [run_succ, step_of_halted hr hi]
    exact ih

theorem step_of_reset {s : State} (hr : s.resetIn = true) : step s = .next (hardwareReset s) := by
  simp [step, fetch, hr]

/-- Where `ILL_CMD` was clear, setting it sets its bit of `STATUS`; the words on `CMD` do not show there (10_state.md R34). -/
theorem status_of_illCmd {s : State} (hi : s.illCmd = false) (ws : List Word) :
    { s with cmd := ws, illCmd := true }.status = s.status ||| (1#32 <<< causeCode .illCmd) := by
  simp [State.status, bitWord, hi]

/-- Settles O8: the step raises `ILL_CMD`, which halts every run, and the reset clears it. -/
theorem illegalCommandHaltsUntilReset : Obligations.IllegalCommandHaltsUntilReset := by
  intro s why rest hr hi hd
  refine ⟨step_of_illegal hr hi hd, status_of_illCmd hi rest, rfl, fun n ws => ?_, ?_⟩
  · exact run_of_halted (s := { s with cmd := rest, illCmd := true }.receive ws) hr rfl n
  · exact ⟨_, step_of_reset (assertReset_resetIn _), hardwareReset_illCmd _⟩

/-! ### No command reads `CFG_ERR` or `SEQ_ERR` -/

/-- `s` with the values `c` of `CFG_ERR` and `q` of `SEQ_ERR`. -/
def State.withErrors (s : State) (c q : Bool) : State := { s with cfgErr := c, seqErr := q }

/-- Where `k` completes, it completes whatever the two flags are, in the same state but for them (60_exceptions.md R198). -/
def IgnoresErrors (k : State → Result) : Prop :=
  ∀ (s t : State) (c q : Bool), k s = .next t → ∃ c' q', k (s.withErrors c q) = .next (t.withErrors c' q')

theorem IgnoresErrors.andThen {k l : State → Result} (hk : IgnoresErrors k) (hl : IgnoresErrors l) :
    IgnoresErrors fun s => andThen (k s) l := by
  intro s t c q h
  obtain ⟨u, hu, ht⟩ := andThen_eq_next h
  obtain ⟨c₁, q₁, hu'⟩ := hk s u c q hu
  obtain ⟨c₂, q₂, ht'⟩ := hl u t c₁ q₁ ht
  exact ⟨c₂, q₂, (congrArg (Machine.andThen · l) hu').trans ht'⟩

/-- The lifecycle check reads `LIFE` alone; where it refuses, `SEQ_ERR` is set whatever it was. -/
theorem IgnoresErrors.ifLegal {k : State → Result} (legal : Life → Bool) (hk : IgnoresErrors k) :
    IgnoresErrors fun s => ifLegal (legal s.life) s (k s) := by
  intro s t c q h
  rcases ifLegal_eq_next h with ⟨hc, ht⟩ | ⟨hc, rfl⟩
  · obtain ⟨c', q', ht'⟩ := hk s t c q ht
    exact ⟨c', q', (ifLegal_pos hc _ _).trans ht'⟩
  · exact ⟨c, true, ifLegal_neg hc _ _⟩

theorem ignoresErrors_latchGain (g : Word) : IgnoresErrors (latchGain g) := by
  intro s t c q h
  obtain ⟨old, ho, rfl⟩ := latchGain_eq_next h
  exact ⟨c, q, latchGain_value (s := s.withErrors c q) ho⟩

theorem ignoresErrors_latchFreq (f : Word) : IgnoresErrors (latchFreq f) := by
  intro s t c q h
  obtain ⟨old, ho, rfl⟩ := latchFreq_eq_next h
  exact ⟨c, q, latchFreq_value (s := s.withErrors c q) ho⟩

theorem withErrors_reg (s : State) (c q : Bool) (r : NumReg) : (s.withErrors c q).reg r = s.reg r := by cases r <;> rfl

theorem smoothState_withErrors (cur : NumReg) (v w : Word) (s : State) (c q : Bool) :
    smoothState cur v w (s.withErrors c q) = (smoothState cur v w s).withErrors c q := by cases cur <;> rfl

theorem ignoresErrors_smoothReg (cur tgt : NumReg) : IgnoresErrors (smoothReg cur tgt) := by
  intro s t c q h
  obtain ⟨v, w, hv, hw, rfl⟩ := smoothReg_eq_next h
  refine ⟨c, q, ?_⟩
  rw [smoothReg_value ((withErrors_reg s c q cur).trans hv) ((withErrors_reg s c q tgt).trans hw), smoothState_withErrors]

theorem ignoresErrors_updateInc : IgnoresErrors updateInc := by
  intro s t c q h
  obtain ⟨fact, sr, hf, hs, rfl⟩ := updateInc_eq_next h
  exact ⟨c, q, updateInc_value (s := s.withErrors c q) hf hs⟩

theorem ignoresErrors_blockUpdate (g f : Word) : IgnoresErrors (blockUpdate g f) :=
  (ignoresErrors_latchGain g).andThen <| (ignoresErrors_latchFreq f).andThen <|
    (ignoresErrors_smoothReg .gcur .gtgt).andThen <| (ignoresErrors_smoothReg .fact .ftgt).andThen ignoresErrors_updateInc

theorem ignoresErrors_sampleStep (x m : Word) : IgnoresErrors (sampleStep x m) := by
  intro s t c q h
  obtain ⟨_, _, _, _, _, _, _, hp, hl, hi, hlt, hw, hc, hn, hf, rfl⟩ := sampleStep_eq_next h
  exact ⟨c, q, sampleStep_value (s := s.withErrors c q) hp hl hi hlt hw hc hn hf⟩

theorem ignoresErrors_sampleSteps (m : Word) (xs : List Word) : IgnoresErrors (sampleSteps m xs) := by
  induction xs with
  | nil =>
    intro s t c q h
    cases h
    exact ⟨c, q, rfl⟩
  | cons x xs ih => exact (ignoresErrors_sampleStep x m).andThen ih

/-- What always completes, in a state that differs from another's only where the two flags do. -/
theorem ignoresErrors_next {next : State → State} (h : ∀ s c q, next (s.withErrors c q) = (next s).withErrors c q) :
    IgnoresErrors fun s => .next (next s) := by
  intro s t c q ht
  cases ht
  exact ⟨c, q, congrArg Host.Outcome.next (h s c q)⟩

theorem ignoresErrors_execConstruct (len : Count) (sr : Word) : IgnoresErrors (execConstruct len sr) := by
  refine .ifLegal (· == .unbuilt) fun s t c q h => ?_
  split_ifs at h ⊢
  · cases h; exact ⟨c, q, rfl⟩
  · cases h; exact ⟨true, q, rfl⟩

theorem ignoresErrors_exec (i : Instr) : IgnoresErrors (exec i) := by
  cases i with
  | construct len sr => exact ignoresErrors_execConstruct len sr
  | activate g f => exact .ifLegal (· != .unbuilt) (ignoresErrors_next fun _ _ _ => rfl)
  | beginBlock g f => exact .ifLegal (· == .active) (ignoresErrors_blockUpdate g f)
  | processSample x m => exact .ifLegal (· == .active) (ignoresErrors_sampleStep x m)
  | processBlock g f m xs =>
    exact .ifLegal (· == .active) ((ignoresErrors_blockUpdate g f).andThen (ignoresErrors_sampleSteps m xs))
  | deactivate => exact .ifLegal (· == .active) (ignoresErrors_next fun _ _ _ => rfl)
  | destroy => exact .ifLegal (· != .unbuilt) (ignoresErrors_next fun _ _ _ => rfl)

/-- Settles O14, command by command. -/
theorem noCommandReadsCfgErrOrSeqErr : Obligations.NoCommandReadsCfgErrOrSeqErr := by
  intro s t i c q h
  obtain ⟨_, _, ht⟩ := ignoresErrors_exec i s t c q h
  exact ⟨_, ht, rfl⟩

end Sys2Proof.Machine
end

section
/-! The processing path is total (60_exceptions.md R195): from a safe `ACTIVE` state it completes in another with the same flags, one
output word for each sample, finite for a finite one. -/

namespace Sys2Proof.Machine

/-- The path from `s` over the samples `xs` ends in `t`: safe and active, no flag changed, and a word on `OUT` for each sample that
is finite if the sample is (60_exceptions.md R195). -/
structure Processed (xs : List Word) (s t : State) : Prop where
  safe : SafeActive t
  flags : ∀ f, t.flag f = s.flag f
  out : ∃ ys, t.out = s.out ++ ys ∧ List.Forall₂ (fun x y => isFinite x = true → isFinite y = true) xs ys

theorem Processed.append {xs ys : List Word} {s t u : State} (h : Processed xs s t) (h' : Processed ys t u) :
    Processed (xs ++ ys) s u := by
  obtain ⟨_, hflags, ws, hout, hws⟩ := h
  obtain ⟨hsafe, hflags', ws', hout', hws'⟩ := h'
  exact ⟨hsafe, fun f => (hflags' f).trans (hflags f), ws ++ ws', by rw [hout', hout, List.append_assoc],
    List.rel_append hws hws'⟩

theorem Processed.refl {s : State} (h : SafeActive s) : Processed [] s s :=
  ⟨h, fun _ => rfl, [], (List.append_nil _).symm, .nil⟩

theorem blockUpdate_processed (g f : Word) {s : State} (h : SafeActive s) :
    Answers (blockUpdate g f s) (Processed [] s) := by
  obtain ⟨t, ht, hsafe⟩ := blockUpdate_answers g f h
  exact ⟨t, ht, hsafe, (blockUpdate_keeps_flags_and_inputs ht).1, [], by rw [blockUpdate_out ht, List.append_nil], .nil⟩

/-- The mix factor of a coefficient and a table entry in their ranges is in [0, 1], so a finite sample stays finite
(44_nco_mixer.md R173). -/
theorem mixSample_finite (nan : Nat → Word) {coef w x : Word} (hc : coefInRange coef) (hw : waveInRange w)
    (hx : isFinite x = true) : isFinite (mixSample nan coef w x) = true := by
  rw [mixSample_eq_fmul]
  exact (fmul_finite_sample _ (coefInRange_mixFactor nan hc hw) hx).1

theorem sampleStep_processed (x m : Word) {s : State} (h : SafeActive s) :
    Answers (sampleStep x m s) (Processed [x] s) := by
  obtain ⟨t, ht, hsafe⟩ := sampleStep_answers x m h
  refine ⟨t, ht, hsafe, sampleStep_keeps_flags ht, ?_⟩
  obtain ⟨_, coef, _, w, _, _, _, _, _, _, _, hw, hc, _, _, rfl⟩ := sampleStep_eq_next ht
  have hwave := h.tablesBuilt.waveInRange_of_read hw
  exact ⟨_, rfl, .cons (mixSample_finite _ (h.invariant.ranges.gcur coef hc) hwave) .nil⟩

theorem sampleSteps_processed (m : Word) (xs : List Word) {s : State} (h : SafeActive s) :
    Answers (sampleSteps m xs s) (Processed xs s) := by
  induction xs generalizing s with
  | nil => exact answers_next (.refl h)
  | cons x xs ih => exact (sampleStep_processed x m h).andThen fun t ht => (ih ht.safe).imp fun _ => ht.append

/-- In `ACTIVE` a processing command is its update, its samples, or both in that order. -/
theorem exec_processed {i : Instr} {s : State} (h : SafeActive s) (hi : isProcessing i = true) :
    Answers (exec i s) (Processed (samplesOf i) s) := by
  cases i with
  | beginBlock g f =>
    rw [exec_beginBlock_of_active h.2]
    exact blockUpdate_processed g f h
  | processSample x m =>
    rw [exec_processSample_of_active h.2]
    exact sampleStep_processed x m h
  | processBlock g f m xs =>
    rw [exec_processBlock_of_active h.2]
    exact (blockUpdate_processed g f h).andThen fun t ht => (sampleSteps_processed m xs ht.safe).imp fun _ => ht.append
  | construct len sr => cases hi
  | activate g f => cases hi
  | deactivate => cases hi
  | destroy => cases hi

theorem length_samplesOf (i : Instr) : (samplesOf i).length = outWords i := by cases i <;> rfl

/-- Settles O56: the words are as many as the samples, since they pair off. -/
theorem processingPathIsTotal : Obligations.ProcessingPathIsTotal := by
  intro s i hs hl hi
  obtain ⟨t, ht, ⟨hinv, hactive⟩, hflags, ys, hout, hfinite⟩ := exec_processed ⟨hs, hl⟩ hi
  exact ⟨t, ys, ht, hflags, hinv, hactive, hout, hfinite.length_eq.symm.trans (length_samplesOf i), hfinite⟩

end Sys2Proof.Machine
end

section
/-! Hardware reset (70_reset_and_hazards.md R215): what the views of the state (the flags, the table reads, `STATUS`) show after it,
and that the step which finds the reset input asserted takes it. -/

namespace Sys2Proof.Machine

@[simp] theorem hardwareReset_flag (s : State) (f : FaultFlag) : (hardwareReset s).flag f = false := by cases f <;> rfl

theorem hardwareReset_read (s : State) (sel : Wave) (idx : Nat) : (hardwareReset s).mem.read sel idx = .noValue := by
  rw [hardwareReset_mem, Memory.read_empty]

/-- `STATUS` has no state of its own (10_state.md R34), so the output words that outlive a reset do not show in it. -/
@[simp] theorem hardwareReset_status (s : State) : (hardwareReset s).status = 0x00000000#32 :=
  calc (hardwareReset s).status
    _ = State.reset.status := rfl
    _ = 0x00000000#32 := statusShowsLifeModeAndFlags.1

/-- Settles O9: the step is the hardware reset, and each piece of state is read off it. -/
theorem hardwareResetRestoresTheResetState : Obligations.HardwareResetRestoresTheResetState := by
  intro s hr
  exact ⟨hardwareReset s, step_of_reset hr, hardwareReset_life s, hardwareReset_modeSel s, hardwareReset_flag s,
    hardwareReset_reg s, hardwareReset_tlen s, hardwareReset_read s, hardwareReset_cmd s, hardwareReset_status s,
    hardwareReset_out s, hardwareReset_resetIn s⟩

end Sys2Proof.Machine
end
